-- ==== Sys2Proof/Word.lean ====
section
/-! DEFINITION. The words the SSTV-PD120 engine moves: 8-bit colour components, pixels of three components, and
32-bit operation words (spec 00_scope R9, 20_memory R62, 30_encoding R80). -/

namespace Sys2Proof

/-- One 8-bit colour component, or one byte of a cell list (R62). -/
abbrev Byte := BitVec 8

/-- One operation word: 32 bits, one length, no prefixes (R80). -/
abbrev OpWord := BitVec 32

/-- One pixel as the pixel port delivers it: three components, each 0 to 255 (R62, R67). -/
structure Pixel where
  r : Byte
  g : Byte
  b : Byte
  deriving DecidableEq, Repr, Inhabited

end Sys2Proof
end

