-- ==== Sys2Proof/Config.lean ====
section
/-! DEFINITION. The constants of rules R6 and R7, the open parameters the spec leaves to an implementation
(92_eei_decisions, "Open parameters"), and the free values. The `opaque` constants have no body: no proof can see
what they are. -/

namespace Sys2Proof.Config

/-- `W`: image width in pixels, and pixels per segment (R6). -/
def width : Nat := 640

/-- `H`: image height in rows (R6). -/
def height : Nat := 496

/-- `NPAIRS`: line pairs (R6, R195). -/
def numPairs : Nat := 248

/-- `T_SYNC`, in microseconds (R6). -/
def syncUs : BitVec 28 := 20000#28

/-- `T_PORCH`, in microseconds (R6). -/
def porchUs : BitVec 28 := 2080#28

/-- `T_SCAN`: duration of one segment, in microseconds (R6). -/
def scanUs : Nat := 121600

/-- `PIXDUR`, which is also `FIRE_OFFSET`: microseconds between fires, and from arming to the first fire (R6, R7). -/
def pixDur : BitVec 8 := 190#8

/-- `F_SYNC` (R6). -/
def syncHz : BitVec 16 := 1200#16

/-- `F_PORCH` (R6). -/
def porchHz : BitVec 16 := 1500#16

/-- `F_LEADER` (R6). -/
def leaderHz : BitVec 16 := 1900#16

/-- `F_BREAK`: break, start bit and stop bit (R6, R186). -/
def breakHz : BitVec 16 := 1200#16

/-- `F_BIT1` (R6, R184). -/
def bit1Hz : BitVec 16 := 1100#16

/-- `F_BIT0` (R6, R184). -/
def bit0Hz : BitVec 16 := 1300#16

/-- `T_LEADER` (R6). -/
def leaderUs : BitVec 28 := 300000#28

/-- `T_BREAK` (R6). -/
def breakUs : BitVec 28 := 10000#28

/-- `T_BIT` (R6). -/
def bitUs : BitVec 28 := 30000#28

/-- `VIS`: the code of PD120, 7 bits (R6, R182). -/
def vis : BitVec 7 := 95#7

/-- `F_BLACK`: the lowest video frequency, in hertz (R6). -/
def blackHz : Nat := 1500

/-- `PROM_WORDS` (R7). -/
def promWords : Nat := 2048

/-- Microseconds in a second: the tick is 1 us (R7 `TICK`, R12). -/
def usPerSecond : Nat := 1000000

/-- By how much `F_NCO` exceeds the least rate R221 allows. OPEN (U13): assumption log 9. -/
opaque fNcoExcess : Nat

/-- `F_NCO`, the NCO's update rate in hertz: any number above `2 * 2301` (R221). -/
def fNco : Nat := 4603 + fNcoExcess

/-- `DUTY_THR`, the NCO's output threshold. OPEN (R222, U12): assumption log 9. -/
opaque dutyThr : Nat

/-- The default of `DUTY_THR`, 50 percent (R7, R222). -/
def dutyThrDefault : Nat := 2147483648

/-- FREE VALUE: what the n-th read of a pixel returns that the host wrote during a transmission: any triple
(R64, 93_implementation_defined U4). Assumption log 4. -/
opaque freePixel : Nat → Pixel

/-- FREE VALUE: `SEQ_PC` after `SEQ_PC + 1` at 2047, which 11 bits do not hold and for which the spec states no
result (R29). DESIGN CHOICE, assumption log 10. -/
opaque freePc : Nat → BitVec 11

end Sys2Proof.Config
end

