-- ==== Sys2Proof/Machine/Colour.lean ====
section
/-! DEFINITION. The colour-space converter and the frequency mapper: over the rationals as DOC00 states them
(40_colour_and_frequency R111 to R119), and the exact integer functions the datapath computes (R120 to R122). No
floating-point type (R126). -/

namespace Sys2Proof.Machine

/-- `Y1000 = 299 R + 587 G + 114 B` (R120). -/
def y1000 (p : Pixel) : Nat := 299 * p.r.toNat + 587 * p.g.toNat + 114 * p.b.toNat

/-- `RYn = 713 * (1000 R - Y1000)` (R121). -/
def ryn (p : Pixel) : Int := 713 * (1000 * (p.r.toNat : Int) - (y1000 p : Int))

/-- `BYn = 564 * (1000 B - Y1000)` (R121). -/
def byn (p : Pixel) : Int := 564 * (1000 * (p.b.toNat : Int) - (y1000 p : Int))

/-- `LumFreq = 1500 + (4 * Y1000) div 1275` (R120). -/
def lumFreq (p : Pixel) : Nat := Config.blackHz + (4 * y1000 p) / 1275

/-- `DiffFreq(S) = 1500 + (S + 256000000) div 637500` (R122); `/` on `Int` by a positive number is the floor
division of R10. -/
def diffFreq (s : Int) : Int := (Config.blackHz : Int) + (s + 256000000) / 637500

/-- Luminance over the rationals (R111, R119). -/
def lumaQ (p : Pixel) : ℚ :=
  299 / 1000 * (p.r.toNat : ℚ) + 587 / 1000 * (p.g.toNat : ℚ) + 114 / 1000 * (p.b.toNat : ℚ)

/-- Red difference over the rationals (R112). -/
def redDiffQ (p : Pixel) : ℚ := 713 / 1000 * ((p.r.toNat : ℚ) - lumaQ p)

/-- Blue difference over the rationals (R113). -/
def blueDiffQ (p : Pixel) : ℚ := 564 / 1000 * ((p.b.toNat : ℚ) - lumaQ p)

/-- `mapLuminance` (R116): one floor, at the end (R119). -/
def mapLuminance (y : ℚ) : Int := 1500 + ⌊y / 255 * 800⌋

/-- `mapDifference` (R117), not clamped. -/
def mapDifference (d : ℚ) : Int := 1500 + ⌊(d + 128) / 255 * 800⌋

/-- The mean of two rows' difference, with no rounding (R118). -/
def meanQ (a b : ℚ) : ℚ := (a + b) / 2

end Sys2Proof.Machine
end

