-- ==== Sys2Proof/Machine/Memory.lean ====
section
/-! DEFINITION. A memory as a list of (address, byte) cells in one canonical form, and its operations. `d` gives
what an address that is not listed reads as; `lim` bounds the addresses. Used for the image and for the program ROM
(20_memory R60). -/

namespace Sys2Proof.Machine

/-- The byte at an address. -/
def Cells.read (d : Nat → Byte) : List Host.Cell → Nat → Byte
  | [], a => d a
  | (k, v) :: m, a => if a = k then v else Cells.read d m a

/-- List `v` at `a`, in address order. -/
def Cells.put (a : Nat) (v : Byte) : List Host.Cell → List Host.Cell
  | [] => [(a, v)]
  | (k, u) :: m =>
    if a < k then (a, v) :: (k, u) :: m
    else if a = k then (a, v) :: m
    else (k, u) :: Cells.put a v m

/-- No longer list `a`. -/
def Cells.del (a : Nat) : List Host.Cell → List Host.Cell
  | [] => []
  | (k, u) :: m => if a = k then Cells.del a m else (k, u) :: Cells.del a m

/-- A write keeps the canonical form: the value an unlisted address reads as is not listed. -/
def Cells.write (d : Nat → Byte) (m : List Host.Cell) (a : Nat) (v : Byte) : List Host.Cell :=
  if v = d a then Cells.del a m else Cells.put a v m

/-- Addresses from `lo` on, strictly rising and below `lim`, and no entry equal to what it would read as unlisted. -/
def Cells.wfFrom (d : Nat → Byte) (lim : Nat) : Nat → List Host.Cell → Bool
  | _, [] => true
  | lo, (k, v) :: m => decide (lo ≤ k) && decide (k < lim) && !decide (v = d k) && Cells.wfFrom d lim (k + 1) m

/-- The canonical form of a memory. -/
def Memory.wf (d : Nat → Byte) (lim : Nat) (m : List Host.Cell) : Bool := Cells.wfFrom d lim 0 m

/-- Add a number to a strictly rising list of numbers. -/
def Marks.add (a : Nat) : List Nat → List Nat
  | [] => [a]
  | k :: m => if a < k then a :: k :: m else if a = k then k :: m else k :: Marks.add a m

/-- Take a number out. -/
def Marks.drop (a : Nat) : List Nat → List Nat
  | [] => []
  | k :: m => if a = k then Marks.drop a m else k :: Marks.drop a m

/-- Numbers from `lo` on, strictly rising and below `lim`. -/
def Marks.wfFrom (lim : Nat) : Nat → List Nat → Bool
  | _, [] => true
  | lo, k :: m => decide (lo ≤ k) && decide (k < lim) && Marks.wfFrom lim (k + 1) m

/-- What an unlisted byte of the image reads as: 0, the blank image. DESIGN CHOICE, UNSAFE: assumption log 3. -/
def pixDefault (_ : Nat) : Byte := 0#8

/-- How many cells the image has: `640 * 496` pixels (R61) of three byte cells each. Three cells a pixel is the model's
layout. DESIGN CHOICE, safe: assumption log 17. -/
def pixLim : Nat := 3 * (Config.width * Config.height)

/-- The bytes of the program ROM: four for each of 2048 words (R60, R71). -/
def promLim : Nat := 4 * Config.promWords

end Sys2Proof.Machine
end

