-- ==== Sys2Proof/Syntax.lean ====
section
/-! DEFINITION. The seven operations (spec 30_encoding R84), one constructor per row of spec/opcode_table.json.
Every operand is an immediate of the width of its field (R82, R83). -/

namespace Sys2Proof

/-- The operations of rule R84. -/
inductive Instr where
  /-- `END`: return of "transmit image" (R164). -/
  | end_
  /-- `SETF hz`: `setFrequency(hz)` (R161). -/
  | setf (hz : BitVec 16)
  /-- `WAIT us`: `waitMicroseconds(n)` (R162). -/
  | wait (us : BitVec 28)
  /-- `STOP`: `stop()` (R163). -/
  | stop
  /-- `SCANY rowA`: transmit a Luminance segment for one row (R131). -/
  | scany (rowA : BitVec 12)
  /-- `SCANRY rowA, rowB`: transmit a RedDiff segment for a row pair (R132). -/
  | scanry (rowA rowB : BitVec 12)
  /-- `SCANBY rowA, rowB`: transmit a BlueDiff segment for a row pair (R133). -/
  | scanby (rowA rowB : BitVec 12)
  deriving DecidableEq, Repr

end Sys2Proof
end

