-- ==== Sys2Proof/WellFormed.lean ====
section
/-! DEFINITION. Which operations are legal: the value conditions of rule R85. The must-be-zero fields of R81 have
no place in `Instr`, so an operation of that type meets them by its form. -/

namespace Sys2Proof

/-- A row operand is legal below `H = 496` (R85). -/
def rowOk (row : BitVec 12) : Bool := decide (row.toNat < Config.height)

/-- Legality of an operation beyond its mask (R85): every `hz` and every `us` is legal, every row is below 496. -/
def Instr.wellFormed : Instr → Bool
  | .end_ => true
  | .setf _ => true
  | .wait _ => true
  | .stop => true
  | .scany rowA => rowOk rowA
  | .scanry rowA rowB => rowOk rowA && rowOk rowB
  | .scanby rowA rowB => rowOk rowA && rowOk rowB

end Sys2Proof
end

