-- ==== Sys2Proof/Decode.lean ====
section
/-! DEFINITION. The decoder of rule R89, total on all 32-bit words, and the encoder of rule R90, both written from
the formats of R81 and the opcode map of R84. -/

namespace Sys2Proof

/-- Why a word is no operation (R86, R87, R89). -/
inductive DecodeError where
  /-- `OPC` is 0x4 or 0x8 to 0xF (R86). -/
  | reservedOpcode
  /-- A must-be-zero bit is 1 (R87). -/
  | reservedField
  /-- A row operand is 496 or more (R85, R87). -/
  | rowOutOfRange
  deriving DecidableEq, Repr

/-- `OPC = w[31:28]` (R82). -/
def fieldOpc (w : OpWord) : BitVec 4 := w.extractLsb' 28 4

/-- Bits 27:0, the zero field of format Z (R81). -/
def fieldZ (w : OpWord) : BitVec 28 := w.extractLsb' 0 28

/-- Bits 27:16, the zero field of format F (R81). -/
def fieldZeroF (w : OpWord) : BitVec 12 := w.extractLsb' 16 12

/-- `HZ = w[15:0]` (R82). -/
def fieldHz (w : OpWord) : BitVec 16 := w.extractLsb' 0 16

/-- `US = w[27:0]` (R82). -/
def fieldUs (w : OpWord) : BitVec 28 := w.extractLsb' 0 28

/-- Bits 27:24, the zero field of format S (R81). -/
def fieldZeroS (w : OpWord) : BitVec 4 := w.extractLsb' 24 4

/-- `ROWB = w[23:12]` (R82). -/
def fieldRowB (w : OpWord) : BitVec 12 := w.extractLsb' 12 12

/-- `ROWA = w[11:0]` (R82). -/
def fieldRowA (w : OpWord) : BitVec 12 := w.extractLsb' 0 12

/-- Format S with two rows, after the opcode (R89, rows 0x6 and 0x7). -/
def decodePair (w : OpWord) (op : BitVec 12 → BitVec 12 → Instr) : Except DecodeError Instr :=
  if fieldZeroS w ≠ 0#4 then .error .reservedField
  else if rowOk (fieldRowA w) && rowOk (fieldRowB w) then .ok (op (fieldRowA w) (fieldRowB w))
  else .error .rowOutOfRange

/-- `SCANY`: bits 27:12 must be 0 (R89, row 0x5). -/
def decodeScany (w : OpWord) : Except DecodeError Instr :=
  if fieldZeroS w ≠ 0#4 ∨ fieldRowB w ≠ 0#12 then .error .reservedField
  else if rowOk (fieldRowA w) then .ok (.scany (fieldRowA w))
  else .error .rowOutOfRange

/-- The decoder (R89): a total function from a 32-bit word to an operation or a named refusal. -/
def decode (w : OpWord) : Except DecodeError Instr :=
  if fieldOpc w = 0x0#4 then (if fieldZ w = 0#28 then .ok .end_ else .error .reservedField)
  else if fieldOpc w = 0x1#4 then
    (if fieldZeroF w = 0#12 then .ok (.setf (fieldHz w)) else .error .reservedField)
  else if fieldOpc w = 0x2#4 then .ok (.wait (fieldUs w))
  else if fieldOpc w = 0x3#4 then (if fieldZ w = 0#28 then .ok .stop else .error .reservedField)
  else if fieldOpc w = 0x5#4 then decodeScany w
  else if fieldOpc w = 0x6#4 then decodePair w .scanry
  else if fieldOpc w = 0x7#4 then decodePair w .scanby
  else .error .reservedOpcode

/-- The opcode of an operation (R84). -/
def opcOf : Instr → BitVec 4
  | .end_ => 0x0#4
  | .setf _ => 0x1#4
  | .wait _ => 0x2#4
  | .stop => 0x3#4
  | .scany _ => 0x5#4
  | .scanry _ _ => 0x6#4
  | .scanby _ _ => 0x7#4

/-- Bits 27:0 of an operation's word, by its format (R81). -/
def operandBits : Instr → BitVec 28
  | .end_ => 0#28
  | .setf hz => 0#12 ++ hz
  | .wait us => us
  | .stop => 0#28
  | .scany rowA => 0#16 ++ rowA
  | .scanry rowA rowB => 0#4 ++ rowB ++ rowA
  | .scanby rowA rowB => 0#4 ++ rowB ++ rowA

/-- The encoder (R81, R90): the opcode in bits 31:28, the format's fields below it. -/
def encode (i : Instr) : OpWord := opcOf i ++ operandBits i

/-- What the decoder reads from a row of spec/opcode_table.json: the low `nbits` bits of `w`, every bit above them
0. All operations are one word moved whole (R65, R80), so no byte order enters. -/
def decodeTableWord (nbits w : Nat) : Option Instr :=
  match decode (BitVec.ofNat 32 (w % 2 ^ nbits)) with
  | .ok i => some i
  | .error _ => none

end Sys2Proof
end

