-- ==== Sys2Proof/Machine/Rom.lean ====
section
/-! DEFINITION. The pseudo-operations (30_encoding R92 to R97), the calibration header (43_calibration_header) and
the fixed contents of the program ROM (44_image_sequence R202). -/

namespace Sys2Proof.Machine

/-- Pseudo-operation `TONE hz, us` (R92). -/
def tone (hz : BitVec 16) (us : BitVec 28) : List Instr := [.setf hz, .wait us]

/-- The pulse of one bit of the header: 1100 Hz is 1, 1300 Hz is 0, 30 ms each (R184). -/
def bitPulse (b : Bool) : BitVec 16 × BitVec 28 :=
  (if b then Config.bit1Hz else Config.bit0Hz, Config.bitUs)

/-- Pseudo-operation `VISBIT b` (R93). -/
def visBit (b : Bool) : List Instr := tone (bitPulse b).1 (bitPulse b).2

/-- The parity bit: the exclusive-or of the seven data bits (R185, decision D18). -/
def visParity (v : BitVec 7) : Bool :=
  v.getLsbD 0 ^^ v.getLsbD 1 ^^ v.getLsbD 2 ^^ v.getLsbD 3 ^^ v.getLsbD 4 ^^ v.getLsbD 5 ^^ v.getLsbD 6

/-- `HeaderPulses(vis)` (R190): leader, break, leader, start bit, the data bits least significant first, parity,
stop bit. -/
def headerPulses (v : BitVec 7) : List (BitVec 16 × BitVec 28) :=
  [(Config.leaderHz, Config.leaderUs), (Config.breakHz, Config.breakUs), (Config.leaderHz, Config.leaderUs),
   (Config.breakHz, Config.bitUs)] ++
  [bitPulse (v.getLsbD 0), bitPulse (v.getLsbD 1), bitPulse (v.getLsbD 2), bitPulse (v.getLsbD 3),
   bitPulse (v.getLsbD 4), bitPulse (v.getLsbD 5), bitPulse (v.getLsbD 6)] ++
  [bitPulse (visParity v), (Config.breakHz, Config.bitUs)]

/-- Pseudo-operation `HEADER` (R94): the 13 pulses for VIS code 95, 26 words (R187). -/
def header : List Instr := (headerPulses Config.vis).flatMap fun p => tone p.1 p.2

/-- Pseudo-operation `SYNC` (R95). -/
def sync : List Instr := tone Config.syncHz Config.syncUs

/-- Pseudo-operation `PORCH` (R95). -/
def porch : List Instr := tone Config.porchHz Config.porchUs

/-- The first row of pair `p`, DOC00's "oddLine": `2p` (R196). -/
def firstRow (p : Nat) : BitVec 12 := BitVec.ofNat 12 (2 * p)

/-- The second row of pair `p`, DOC00's "evenLine": `2p + 1` (R196). -/
def secondRow (p : Nat) : BitVec 12 := BitVec.ofNat 12 (2 * p + 1)

/-- The four segments of pair `p`, in their order (R197, R199). -/
def pairScans (p : Nat) : List Instr :=
  [.scany (firstRow p), .scanry (firstRow p) (secondRow p), .scanby (firstRow p) (secondRow p), .scany (secondRow p)]

/-- Pseudo-operation `LINEPAIR p` (R96): 8 words. -/
def linePair (p : Nat) : List Instr := sync ++ porch ++ pairScans p

/-- Pseudo-operation `IMAGE` (R97): the 248 pairs, then `STOP` (R195, R200). -/
def image : List Instr := (List.range Config.numPairs).flatMap linePair ++ [.stop]

/-- Pseudo-operation `TXIMAGE` (R97): the whole program, 2012 words. -/
def txImage : List Instr := header ++ image ++ [.end_]

/-- The operation at a word address of the program ROM, as the table of R202 gives it. -/
def romInstr (a : Nat) : Instr :=
  if a < 26 then header.getD a .end_
  else if a < 2010 then (linePair ((a - 26) / 8)).getD ((a - 26) % 8) .end_
  else if a = 2010 then .stop
  else .end_

/-- The word at a word address of the program ROM (R202); 0 from 2012 on (R71). -/
def romWord (a : Nat) : OpWord := encode (romInstr a)

/-- The fixed ROM as bytes: byte `j` of word `a` is at `4 * a + j`, the lowest bits first. The order of the four
lanes is the model's and is visible to nothing (R65); assumption log 2. -/
def romByte (k : Nat) : Byte := (romWord (k / 4)).extractLsb' (8 * (k % 4)) 8

end Sys2Proof.Machine
end

