-- ==== Sys2Proof/Machine/State.lean ====
section
/-! DEFINITION. The state of the machine: the thirteen elements of 10_state R20, the ghosts of R12, what the engine
is connected to (image, program ROM, host), and two fields of the model's own. Plain data. -/

namespace Sys2Proof.Machine

/-- `SEQ_ST`, the state of the sequencer (R28). -/
inductive SeqSt where
  | idle
  | rdy
  | dlyw
  | segw
  deriving DecidableEq, Repr

/-- `SEG_KIND`, the active segment variant (R21). -/
inductive SegKind where
  | none
  | luma
  | rdiff
  | bdiff
  deriving DecidableEq, Repr

/-- An event of the tone trace (R12, R218). -/
inductive Event where
  | setFreq (t : Nat) (hz : BitVec 16)
  | stop (t : Nat)
  deriving DecidableEq, Repr

/-- A move of the host (R253): a write or a read of a CSR, a write of one pixel of the image, a level of `rst`. -/
inductive HostOp where
  | csrWrite (reg : BitVec 3) (value : BitVec 32)
  | csrRead (reg : BitVec 3)
  | pixWrite (xc yc : Nat) (p : Pixel)
  | rst (level : Bool)
  deriving DecidableEq, Repr

/-- A pending move of the host: `after` is the number of the machine's own steps that come before it. -/
structure HostMove where
  after : Nat
  op : HostOp
  deriving DecidableEq, Repr

/-- The machine's state. -/
structure State where
  /-- `SEQ_ST` (R28). -/
  seqSt : SeqSt
  /-- `SEQ_PC` (R29). -/
  seqPc : BitVec 11
  /-- `DLY`, the delay counter (R27, R246). -/
  dly : BitVec 28
  /-- `SEG_KIND` (R21). -/
  segKind : SegKind
  /-- `ROW_A` (R22). -/
  rowA : BitVec 12
  /-- `ROW_B` (R22). -/
  rowB : BitVec 12
  /-- `PIX_IDX` (R23). -/
  pixIdx : BitVec 10
  /-- `DONE`, the completion flag (R24). -/
  done : Bool
  /-- `ARMED` (R26). -/
  armed : Bool
  /-- `PIXT`, the pixel timer (R26, R245). -/
  pixt : BitVec 8
  /-- `TONE_EN` (R31). -/
  toneEn : Bool
  /-- `TONE_FREQ`, in hertz (R31). -/
  toneFreq : BitVec 16
  /-- `NCO_PHASE` (R220). -/
  ncoPhase : BitVec 32
  /-- Ghost `T`: microseconds since the last START (R12, R32). -/
  time : Nat
  /-- Ghost `TRACE`, in order of occurrence (R12, R218). -/
  trace : List Event
  /-- The image (R61), by the pixel numbers of R68. One byte cell a component, `R`, `G`, `B` of pixel number `n` at
  `3 * n`, `3 * n + 1`, `3 * n + 2`: R68 and R65 leave the layout open. DESIGN CHOICE, safe: assumption log 17. -/
  pix : List Host.Cell
  /-- Pixel numbers the host wrote during a transmission (R64, U4). -/
  pixDirty : List Nat
  /-- The width the pixel source offers (R61). -/
  srcW : Nat
  /-- The height the pixel source offers (R61). -/
  srcH : Nat
  /-- Where the program ROM differs from the fixed contents of R202: byte `j` of word `a` at `4 * a + j`. DESIGN
  CHOICE, safe: assumption log 2. -/
  prom : List Host.Cell
  /-- The level of the reset input (R260). -/
  rst : Bool
  /-- The host's pending moves, in order (R253). -/
  hostq : List HostMove
  /-- What the host's reads returned, oldest first (R34, R72). -/
  hostSeen : List (BitVec 3 × BitVec 32)
  /-- The model's own: remainder of the division of time into NCO updates. -/
  ncoFrac : Nat
  /-- The model's own: how many free values have been drawn. -/
  freeCtr : Nat
  deriving DecidableEq, Repr

/-- Why a step stops with a fault. Only states that no run reaches raise one (assumption log 11). -/
inductive Fault where
  /-- Raised by a pixel read at a coordinate outside 640 by 496, an address R61 says does not exist (R66), and by
  a move of the host that writes such a pixel. SAFE. -/
  | pixelOutOfRange
  /-- Raised by a fire while `SEG_KIND` is NONE, for which R128 gives no frequency. SAFE. -/
  | noSegment
  deriving DecidableEq, Repr

/-- Why a step refuses: the spec gives the situation no meaning. -/
inductive Refusal where
  /-- An instruction whose meaning is not written; raised by `exec`'s refused arms, of which there are none. SAFE. -/
  | notModelled (mnemonic : String)
  /-- Raised by `Exec` on a word whose opcode is reserved (R86, R89, U8). SAFE. -/
  | reservedOpcode
  /-- Raised by `Exec` on a word with a must-be-zero bit set (R87, R89, U8). SAFE. -/
  | reservedField
  /-- Raised by `Exec` on a word with a row of 496 or more (R85, R87, U8), and by a scan operation that is not
  well formed. SAFE. -/
  | rowOutOfRange
  /-- Raised by START when the pixel source is smaller than 640 by 496 (R66, R234, U1), and by a read outside such
  a source. SAFE. -/
  | geometryMismatch
  deriving DecidableEq, Repr

/-- The machine right after reset and power-on (R260, R261): all thirteen elements 0; nothing listed in the image
and the ROM; the ghosts and the host's side as assumption log 6, 7, 9, 10 and 13 name them. -/
def State.reset : State where
  seqSt := .idle
  seqPc := 0#11
  dly := 0#28
  segKind := .none
  rowA := 0#12
  rowB := 0#12
  pixIdx := 0#10
  done := false
  armed := false
  pixt := 0#8
  toneEn := false
  toneFreq := 0#16
  ncoPhase := 0#32
  time := 0
  trace := []
  pix := []
  pixDirty := []
  srcW := 640
  srcH := 496
  prom := []
  rst := false
  hostq := []
  hostSeen := []
  ncoFrac := 0
  freeCtr := 0

end Sys2Proof.Machine
end

