-- ==== Sys2Proof/Machine/Operands.lean ====
section
/-! DEFINITION. Operand forms and codes: what a scan operation's operands stand for (30_encoding R82, R83, R98) and
the bit codes of the named values of the state (10_state R21, R28). -/

namespace Sys2Proof.Machine

/-- The code of `SEQ_ST` (R28). -/
def seqCode : SeqSt → BitVec 2
  | .idle => 0#2
  | .rdy => 1#2
  | .dlyw => 2#2
  | .segw => 3#2

/-- The code of `SEG_KIND` (R21). -/
def kindCode : SegKind → BitVec 2
  | .none => 0#2
  | .luma => 1#2
  | .rdiff => 2#2
  | .bdiff => 3#2

/-- Segment kind, `ROW_A` and `ROW_B` of a scan operation: `SCANY` writes `ROW_B` with 0 (R98, R131 to R133). -/
def scanOf : Instr → Option (SegKind × BitVec 12 × BitVec 12)
  | .scany rowA => some (.luma, rowA, 0#12)
  | .scanry rowA rowB => some (.rdiff, rowA, rowB)
  | .scanby rowA rowB => some (.bdiff, rowA, rowB)
  | .end_ => none
  | .setf _ => none
  | .wait _ => none
  | .stop => none

/-- The number of a pixel: row-major, row 0 first (R68). -/
def pixNum (xc yc : Nat) : Nat := yc * Config.width + xc

/-- A coordinate of the address space `PIX` (R61, R66). -/
def inImage (xc yc : Nat) : Bool := decide (xc < Config.width) && decide (yc < Config.height)

end Sys2Proof.Machine
end

