-- ==== Sys2Proof/Machine/Flags.lean ====
section
/-! DEFINITION. The one flag of the engine, `DONE` (10_state R24): there are no condition codes. Its two writes, and
the derived conditions of the step table (R28 `RUN`, R38, R237). -/

namespace Sys2Proof.Machine

/-- `DONE <- 0`, at the issue of a scan operation (R24, R134). -/
def State.clearDone (s : State) : State := { s with done := false }

/-- `DONE <- 1`, in the callback in which `PIX_IDX` reaches `W` (R24, R136). -/
def State.setDone (s : State) : State := { s with done := true }

/-- `RUN`: `SEQ_ST != 0` (R28). -/
def State.run (s : State) : Bool := !decide (s.seqSt = .idle)

/-- `Exec` is enabled (R38). -/
def State.execEnabled (s : State) : Bool := decide (s.seqSt = .rdy)

/-- `WaitEnd` is enabled (R38). -/
def State.waitEndEnabled (s : State) : Bool := decide (s.seqSt = .dlyw) && decide (s.dly = 0#28)

/-- `SegEnd` is enabled (R38). -/
def State.segEndEnabled (s : State) : Bool := decide (s.seqSt = .segw) && s.done

/-- `Fire` is enabled: the pending condition of the pixel timer (R38, R237). -/
def State.fireEnabled (s : State) : Bool := s.armed && decide (s.pixt = 0#8)

/-- A zero-time step of the sequencer or the scan scheduler is enabled, so time may not pass (R46). -/
def State.zeroTimeEnabled (s : State) : Bool :=
  s.execEnabled || s.waitEndEnabled || s.segEndEnabled || s.fireEnabled

end Sys2Proof.Machine
end

