-- ==== Sys2Proof/Machine/Ops.lean ====
section
/-! DEFINITION. The named operations over registers and memories, one for each primitive of the spec's pseudocode
(00_scope R11), and the zero-time steps and the tick of the step table (10_state R38). Taking the one interrupt of the
block, the pixel timer's, is `fire` (60_exceptions R236 to R241): it saves nothing, changes no mode, and has no
return operation (R239, R240). -/

namespace Sys2Proof.Machine

/-- Outcomes of an operation that can stop. -/
abbrev Out (α : Type) := Host.Outcome α Fault Refusal

/-- Go on with the value of an operation that did not stop. -/
def andThen {α β : Type} (o : Out α) (f : α → Out β) : Out β :=
  match o with
  | .next a => f a
  | .fault r => .fault r
  | .refused r => .refused r

/-! ### The program ROM -/

/-- One byte of the program ROM. -/
def State.promByte (s : State) (k : Nat) : Byte := Cells.read romByte s.prom k

/-- `PROM[a]`, a whole word (R71). -/
def State.promWord (s : State) (a : Nat) : OpWord :=
  s.promByte (4 * a + 3) ++ s.promByte (4 * a + 2) ++ s.promByte (4 * a + 1) ++ s.promByte (4 * a)

/-- `PROM[SEQ_PC]`, the fetch of an `Exec` step (R38, R80). -/
def State.fetch (s : State) : OpWord := s.promWord s.seqPc.toNat

/-- A ROM with one byte different. No step does this (R78): it stands for making the part with another program. -/
def promWrite (m : List Host.Cell) (k : Nat) (v : Byte) : List Host.Cell := Cells.write romByte m k v

/-- A ROM with one word different. -/
def promPut (m : List Host.Cell) (a : Nat) (w : OpWord) : List Host.Cell :=
  promWrite (promWrite (promWrite (promWrite m (4 * a) (w.extractLsb' 0 8)) (4 * a + 1) (w.extractLsb' 8 8))
    (4 * a + 2) (w.extractLsb' 16 8)) (4 * a + 3) (w.extractLsb' 24 8)

/-! ### The image -/

/-- One component cell of the image, in the model's layout (assumption log 17). -/
def State.pixByte (s : State) (k : Nat) : Byte := Cells.read pixDefault s.pix k

/-- The pixel of the image at a coordinate: the pixel number is that of R68. How many cells a pixel takes and the order
`R`, `G`, `B` of its components are the model's. DESIGN CHOICE, safe: assumption log 17. -/
def State.pixel (s : State) (xc yc : Nat) : Pixel where
  r := s.pixByte (3 * pixNum xc yc)
  g := s.pixByte (3 * pixNum xc yc + 1)
  b := s.pixByte (3 * pixNum xc yc + 2)

/-- The image with one pixel written, in the layout `State.pixel` reads (assumption log 17). -/
def pixPut (m : List Host.Cell) (n : Nat) (p : Pixel) : List Host.Cell :=
  Cells.write pixDefault (Cells.write pixDefault (Cells.write pixDefault m (3 * n) p.r) (3 * n + 1) p.g)
    (3 * n + 2) p.b

/-- The source covers 640 by 496 (R66, R234). -/
def State.sourceOk (s : State) : Bool := decide (Config.width ≤ s.srcW) && decide (Config.height ≤ s.srcH)

/-- `PixRead(xc, yc)` (R62, R66): the pixel and the state after the read, which differs only in the count of free
values, and only if the host wrote the pixel during a transmission (R64, U4: any triple). -/
def pixRead (s : State) (xc yc : Nat) : Out (Pixel × State) :=
  if inImage xc yc then
    if xc < s.srcW ∧ yc < s.srcH then
      if pixNum xc yc ∈ s.pixDirty then
        .next (Config.freePixel s.freeCtr, { s with freeCtr := s.freeCtr + 1 })
      else .next (s.pixel xc yc, s)
    else .refused .geometryMismatch
  else .fault .pixelOutOfRange

/-! ### The frequency of a pixel -/

/-- The frequency of one pixel, or of one column of two rows, by segment kind (R128). -/
def kindFreq (k : SegKind) (p q : Pixel) : BitVec 16 :=
  match k with
  | .none => 0#16
  | .luma => BitVec.ofNat 16 (lumFreq p)
  | .rdiff => BitVec.ofInt 16 (diffFreq (ryn p + ryn q))
  | .bdiff => BitVec.ofInt 16 (diffFreq (byn p + byn q))

/-- `PixelFreq(kind, xc, rowA, rowB)` as a function of the image (R128). -/
def State.imageFreq (s : State) (k : SegKind) (xc : Nat) (rowA rowB : BitVec 12) : BitVec 16 :=
  kindFreq k (s.pixel xc rowA.toNat) (s.pixel xc rowB.toNat)

/-- What a callback computes before it drives the tone: the reads, row A then row B, and the frequency
(R67, R137 to R139). -/
def callbackFreq (s : State) : Out (BitVec 16 × State) :=
  match s.segKind with
  | .none => .fault .noSegment
  | .luma =>
    andThen (pixRead s s.pixIdx.toNat s.rowA.toNat) fun r => .next (kindFreq .luma r.1 r.1, r.2)
  | .rdiff =>
    andThen (pixRead s s.pixIdx.toNat s.rowA.toNat) fun r =>
      andThen (pixRead r.2 s.pixIdx.toNat s.rowB.toNat) fun q => .next (kindFreq .rdiff r.1 q.1, q.2)
  | .bdiff =>
    andThen (pixRead s s.pixIdx.toNat s.rowA.toNat) fun r =>
      andThen (pixRead r.2 s.pixIdx.toNat s.rowB.toNat) fun q => .next (kindFreq .bdiff r.1 q.1, q.2)

/-! ### The tone registers -/

/-- `emit e` (R11). -/
def State.emit (s : State) (e : Event) : State := { s with trace := s.trace ++ [e] }

/-- `setFrequency(hz)` (R31, R215), with its event. -/
def State.setTone (s : State) (hz : BitVec 16) : State :=
  { s.emit (.setFreq s.time hz) with toneEn := true, toneFreq := hz }

/-- `stop()` (R31, R215), with its event. It clears the phase of the synthesizer (R223), so that the end state of a
transmission has `NCO_PHASE` = 0 at its own `T` (R209) and a tone at the same `T` starts at phase 0. -/
def State.stopTone (s : State) : State :=
  { s.emit (.stop s.time) with toneEn := false, toneFreq := 0#16, ncoPhase := 0#32 }

/-! ### The sequencer -/

/-- `pc <- pc + 1` (R11, R29). At 2047 the 11 bits do not hold the sum and the spec states no result: a free
value (assumption log 10). -/
def State.advancePc (s : State) : State :=
  if s.seqPc = 2047#11 then { s with seqPc := Config.freePc s.freeCtr, freeCtr := s.freeCtr + 1 }
  else { s with seqPc := s.seqPc + 1#11 }

/-- `SEQ_ST <- v`. -/
def State.goto (s : State) (v : SeqSt) : State := { s with seqSt := v }

/-- `WaitEnd` (R38, R162). -/
def State.waitEnd (s : State) : State := (s.goto .rdy).advancePc

/-- `SegEnd` (R38, R143). -/
def State.segEnd (s : State) : State := (s.goto .rdy).advancePc

/-- `arm`: `ARMED <- 1; PIXT <- PIXDUR` (R26). -/
def State.arm (s : State) : State := { s with armed := true, pixt := Config.pixDur }

/-- `disarm`: `ARMED <- 0` (R26). -/
def State.disarm (s : State) : State := { s with armed := false }

/-- Write the segment variant and its rows, and reset the index (R134, steps 1 and 2). -/
def State.setSegment (s : State) (k : SegKind) (rowA rowB : BitVec 12) : State :=
  { s with segKind := k, rowA := rowA, rowB := rowB, pixIdx := 0#10 }

/-- `IssueScan(kind, rowA, rowB)` (R134). -/
def State.issueScan (s : State) (k : SegKind) (rowA rowB : BitVec 12) : State :=
  ((s.setSegment k rowA rowB).clearDone.arm).goto .segw

/-! ### The scan scheduler -/

/-- Increment the index; at the width disarm and set the completion flag, else reload the timer (R136, R141). -/
def State.bumpIndex (s : State) : State :=
  if s.pixIdx + 1#10 = 640#10 then { s with pixIdx := s.pixIdx + 1#10 }.disarm.setDone
  else { s with pixIdx := s.pixIdx + 1#10, pixt := Config.pixDur }

/-- `Fire`, the callback (R136): taking the pixel timer's interrupt. -/
def fire (s : State) : Out State :=
  andThen (callbackFreq s) fun r => .next (r.2.setTone r.1).bumpIndex

/-! ### Time -/

/-- `Tick` (R46): one microsecond for the engine. -/
def State.tick (s : State) : State :=
  { s with
    time := s.time + 1
    dly := if s.seqSt = .dlyw then s.dly - 1#28 else s.dly
    pixt := if s.armed then s.pixt - 1#8 else s.pixt }

/-! ### Start and reset -/

/-- `Start` from IDLE (R35, R165): refused when the pixel source is too small (R66, R234). -/
def start (s : State) : Out State :=
  if s.sourceOk then .next { s with seqSt := .rdy, seqPc := 0#11, time := 0, trace := [] }
  else .refused .geometryMismatch

/-- `Reset`: all thirteen elements to 0 (R260, R261); no event, no ghost changes (R262). -/
def State.resetRegs (s : State) : State :=
  { s with
    seqSt := .idle, seqPc := 0#11, dly := 0#28, segKind := .none, rowA := 0#12, rowB := 0#12, pixIdx := 0#10
    done := false, armed := false, pixt := 0#8, toneEn := false, toneFreq := 0#16, ncoPhase := 0#32 }

end Sys2Proof.Machine
end

