-- ==== Sys2Proof/Machine/Scan.lean ====
section
/-! DEFINITION. The meanings of `SCANY`, `SCANRY` and `SCANBY`: their issue (41_scan_ops R130 to R134). The callbacks
are `fire`, the completion is `segEnd`. A row of 496 or more cannot reach issue (R149): it is refused here as the
decoder refuses it (R85, R87). -/

namespace Sys2Proof.Machine

/-- `SCANY rowA` (R131). -/
def execScany (rowA : BitVec 12) (s : State) : Out State :=
  if rowOk rowA then .next (s.issueScan .luma rowA 0#12) else .refused .rowOutOfRange

/-- `SCANRY rowA, rowB` (R132). -/
def execScanry (rowA rowB : BitVec 12) (s : State) : Out State :=
  if rowOk rowA && rowOk rowB then .next (s.issueScan .rdiff rowA rowB) else .refused .rowOutOfRange

/-- `SCANBY rowA, rowB` (R133). -/
def execScanby (rowA rowB : BitVec 12) (s : State) : Out State :=
  if rowOk rowA && rowOk rowB then .next (s.issueScan .bdiff rowA rowB) else .refused .rowOutOfRange

end Sys2Proof.Machine
end

