-- ==== Sys2Proof/Machine/ToneDelay.lean ====
section
/-! DEFINITION. The meanings of `SETF`, `WAIT`, `STOP` and `END` (42_tone_and_delay_ops). -/

namespace Sys2Proof.Machine

/-- `SETF hz` (R161). -/
def execSetf (hz : BitVec 16) (s : State) : Out State := .next (s.setTone hz).advancePc

/-- `WAIT us`, its issue (R162); the wait itself is `tick` and `waitEnd`. -/
def execWait (us : BitVec 28) (s : State) : Out State := .next ({ s with dly := us }.goto .dlyw)

/-- `STOP` (R163). -/
def execStop (s : State) : Out State := .next s.stopTone.advancePc

/-- `END` (R164): only `SEQ_ST` changes. -/
def execEnd (s : State) : Out State := .next (s.goto .idle)

end Sys2Proof.Machine
end

