-- ==== Sys2Proof/Machine/Dispatch.lean ====
section
/-! DEFINITION. One arm per operation (30_encoding R84), each one call of its meaning. -/

namespace Sys2Proof.Machine

def exec (i : Instr) (s : State) : Host.Outcome State Fault Refusal :=
  match i with
  | .end_ => Sys2Proof.Machine.execEnd s
  | .setf hz => Sys2Proof.Machine.execSetf hz s
  | .wait us => Sys2Proof.Machine.execWait us s
  | .stop => Sys2Proof.Machine.execStop s
  | .scany rowA => Sys2Proof.Machine.execScany rowA s
  | .scanry rowA rowB => Sys2Proof.Machine.execScanry rowA rowB s
  | .scanby rowA rowB => Sys2Proof.Machine.execScanby rowA rowB s

end Sys2Proof.Machine
end

