-- ==== Sys2Proof/Machine/Csr.lean ====
section
/-! DEFINITION. The control and status view (10_state R34): eight 32-bit registers, a function of the state. -/

namespace Sys2Proof.Machine

/-- One bit. -/
def bit (b : Bool) : BitVec 1 := if b then 1#1 else 0#1

/-- `STATUS`: `SEQ_ST`, `SEG_KIND`, `TONE_EN`, `DONE`, `ARMED`, `RUN` from bit 7 down (R34). -/
def State.status (s : State) : BitVec 32 :=
  0#24 ++ seqCode s.seqSt ++ kindCode s.segKind ++ bit s.toneEn ++ bit s.done ++ bit s.armed ++ bit s.run

/-- What a read of a CSR returns, the port `csr_rdata` (R34, R37). -/
def State.csrValue (s : State) (reg : BitVec 3) : BitVec 32 :=
  if reg = 1#3 then s.status
  else if reg = 2#3 then 0#21 ++ s.seqPc
  else if reg = 3#3 then 0#8 ++ s.rowB ++ s.rowA
  else if reg = 4#3 then 0#22 ++ s.pixIdx
  else if reg = 5#3 then 0#16 ++ s.toneFreq
  else if reg = 6#3 then 0#4 ++ s.dly
  else 0#32

end Sys2Proof.Machine
end

