-- ==== Sys2Proof/Machine/HostPort.lean ====
section
/-! DEFINITION. What the host does to the block (60_exceptions R253): CSR writes and reads (10_state R34, R35), image
writes (20_memory R64), the reset input (70_reset_and_hazards R260). -/

namespace Sys2Proof.Machine

/-- A write of a CSR: bit 0 of `CTRL` in IDLE is START; everything else is ignored (R34, R35, R270). While reset is
asserted the block holds its reset state, so START is ignored too (R260). -/
def csrWrite (s : State) (reg : BitVec 3) (v : BitVec 32) : Out State :=
  if reg = 0#3 ∧ v.getLsbD 0 = true ∧ s.seqSt = .idle ∧ s.rst = false then start s else .next s

/-- A read of a CSR: the host gets the value, the block does not change (R72). -/
def State.csrRead (s : State) (reg : BitVec 3) : State :=
  { s with hostSeen := s.hostSeen ++ [(reg, s.csrValue reg)] }

/-- A write of one pixel by the host: in IDLE it is written; during a transmission the pixel is unspecified from
then on, until it is written in IDLE again (R64, U4). -/
def pixWrite (s : State) (xc yc : Nat) (p : Pixel) : Out State :=
  if inImage xc yc then
    if s.seqSt = .idle then
      .next { s with pix := pixPut s.pix (pixNum xc yc) p, pixDirty := Marks.drop (pixNum xc yc) s.pixDirty }
    else .next { s with pixDirty := Marks.add (pixNum xc yc) s.pixDirty }
  else .fault .pixelOutOfRange

/-- A level of the input `rst` (R260): asserting it resets. -/
def State.setRst (s : State) (level : Bool) : State :=
  if level then { s.resetRegs with rst := true } else { s with rst := false }

/-- One move of the host (R253). -/
def hostAct (op : HostOp) (s : State) : Out State :=
  match op with
  | .csrWrite reg v => csrWrite s reg v
  | .csrRead reg => .next (s.csrRead reg)
  | .pixWrite xc yc p => pixWrite s xc yc p
  | .rst level => .next (s.setRst level)

/-- A CSR read that coincides with a zero-time step waits for it (R72); every other move is taken at once. -/
def hostReady (s : State) (op : HostOp) : Bool :=
  match op with
  | .csrRead _ => s.rst || !s.zeroTimeEnabled
  | .csrWrite _ _ => true
  | .pixWrite _ _ _ => true
  | .rst _ => true

/-- The host's move that is taken now, if there is one. -/
def hostDue (s : State) : Option HostOp :=
  match s.hostq with
  | [] => none
  | m :: _ => if m.after = 0 ∧ hostReady s m.op = true then some m.op else none

/-- The state without the host's first pending move. -/
def State.hostPop (s : State) : State := { s with hostq := s.hostq.tail }

/-- One of the machine's own steps has gone by for the host's first pending move. -/
def hostCount : List HostMove → List HostMove
  | [] => []
  | m :: q => { m with after := m.after - 1 } :: q

/-- A machine's own step, as the host's pending moves see it. -/
def State.hostWait (s : State) : State := { s with hostq := hostCount s.hostq }

end Sys2Proof.Machine
end

