-- ==== Sys2Proof/Machine/Nco.lean ====
section
/-! DEFINITION. The synthesizer (45_tone_generator R220 to R223): a phase accumulator with `F_NCO` and `DUTY_THR` as
arguments (R225), and how many of its updates fall into a microsecond. It takes no part in any other rule (R224). -/

namespace Sys2Proof.Machine

/-- The tuning word: `(TONE_FREQ * 2^32) div F_NCO` (R221). -/
def tuningWord (rate : Nat) (hz : BitVec 16) : Nat := hz.toNat * 2 ^ 32 / rate

/-- One update of the phase (R220). -/
def nextPhase (rate : Nat) (en : Bool) (hz : BitVec 16) (ph : BitVec 32) : BitVec 32 :=
  if en then BitVec.ofNat 32 (ph.toNat + tuningWord rate hz) else 0#32

/-- `n` updates of the phase. -/
def phaseAfter (rate : Nat) (en : Bool) (hz : BitVec 16) : Nat → BitVec 32 → BitVec 32
  | 0, ph => ph
  | n + 1, ph => phaseAfter rate en hz n (nextPhase rate en hz ph)

/-- How many updates fall into the next microsecond, `frac` being what the earlier ones left over. -/
def updatesIn (rate frac : Nat) : Nat := (frac + rate) / Config.usPerSecond

/-- The NCO's updates of one microsecond: `F_NCO` of them in every second, evenly (assumption log 9). -/
def State.ncoRun (s : State) : State :=
  { s with
    ncoPhase := phaseAfter Config.fNco s.toneEn s.toneFreq (updatesIn Config.fNco s.ncoFrac) s.ncoPhase
    ncoFrac := (s.ncoFrac + Config.fNco) % Config.usPerSecond }

/-- One microsecond of the block: the engine's tick, then the updates the free-running NCO made in it. -/
def State.passTime (s : State) : State := s.tick.ncoRun

/-- `audio_out` for a given threshold (R222). -/
def audioLevel (thr : Nat) (en : Bool) (ph : BitVec 32) : Bool := en && decide (ph.toNat < thr)

/-- The port `audio_out` (R37, R222). -/
def State.audioOut (s : State) : Bool := audioLevel Config.dutyThr s.toneEn s.ncoPhase

/-- A state seen without the NCO (R225: nothing else reads it). -/
def State.dropNco (s : State) : State := { s with ncoPhase := 0#32, ncoFrac := 0 }

end Sys2Proof.Machine
end

