-- ==== Sys2Proof/Machine/Sched.lean ====
section
/-! DEFINITION. Which step the machine takes (10_state R38, R46, R47): every zero-time step before the tick. In the
states of R48 at most one is enabled; the order among them matters in no state a run reaches (R238, assumption
log 11). -/

namespace Sys2Proof.Machine

/-- The machine's own steps (R38), and being held in reset (R260). -/
inductive StepKind where
  | held
  | fire
  | waitEnd
  | segEnd
  | exec
  | tick
  deriving DecidableEq, Repr

/-- The step the machine takes when the host does nothing. -/
def State.choose (s : State) : StepKind :=
  if s.rst then .held
  else if s.fireEnabled then .fire
  else if s.waitEndEnabled then .waitEnd
  else if s.segEndEnabled then .segEnd
  else if s.execEnabled then .exec
  else .tick

/-- What `Exec` answers on a word that is no operation (R86, R87, U8). -/
def refusalOf : DecodeError → Refusal
  | .reservedOpcode => .reservedOpcode
  | .reservedField => .reservedField
  | .rowOutOfRange => .rowOutOfRange

end Sys2Proof.Machine
end

