-- ==== Sys2Proof/Machine/Run.lean ====
section
/-! DEFINITION. The `Exec` step and the machine's own step (10_state R38): what `Step.lean` calls. -/

namespace Sys2Proof.Machine

/-- `Exec` (R38): fetch, decode, issue. -/
def fetchExec (s : State) : Out State :=
  match decode s.fetch with
  | .ok i => exec i s
  | .error e => .refused (refusalOf e)

/-- The machine's own step. Held in reset, the block keeps its reset values while time passes (R260). -/
def ownStep (s : State) : Out State :=
  match s.choose with
  | .held => .next s.resetRegs.passTime
  | .fire => fire s
  | .waitEnd => .next s.waitEnd
  | .segEnd => .next s.segEnd
  | .exec => fetchExec s
  | .tick => .next s.passTime

/-- The program ROM and the sequencer set so that the next step fetches and runs `w`. -/
def State.loaded (s : State) (w : OpWord) : State :=
  { s with prom := promPut s.prom s.seqPc.toNat w, seqSt := .rdy, armed := false, rst := false, hostq := [] }

end Sys2Proof.Machine
end

