-- ==== Sys2Proof/Machine/Step.lean ====
section
/-! DEFINITION. One step of the machine (10_state R38): a move of the host that is due, or else the one enabled step
of the machine itself. -/

namespace Sys2Proof.Machine

/-- One step: reset and the host's other moves first (R238, R260), then the machine's own. -/
def step (s : State) : Host.Outcome State Fault Refusal :=
  match hostDue s with
  | some op => hostAct op s.hostPop
  | none => ownStep s.hostWait

/-- The state in which the next step fetches the word `w` and runs it: the word stands in the program ROM at
`SEQ_PC`, the sequencer is RDY, the pixel timer is not armed, reset is released and the host has no pending move.
How a program comes to run from reset is assumption log 14. -/
def State.withFetchWord (s : State) (nbits w : Nat) : State := s.loaded (BitVec.ofNat 32 (w % 2 ^ nbits))

end Sys2Proof.Machine
end

