-- ==== Sys2Proof/Machine/Timeline.lean ====
section
/-! DEFINITION. The events of a whole transmission and their times (44_image_sequence R204 to R206,
43_calibration_header R187), as a function of the image, and its pixel reads (20_memory R70). -/

namespace Sys2Proof.Machine

/-- The events of timed pulses that start at `t` (R166, R180). -/
def pulseEvents (t : Nat) : List (BitVec 16 × BitVec 28) → List Event
  | [] => []
  | (hz, us) :: ps => .setFreq t hz :: pulseEvents (t + us.toNat) ps

/-- The 640 events of a segment issued at `t` (R135, R144). -/
def State.segmentEvents (s : State) (t : Nat) (k : SegKind) (rowA rowB : BitVec 12) : List Event :=
  (List.range Config.width).map fun j => .setFreq (t + 190 * (j + 1)) (s.imageFreq k j rowA rowB)

/-- `TP(p)`: when pair `p` starts (R205). -/
def pairStart (p : Nat) : Nat := 910000 + 508480 * p

/-- The events of a pair that starts at `t` (R197, R205). -/
def State.pairEvents (s : State) (t p : Nat) : List Event :=
  [.setFreq t Config.syncHz, .setFreq (t + 20000) Config.porchHz] ++
  s.segmentEvents (t + 22080) .luma (firstRow p) 0#12 ++
  s.segmentEvents (t + 143680) .rdiff (firstRow p) (secondRow p) ++
  s.segmentEvents (t + 265280) .bdiff (firstRow p) (secondRow p) ++
  s.segmentEvents (t + 386880) .luma (secondRow p) 0#12

/-- The pixel reads of a callback, in their order (R67, R137 to R139): row A, then row B where there are two rows. -/
def readCoords (k : SegKind) (xc : Nat) (rowA rowB : BitVec 12) : List (Nat × Nat) :=
  match k with
  | .none => []
  | .luma => [(xc, rowA.toNat)]
  | .rdiff => [(xc, rowA.toNat), (xc, rowB.toNat)]
  | .bdiff => [(xc, rowA.toNat), (xc, rowB.toNat)]

/-- Pixel reads at a list of coordinates, in order: the pixels and the state after (R62, R67). -/
def pixReads : List (Nat × Nat) → State → Out (List Pixel × State)
  | [], s => .next ([], s)
  | c :: cs, s =>
    andThen (pixRead s c.1 c.2) fun r => andThen (pixReads cs r.2) fun q => .next (r.1 :: q.1, q.2)

/-- The pixel reads of an operation (R70): none but a scan operation's 640 callbacks read. -/
def opReads (i : Instr) : List (Nat × Nat) :=
  match scanOf i with
  | none => []
  | some (k, a, b) => (List.range Config.width).flatMap fun xc => readCoords k xc a b

/-- When a transmission ends (R204). -/
def transmissionUs : Nat := 127013040

/-- The trace of a whole transmission (R205). -/
def State.transmissionEvents (s : State) : List Event :=
  pulseEvents 0 (headerPulses Config.vis) ++
  (List.range Config.numPairs).flatMap (fun p => s.pairEvents (pairStart p) p) ++
  [.stop transmissionUs]

end Sys2Proof.Machine
end

