-- ==== Sys2Proof/Machine/Trace.lean ====
section
/-! DEFINITION. The observation (45_tone_generator R218, R219): the frequency sequence of a trace, its run-length
form, and when two traces have the same waveform. -/

namespace Sys2Proof.Machine

/-- The time of an event. -/
def Event.at : Event → Nat
  | .setFreq t _ => t
  | .stop t => t

/-- What sounds from an event on: a frequency, or `none` for silence (R219). -/
def Event.level : Event → Option (BitVec 16)
  | .setFreq _ hz => some hz
  | .stop _ => none

/-- The frequency sequence of DOC00 §8: the levels before any dropping or merging (R219). -/
def freqSequence (tr : List Event) : List (Option (BitVec 16)) := tr.map Event.level

/-- The run-length form of a trace ending at `tEnd` (R219): what sounds, and for how long. -/
def runLength (tEnd : Nat) : List Event → List (Option (BitVec 16) × Nat)
  | [] => []
  | [e] => [(e.level, tEnd - e.at)]
  | e :: f :: tr => (e.level, f.at - e.at) :: runLength tEnd (f :: tr)

/-- Merge neighbours of equal level (R219). -/
def mergeRuns : List (Option (BitVec 16) × Nat) → List (Option (BitVec 16) × Nat)
  | [] => []
  | (v, n) :: rest =>
    match mergeRuns rest with
    | [] => [(v, n)]
    | (u, m) :: rest' => if v = u then (v, n + m) :: rest' else (v, n) :: (u, m) :: rest'

/-- The waveform of a trace: pairs of duration 0 dropped, then neighbours of equal level merged (R219). -/
def waveform (tEnd : Nat) (tr : List Event) : List (Option (BitVec 16) × Nat) :=
  mergeRuns ((runLength tEnd tr).filter fun p => !decide (p.2 = 0))

end Sys2Proof.Machine
end

