-- ==== Sys2Proof/Safety.lean ====
section
/-! DEFINITION. The terms claims are stated in: runs of many steps, the conditions under which a transmission runs
undisturbed, and the invariants of 10_state R48. -/

namespace Sys2Proof.Machine

/-- `n` steps, stopping at the first fault or refusal. -/
def runSteps : Nat → State → Out State
  | 0, s => .next s
  | n + 1, s => andThen (step s) (runSteps n)

/-- The host makes no move and reset is released. -/
structure HostQuiet (s : State) : Prop where
  rst : s.rst = false
  hostq : s.hostq = []

/-- The pixel source covers 640 by 496 and no pixel was written during a transmission (R64, R66, R264). -/
structure ImageSteady (s : State) : Prop where
  source : s.sourceOk = true
  clean : s.pixDirty = []

/-- The sequencer is about to execute the operation `i` (R28, R38, R48 d). -/
structure AtInstr (s : State) (i : Instr) : Prop where
  rdy : s.seqSt = .rdy
  unarmed : s.armed = false
  fetched : decode s.fetch = .ok i

/-- The invariants (a) to (i) of R48, and that no fire finds `SEG_KIND` NONE (R128). They hold with any program. -/
structure SeqInv (s : State) : Prop where
  /-- (a) -/
  armed_wait : s.armed = true → s.seqSt = .segw ∧ s.done = false ∧ s.pixIdx.toNat < 640 ∧ s.pixt.toNat ≤ 190
  /-- (b) -/
  segw_one : s.seqSt = .segw → s.armed = !s.done
  /-- (c) -/
  done_index : s.done = true → s.pixIdx = 640#10 ∧ s.armed = false
  /-- (d) -/
  unarmed : s.seqSt = .dlyw ∨ s.seqSt = .rdy → s.armed = false
  /-- (e) -/
  pixt_zero : s.armed = false → s.pixt = 0#8
  /-- (f) -/
  dly_zero : s.seqSt ≠ .dlyw → s.dly = 0#28
  /-- (g) -/
  silent : s.toneEn = false → s.toneFreq = 0#16
  /-- (h) -/
  luma_row : s.segKind = .luma → s.rowB = 0#12
  /-- (i) -/
  rows : s.rowA.toNat < 496 ∧ s.rowB.toNat < 496
  /-- R128 -/
  armed_kind : s.armed = true → s.segKind ≠ .none

/-- The phase of the synthesizer is 0 while the tone is off (R209, R220, R223). -/
def PhaseInv (s : State) : Prop := s.toneEn = false → s.ncoPhase = 0#32

/-- Every element of state holds its reset value (R260, R261). -/
structure AtReset (s : State) : Prop where
  seqSt : s.seqSt = .idle
  seqPc : s.seqPc = 0#11
  dly : s.dly = 0#28
  segKind : s.segKind = .none
  rowA : s.rowA = 0#12
  rowB : s.rowB = 0#12
  pixIdx : s.pixIdx = 0#10
  done : s.done = false
  armed : s.armed = false
  pixt : s.pixt = 0#8
  toneEn : s.toneEn = false
  toneFreq : s.toneFreq = 0#16
  ncoPhase : s.ncoPhase = 0#32

/-- The memories keep their canonical form. -/
structure MemInv (s : State) : Prop where
  pix : Memory.wf pixDefault pixLim s.pix = true
  prom : Memory.wf romByte promLim s.prom = true
  dirty : Marks.wfFrom (Config.width * Config.height) 0 s.pixDirty = true

/-- Times are non-decreasing along the trace (R218), and no event lies in the future. -/
structure TraceInv (s : State) : Prop where
  sorted : (s.trace.map Event.at).Pairwise (· ≤ ·)
  past : ∀ e ∈ s.trace, e.at ≤ s.time

/-- The program ROM is the fixed one of R202, `SEQ_PC` is in the program (R48 j), a wait in progress is the `WAIT` at
`SEQ_PC` and a segment in progress is the scan operation at `SEQ_PC` (R29). -/
structure RomInv (s : State) : Prop where
  fixed : s.prom = []
  pc : s.seqPc.toNat ≤ 2011
  waiting : s.seqSt = .dlyw → ∃ us, romInstr s.seqPc.toNat = .wait us ∧ s.dly.toNat ≤ us.toNat
  scanning : s.seqSt = .segw → scanOf (romInstr s.seqPc.toNat) = some (s.segKind, s.rowA, s.rowB)

/-- A frequency the fixed program or a callback can write (R20, R123). -/
def inBand (hz : BitVec 16) : Prop := 1100 ≤ hz.toNat ∧ hz.toNat ≤ 2301

/-- The tone register and every frequency of the trace are ones R20 calls reachable. -/
structure BandInv (s : State) : Prop where
  tone : s.toneEn = true → inBand s.toneFreq
  silent : s.toneEn = false → s.toneFreq = 0#16
  events : ∀ t hz, Event.setFreq t hz ∈ s.trace → inBand hz

/-- The host's pending image writes stay in the image. -/
def HostInImage (s : State) : Prop :=
  ∀ m ∈ s.hostq, ∀ xc yc p, m.op = .pixWrite xc yc p → xc < 640 ∧ yc < 496

/-- Two outcomes that differ at most in the NCO (R224). -/
def SameButNco (a b : Out State) : Prop :=
  match a, b with
  | .next s, .next t => s.dropNco = t.dropNco
  | .fault r, .fault q => r = q
  | .refused r, .refused q => r = q
  | _, _ => False

end Sys2Proof.Machine
end

