-- ==== Sys2Proof/Certificates/Slice0/Obligations.lean ====
section
/-! DEFINITION. The statements for the provers, from the numbered rules of spec/. Each docstring names the rule. -/

open Sys2Proof Sys2Proof.Machine

/-! ### Encoding -/

/-- R90: decode and encode are inverse to each other on the legal operations, and the words are those R90 gives. -/
def Obligations.DecodeEncodeRoundTrip : Prop :=
  (∀ i : Instr, i.wellFormed = true → decode (encode i) = .ok i) ∧
  (∀ (w : OpWord) (i : Instr), decode w = .ok i → encode i = w ∧ i.wellFormed = true) ∧
  (encode .end_).toNat = 0x00000000 ∧
  (∀ hz, (encode (.setf hz)).toNat = 0x10000000 + hz.toNat) ∧
  (∀ us, (encode (.wait us)).toNat = 0x20000000 + us.toNat) ∧
  (encode .stop).toNat = 0x30000000 ∧
  (∀ a, (encode (.scany a)).toNat = 0x50000000 + a.toNat) ∧
  (∀ a b, (encode (.scanry a b)).toNat = 0x60000000 + b.toNat * 4096 + a.toNat) ∧
  (∀ a b, (encode (.scanby a b)).toNat = 0x70000000 + b.toNat * 4096 + a.toNat)

/-- R84, R85: a word is an operation exactly if it meets its row's mask and match and the row conditions. -/
def Obligations.WordsOfTheOpcodeMap : Prop :=
  ∀ w : OpWord,
    (decode w = .ok .end_ ↔ w &&& 0xFFFFFFFF#32 = 0x00000000#32) ∧
    ((∃ hz, decode w = .ok (.setf hz)) ↔ w &&& 0xFFFF0000#32 = 0x10000000#32) ∧
    ((∃ us, decode w = .ok (.wait us)) ↔ w &&& 0xF0000000#32 = 0x20000000#32) ∧
    (decode w = .ok .stop ↔ w &&& 0xFFFFFFFF#32 = 0x30000000#32) ∧
    ((∃ a, decode w = .ok (.scany a)) ↔ w &&& 0xFFFFF000#32 = 0x50000000#32 ∧ w.toNat % 4096 < 496) ∧
    ((∃ a b, decode w = .ok (.scanry a b)) ↔
      w &&& 0xFF000000#32 = 0x60000000#32 ∧ w.toNat % 4096 < 496 ∧ w.toNat / 4096 % 4096 < 496) ∧
    ((∃ a b, decode w = .ok (.scanby a b)) ↔
      w &&& 0xFF000000#32 = 0x70000000#32 ∧ w.toNat % 4096 < 496 ∧ w.toNat / 4096 % 4096 < 496)

/-- R86, R87: which words are refused and by which name, and that the program ROM holds none of them. -/
def Obligations.IllegalWordsRefusedByName : Prop :=
  (∀ w : OpWord,
    (decode w = .error .reservedOpcode ↔ w.toNat / 2 ^ 28 = 4 ∨ 8 ≤ w.toNat / 2 ^ 28) ∧
    (decode w = .error .reservedField ↔
      (w.toNat / 2 ^ 28 = 0 ∧ w.toNat % 2 ^ 28 ≠ 0) ∨
      (w.toNat / 2 ^ 28 = 1 ∧ w.toNat / 2 ^ 16 % 2 ^ 12 ≠ 0) ∨
      (w.toNat / 2 ^ 28 = 3 ∧ w.toNat % 2 ^ 28 ≠ 0) ∨
      (w.toNat / 2 ^ 28 = 5 ∧ w.toNat / 2 ^ 12 % 2 ^ 16 ≠ 0) ∨
      ((w.toNat / 2 ^ 28 = 6 ∨ w.toNat / 2 ^ 28 = 7) ∧ w.toNat / 2 ^ 24 % 2 ^ 4 ≠ 0)) ∧
    (decode w = .error .rowOutOfRange ↔
      (w.toNat / 2 ^ 28 = 5 ∧ w.toNat / 2 ^ 12 % 2 ^ 16 = 0 ∧ 496 ≤ w.toNat % 2 ^ 12) ∨
      ((w.toNat / 2 ^ 28 = 6 ∨ w.toNat / 2 ^ 28 = 7) ∧ w.toNat / 2 ^ 24 % 2 ^ 4 = 0 ∧
        (496 ≤ w.toNat % 2 ^ 12 ∨ 496 ≤ w.toNat / 2 ^ 12 % 2 ^ 12)))) ∧
  (∀ a, a < 2048 → ∃ i, decode (romWord a) = .ok i)

/-- Some words of 95_test_vectors section 3 (R89). -/
def Obligations.DecodesSampleWords : Prop :=
  decode 0x00000000#32 = .ok .end_ ∧ decode 0x1000076C#32 = .ok (.setf 1900#16) ∧
  decode 0x200493E0#32 = .ok (.wait 300000#28) ∧ decode 0x30000000#32 = .ok .stop ∧
  decode 0x500001EF#32 = .ok (.scany 495#12) ∧ decode 0x60001000#32 = .ok (.scanry 0#12 1#12) ∧
  decode 0x701EF1EE#32 = .ok (.scanby 494#12 495#12) ∧ decode 0x500001F0#32 = .error .rowOutOfRange ∧
  decode 0x61000000#32 = .error .reservedField ∧ decode 0x40000000#32 = .error .reservedOpcode

/-! ### The program -/

/-- R97: what IMAGE and TXIMAGE expand to, their 1985 and 2012 words, and that TXIMAGE is the program ROM from
address 0 on. -/
def Obligations.RomHoldsTxImage : Prop :=
  image = (List.range 248).flatMap linePair ++ [.stop] ∧ txImage = header ++ image ++ [.end_] ∧
  image.length = 1985 ∧ txImage.length = 2012 ∧
  ∀ s : State, s.prom = [] →
    (∀ a, a < 2012 → txImage[a]? = some (romInstr a) ∧ s.promWord a = encode (romInstr a)) ∧
    (∀ a, 2012 ≤ a → a < 2048 → s.promWord a = 0#32)

/-- R202: the contents of the program ROM, word by word; the header's words are those R187 lists. -/
def Obligations.RomContents : Prop :=
  ∀ s : State, s.prom = [] →
    (List.range 26).map s.promWord =
      [0x1000076C#32, 0x200493E0#32, 0x100004B0#32, 0x20002710#32, 0x1000076C#32, 0x200493E0#32, 0x100004B0#32,
       0x20007530#32, 0x1000044C#32, 0x20007530#32, 0x1000044C#32, 0x20007530#32, 0x1000044C#32, 0x20007530#32,
       0x1000044C#32, 0x20007530#32, 0x1000044C#32, 0x20007530#32, 0x10000514#32, 0x20007530#32, 0x1000044C#32,
       0x20007530#32, 0x10000514#32, 0x20007530#32, 0x100004B0#32, 0x20007530#32] ∧
    (∀ p, p < 248 →
      s.promWord (26 + 8 * p) = 0x100004B0#32 ∧ s.promWord (26 + 8 * p + 1) = 0x20004E20#32 ∧
      s.promWord (26 + 8 * p + 2) = 0x100005DC#32 ∧ s.promWord (26 + 8 * p + 3) = 0x20000820#32 ∧
      (s.promWord (26 + 8 * p + 4)).toNat = 0x50000000 + 2 * p ∧
      (s.promWord (26 + 8 * p + 5)).toNat = 0x60000000 + (2 * p + 1) * 4096 + 2 * p ∧
      (s.promWord (26 + 8 * p + 6)).toNat = 0x70000000 + (2 * p + 1) * 4096 + 2 * p ∧
      (s.promWord (26 + 8 * p + 7)).toNat = 0x50000000 + 2 * p + 1) ∧
    s.promWord 2010 = 0x30000000#32 ∧ s.promWord 2011 = 0x00000000#32 ∧
    (∀ a, 2012 ≤ a → a < 2048 → s.promWord a = 0x00000000#32)

/-- R189: the VIS bits of the header, decoded back, are 95, and with the parity bit the ones are even in number. -/
def Obligations.HeaderDecodesTo95 : Prop :=
  (((headerPulses Config.vis).drop 4).take 7).map (·.1.toNat) = [1100, 1100, 1100, 1100, 1100, 1300, 1100] ∧
  (((((headerPulses Config.vis).drop 4).take 7).zipIdx.map fun p => if p.1.1 = 1100#16 then 2 ^ p.2 else 0).sum = 95) ∧
  ((headerPulses Config.vis)[11]?.map (·.1.toNat)) = some 1300 ∧
  (((headerPulses Config.vis).drop 4).take 8).countP (fun p => p.1 = 1100#16) = 6

/-! ### Colour and frequency -/

/-- R120: the integer luminance is the rational one, and its frequency is `mapLuminance` of it. -/
def Obligations.LuminanceIsExact : Prop :=
  ∀ p : Pixel,
    y1000 p = 299 * p.r.toNat + 587 * p.g.toNat + 114 * p.b.toNat ∧ y1000 p ≤ 255000 ∧
    (y1000 p : ℚ) = 1000 * lumaQ p ∧
    (lumFreq p : Int) = mapLuminance (lumaQ p) ∧ lumFreq p = 1500 + 4 * y1000 p / 1275

/-- R121, R122: the integer differences are the rational ones times a million, with their other form and their
ranges, and the frequency is `mapDifference` of the mean of two rows. -/
def Obligations.DifferenceIsExact : Prop :=
  (∀ p : Pixel,
    ryn p = 713 * (701 * (p.r.toNat : Int) - 587 * (p.g.toNat : Int) - 114 * (p.b.toNat : Int)) ∧
    byn p = 564 * (886 * (p.b.toNat : Int) - 299 * (p.r.toNat : Int) - 587 * (p.g.toNat : Int)) ∧
    ryn p = 713 * (1000 * (p.r.toNat : Int) - (y1000 p : Int)) ∧
    byn p = 564 * (1000 * (p.b.toNat : Int) - (y1000 p : Int)) ∧
    ((ryn p : Int) : ℚ) = 1000000 * redDiffQ p ∧ ((byn p : Int) : ℚ) = 1000000 * blueDiffQ p ∧
    -127452315 ≤ ryn p ∧ ryn p ≤ 127452315 ∧ -127424520 ≤ byn p ∧ byn p ≤ 127424520) ∧
  (∀ p q : Pixel,
    diffFreq (ryn p + ryn q) = mapDifference (meanQ (redDiffQ p) (redDiffQ q)) ∧
    diffFreq (byn p + byn q) = mapDifference (meanQ (blueDiffQ p) (blueDiffQ q))) ∧
  (∀ s : Int, diffFreq s = 1500 + (s + 256000000) / 637500)

/-- R123: ranges and widths, floor and truncation agree, and where the frequency leaves the passband. -/
def Obligations.FrequencyRanges : Prop :=
  (∀ p : Pixel, 4 * y1000 p ≤ 1020000 ∧ |ryn p| ≤ 127452315 ∧ |byn p| ≤ 127452315 ∧
    1500 ≤ lumFreq p ∧ lumFreq p ≤ 2300) ∧
  (∀ p q : Pixel, ∀ s : Int, s = ryn p + ryn q ∨ s = byn p + byn q →
    |s| ≤ 254904630 ∧ 1095370 ≤ s + 256000000 ∧ s + 256000000 ≤ 510904630 ∧
    (s + 256000000).tdiv 637500 = (s + 256000000) / 637500 ∧
    1501 ≤ diffFreq s ∧ diffFreq s ≤ 2301 ∧ (diffFreq s = 2301 ↔ 254637500 ≤ s)) ∧
  (∀ p : Pixel,
    (diffFreq (ryn p + ryn p) = 2301 ↔ p = ⟨255#8, 0#8, 0#8⟩ ∨ p = ⟨255#8, 0#8, 1#8⟩) ∧
    (diffFreq (byn p + byn p) = 2301 ↔ p = ⟨0#8, 0#8, 255#8⟩)) ∧
  (∀ p q : Pixel,
    (kindFreq .luma p q).toNat = lumFreq p ∧
    ((kindFreq .rdiff p q).toNat : Int) = diffFreq (ryn p + ryn q) ∧
    ((kindFreq .bdiff p q).toNat : Int) = diffFreq (byn p + byn q))

/-- R125: the two maps are non-decreasing, with their step points. -/
def Obligations.FrequencyMapsAreMonotone : Prop :=
  (∀ p q : Pixel, y1000 p ≤ y1000 q → lumFreq p ≤ lumFreq q) ∧
  (∀ s t : Int, s ≤ t → diffFreq s ≤ diffFreq t) ∧
  (∀ (p : Pixel) (k : Nat), lumFreq p = 1500 + k ↔ 1275 * k ≤ 4 * y1000 p ∧ 4 * y1000 p < 1275 * (k + 1)) ∧
  (∀ s k : Int, diffFreq s = 1500 + k ↔ 637500 * k ≤ s + 256000000 ∧ s + 256000000 < 637500 * (k + 1)) ∧
  (∀ s : Int, diffFreq s = 1901 ↔ -362500 ≤ s ∧ s ≤ 274999)

/-- R127: grey pixels give 1901 in both difference segments, and so does any pair whose differences cancel. -/
def Obligations.GreyGives1901 : Prop :=
  (∀ v w : Byte, kindFreq .rdiff ⟨v, v, v⟩ ⟨w, w, w⟩ = 1901#16 ∧ kindFreq .bdiff ⟨v, v, v⟩ ⟨w, w, w⟩ = 1901#16 ∧
    ryn ⟨v, v, v⟩ + ryn ⟨w, w, w⟩ = 0 ∧ byn ⟨v, v, v⟩ + byn ⟨w, w, w⟩ = 0) ∧
  (∀ p q : Pixel, (ryn p + ryn q = 0 → kindFreq .rdiff p q = 1901#16) ∧
    (byn p + byn q = 0 → kindFreq .bdiff p q = 1901#16)) ∧
  kindFreq .rdiff ⟨255#8, 0#8, 0#8⟩ ⟨0#8, 255#8, 255#8⟩ = 1901#16

/-! ### What each operation does -/

/-- R161: `SETF hz`, every `hz`. -/
def Obligations.SetfSoundsTone : Prop :=
  ∀ (hz : BitVec 16) (s : State), s.seqPc ≠ 2047#11 →
    (encode (.setf hz)).toNat = 0x10000000 + hz.toNat ∧
    exec (.setf hz) s = .next { s with
      toneEn := true, toneFreq := hz, trace := s.trace ++ [.setFreq s.time hz], seqPc := s.seqPc + 1#11 }

/-- R163: `STOP`, also when already stopped; it clears the phase of the synthesizer (R223). -/
def Obligations.StopSilencesTone : Prop :=
  ∀ s : State, s.seqPc ≠ 2047#11 →
    (encode .stop).toNat = 0x30000000 ∧
    exec .stop s = .next { s with
      toneEn := false, toneFreq := 0#16, ncoPhase := 0#32, trace := s.trace ++ [.stop s.time]
      seqPc := s.seqPc + 1#11 }

/-- R164: `END` makes the sequencer IDLE and changes nothing else; no step of the sequencer is enabled after it, and
with the timer not armed (R48 d) only the tick. -/
def Obligations.EndReturnsToIdle : Prop :=
  (encode .end_).toNat = 0x00000000 ∧
  ∀ s : State, exec .end_ s = .next { s with seqSt := .idle } ∧
    ({ s with seqSt := .idle } : State).execEnabled = false ∧
    ({ s with seqSt := .idle } : State).waitEndEnabled = false ∧
    ({ s with seqSt := .idle } : State).segEndEnabled = false ∧
    ({ s with seqSt := .idle } : State).run = false ∧
    (s.armed = false → s.rst = false → ({ s with seqSt := .idle } : State).choose = .tick)

/-- The issue of `WAIT us` (R162). -/
def Obligations.WaitLoadsDelay : Prop :=
  ∀ (us : BitVec 28) (s : State), exec (.wait us) s = .next { s with dly := us, seqSt := .dlyw }

/-- R134, R98: the issue of the three scan operations, and the segment kind as the low bits of the opcode. -/
def Obligations.ScanIssueArmsTimer : Prop :=
  (∀ (a : BitVec 12) (s : State), a.toNat < 496 → exec (.scany a) s = .next { s with
      segKind := .luma, rowA := a, rowB := 0#12, pixIdx := 0#10, done := false, armed := true, pixt := 190#8
      seqSt := .segw }) ∧
  (∀ (a b : BitVec 12) (s : State), a.toNat < 496 → b.toNat < 496 → exec (.scanry a b) s = .next { s with
      segKind := .rdiff, rowA := a, rowB := b, pixIdx := 0#10, done := false, armed := true, pixt := 190#8
      seqSt := .segw }) ∧
  (∀ (a b : BitVec 12) (s : State), a.toNat < 496 → b.toNat < 496 → exec (.scanby a b) s = .next { s with
      segKind := .bdiff, rowA := a, rowB := b, pixIdx := 0#10, done := false, armed := true, pixt := 190#8
      seqSt := .segw }) ∧
  (∀ (i : Instr) (k : SegKind) (a b : BitVec 12), scanOf i = some (k, a, b) →
    (opcOf i).extractLsb' 2 2 = 0b01#2 ∧ (opcOf i).extractLsb' 0 2 = kindCode k)

/-- THE MODEL'S CHOICE (assumption log 15): a scan operation with a row of 496 or more, which R149 says cannot reach
issue, is refused by name (R85, R87). -/
def Obligations.ScanRefusesRowOutOfRange : Prop :=
  (∀ (a : BitVec 12) (s : State), 496 ≤ a.toNat → exec (.scany a) s = .refused .rowOutOfRange) ∧
  (∀ (a b : BitVec 12) (s : State), 496 ≤ a.toNat ∨ 496 ≤ b.toNat →
    exec (.scanry a b) s = .refused .rowOutOfRange ∧ exec (.scanby a b) s = .refused .rowOutOfRange)

/-- THE MODEL'S CHOICE (assumption log 10): at `SEQ_PC` = 2047 each step that advances it (`SETF`, `STOP`, the end of a
wait and the end of a segment) still completes, and `SEQ_PC` is a free value. -/
def Obligations.AdvancePastEndIsFree : Prop :=
  ∀ s : State, s.seqPc = 2047#11 →
    (∀ hz, exec (.setf hz) s = .next { s with
      toneEn := true, toneFreq := hz, trace := s.trace ++ [.setFreq s.time hz]
      seqPc := Config.freePc s.freeCtr, freeCtr := s.freeCtr + 1 }) ∧
    exec .stop s = .next { s with
      toneEn := false, toneFreq := 0#16, ncoPhase := 0#32, trace := s.trace ++ [.stop s.time]
      seqPc := Config.freePc s.freeCtr, freeCtr := s.freeCtr + 1 } ∧
    (HostQuiet s → s.armed = false →
      (s.seqSt = .dlyw ∧ s.dly = 0#28) ∨ (s.seqSt = .segw ∧ s.done = true) →
      step s = .next { s with
        seqSt := .rdy, seqPc := Config.freePc s.freeCtr, freeCtr := s.freeCtr + 1 })

/-! ### Frames -/

/-- What `SETF` and `STOP` leave unchanged (R160, R161, R163): everything but the tone registers, the trace, `SEQ_PC`
(and the count of free values), and for `STOP` the phase of the synthesizer; `SETF` keeps the phase (R223). -/
def Obligations.ToneOpsFrame : Prop :=
  ∀ (i : Instr) (s t : State), ((∃ hz, i = .setf hz) ∨ i = .stop) → exec i s = .next t →
    t.seqSt = s.seqSt ∧ t.dly = s.dly ∧ t.segKind = s.segKind ∧ t.rowA = s.rowA ∧ t.rowB = s.rowB ∧
    t.pixIdx = s.pixIdx ∧ t.done = s.done ∧ t.armed = s.armed ∧ t.pixt = s.pixt ∧
    t.ncoPhase = (if i = .stop then 0#32 else s.ncoPhase) ∧
    t.time = s.time ∧ t.pixDirty = s.pixDirty ∧ t.srcW = s.srcW ∧ t.srcH = s.srcH ∧ t.rst = s.rst ∧
    t.hostq = s.hostq ∧ t.hostSeen = s.hostSeen ∧ t.ncoFrac = s.ncoFrac ∧
    (∀ k, t.pixByte k = s.pixByte k) ∧ (∀ k, t.promByte k = s.promByte k)

/-- What `WAIT` and `END` leave unchanged (R160, R162, R164): everything but `SEQ_ST`, and `DLY` for `WAIT`. -/
def Obligations.WaitEndFrame : Prop :=
  ∀ (i : Instr) (s t : State), ((∃ us, i = .wait us) ∨ i = .end_) → exec i s = .next t →
    t.seqPc = s.seqPc ∧ (i = .end_ → t.dly = s.dly) ∧ t.segKind = s.segKind ∧ t.rowA = s.rowA ∧ t.rowB = s.rowB ∧
    t.pixIdx = s.pixIdx ∧ t.done = s.done ∧ t.armed = s.armed ∧ t.pixt = s.pixt ∧ t.toneEn = s.toneEn ∧
    t.toneFreq = s.toneFreq ∧ t.ncoPhase = s.ncoPhase ∧ t.time = s.time ∧ t.trace = s.trace ∧
    t.pixDirty = s.pixDirty ∧ t.srcW = s.srcW ∧ t.srcH = s.srcH ∧ t.rst = s.rst ∧ t.hostq = s.hostq ∧
    t.hostSeen = s.hostSeen ∧ t.ncoFrac = s.ncoFrac ∧ t.freeCtr = s.freeCtr ∧
    (∀ k, t.pixByte k = s.pixByte k) ∧ (∀ k, t.promByte k = s.promByte k)

/-- What the issue of a scan operation leaves unchanged (R134): the tone registers, the trace, `SEQ_PC`, `DLY`, and
all memory. -/
def Obligations.ScanIssueFrame : Prop :=
  ∀ (i : Instr) (k : SegKind) (a b : BitVec 12) (s t : State), scanOf i = some (k, a, b) → exec i s = .next t →
    t.seqPc = s.seqPc ∧ t.dly = s.dly ∧ t.toneEn = s.toneEn ∧ t.toneFreq = s.toneFreq ∧ t.ncoPhase = s.ncoPhase ∧
    t.time = s.time ∧ t.trace = s.trace ∧ t.pixDirty = s.pixDirty ∧ t.srcW = s.srcW ∧ t.srcH = s.srcH ∧
    t.rst = s.rst ∧ t.hostq = s.hostq ∧ t.hostSeen = s.hostSeen ∧ t.ncoFrac = s.ncoFrac ∧ t.freeCtr = s.freeCtr ∧
    (∀ n, t.pixByte n = s.pixByte n) ∧ (∀ n, t.promByte n = s.promByte n)

/-- What a callback leaves unchanged and what it writes, whatever the pixels were (R136, R239, R244). -/
def Obligations.CallbackFrame : Prop :=
  ∀ s t : State, fire s = .next t →
    t.seqSt = s.seqSt ∧ t.seqPc = s.seqPc ∧ t.dly = s.dly ∧ t.segKind = s.segKind ∧ t.rowA = s.rowA ∧
    t.rowB = s.rowB ∧ t.ncoPhase = s.ncoPhase ∧ t.time = s.time ∧ t.pixDirty = s.pixDirty ∧ t.srcW = s.srcW ∧
    t.srcH = s.srcH ∧ t.rst = s.rst ∧ t.hostq = s.hostq ∧ t.hostSeen = s.hostSeen ∧ t.ncoFrac = s.ncoFrac ∧
    (∀ k, t.pixByte k = s.pixByte k) ∧ (∀ k, t.promByte k = s.promByte k) ∧
    t.toneEn = true ∧ t.trace = s.trace ++ [.setFreq s.time t.toneFreq] ∧ t.pixIdx = s.pixIdx + 1#10 ∧
    (if t.pixIdx = 640#10 then t.armed = false ∧ t.done = true ∧ t.pixt = s.pixt
     else t.armed = s.armed ∧ t.done = s.done ∧ t.pixt = 190#8)

/-! ### The steps of the machine -/

/-- A step runs the decoded instruction: with the sequencer RDY, the timer not armed, reset released and no move of
the host due, `step` is `exec` of the operation at `SEQ_PC`, on the state in which the host's first pending move has
one step less to wait for (the model's count, assumption log 6). With no pending move that state is `s`. -/
def Obligations.StepRunsDecodedInstr : Prop :=
  ∀ (s : State) (i : Instr), hostDue s = none → s.rst = false → AtInstr s i →
    step s = exec i s.hostWait ∧ (s.hostq = [] → s.hostWait = s)

/-- On a word that is no operation the step refuses by the decoder's name (R86, R87, U8). -/
def Obligations.StepRefusesIllegalWord : Prop :=
  ∀ s : State, hostDue s = none → s.rst = false → s.seqSt = .rdy → s.armed = false →
    (decode s.fetch = .error .reservedOpcode → step s = .refused .reservedOpcode) ∧
    (decode s.fetch = .error .reservedField → step s = .refused .reservedField) ∧
    (decode s.fetch = .error .rowOutOfRange → step s = .refused .rowOutOfRange)

/-- THE MODEL'S CHOICE of how a test word is placed (assumption log 14): it is the word fetched, and no other word of
the program ROM differs. -/
def Obligations.FetchReadsPlacedWord : Prop :=
  ∀ (s : State) (w : Nat),
    (s.withFetchWord 32 w).fetch = BitVec.ofNat 32 w ∧
    (∀ a, a ≠ s.seqPc.toNat → (s.withFetchWord 32 w).promWord a = s.promWord a)

/-- R143: while the flag is 0 the sequencer has no enabled step; when it is 1, `SegEnd`, at the same `T`. -/
def Obligations.SegmentEndsAtDone : Prop :=
  (∀ s : State, s.seqSt = .segw → s.done = false →
    s.execEnabled = false ∧ s.waitEndEnabled = false ∧ s.segEndEnabled = false) ∧
  (∀ s : State, HostQuiet s → s.seqSt = .segw → s.done = true → s.armed = false → s.seqPc ≠ 2047#11 →
    step s = .next { s with seqSt := .rdy, seqPc := s.seqPc + 1#11 })

/-- R46: when the tick is enabled, what it does, and that no decrement underflows. -/
def Obligations.TickIsUrgentLast : Prop :=
  (∀ s : State, SeqInv s → s.rst = false →
    (s.choose = .tick ↔
      s.seqSt = .idle ∨ (s.seqSt = .dlyw ∧ 0 < s.dly.toNat) ∨
      (s.seqSt = .segw ∧ s.done = false ∧ 0 < s.pixt.toNat))) ∧
  (∀ s : State, HostQuiet s → s.choose = .tick →
    (s.seqSt = .dlyw → 0 < s.dly.toNat) ∧ (s.armed = true → 0 < s.pixt.toNat) ∧
    ∃ t, step s = .next t ∧ t.dropNco = ({ s with
      time := s.time + 1
      dly := if s.seqSt = .dlyw then s.dly - 1#28 else s.dly
      pixt := if s.armed then s.pixt - 1#8 else s.pixt } : State).dropNco) ∧
  (∀ s : State, SeqInv s → HostQuiet s → s.seqSt = .idle →
    ∃ t, step s = .next t ∧ t.dropNco = ({ s with time := s.time + 1 } : State).dropNco)

/-- R136: the callback, at any column and at the last one. -/
def Obligations.FireDrivesTone : Prop :=
  ∀ s : State, HostQuiet s → ImageSteady s → SeqInv s → s.armed = true → s.pixt = 0#8 →
    step s = .next (
      if s.pixIdx.toNat + 1 = 640 then { s with
        toneEn := true, toneFreq := s.imageFreq s.segKind s.pixIdx.toNat s.rowA s.rowB
        trace := s.trace ++ [.setFreq s.time (s.imageFreq s.segKind s.pixIdx.toNat s.rowA s.rowB)]
        pixIdx := 640#10, armed := false, done := true }
      else { s with
        toneEn := true, toneFreq := s.imageFreq s.segKind s.pixIdx.toNat s.rowA s.rowB
        trace := s.trace ++ [.setFreq s.time (s.imageFreq s.segKind s.pixIdx.toNat s.rowA s.rowB)]
        pixIdx := s.pixIdx + 1#10, pixt := 190#8 })

/-- R128: the frequency of a callback of each segment kind, from the pixels at `(PIX_IDX, ROW_A)` and
`(PIX_IDX, ROW_B)`, in the integer form and over the rationals (R137, R138, R139); the computation writes nothing, and
`SEG_KIND` is not NONE at a fire. -/
def Obligations.CallbackFrequencies : Prop :=
  (∀ s : State, ImageSteady s → s.pixIdx.toNat < 640 → s.rowA.toNat < 496 → s.rowB.toNat < 496 →
    (s.segKind = .luma → ∃ f, callbackFreq s = .next (f, s) ∧
      f.toNat = lumFreq (s.pixel s.pixIdx.toNat s.rowA.toNat) ∧
      (f.toNat : Int) = mapLuminance (lumaQ (s.pixel s.pixIdx.toNat s.rowA.toNat))) ∧
    (s.segKind = .rdiff → ∃ f, callbackFreq s = .next (f, s) ∧
      (f.toNat : Int) = diffFreq (ryn (s.pixel s.pixIdx.toNat s.rowA.toNat) +
        ryn (s.pixel s.pixIdx.toNat s.rowB.toNat)) ∧
      (f.toNat : Int) = mapDifference (meanQ (redDiffQ (s.pixel s.pixIdx.toNat s.rowA.toNat))
        (redDiffQ (s.pixel s.pixIdx.toNat s.rowB.toNat)))) ∧
    (s.segKind = .bdiff → ∃ f, callbackFreq s = .next (f, s) ∧
      (f.toNat : Int) = diffFreq (byn (s.pixel s.pixIdx.toNat s.rowA.toNat) +
        byn (s.pixel s.pixIdx.toNat s.rowB.toNat)) ∧
      (f.toNat : Int) = mapDifference (meanQ (blueDiffQ (s.pixel s.pixIdx.toNat s.rowA.toNat))
        (blueDiffQ (s.pixel s.pixIdx.toNat s.rowB.toNat))))) ∧
  (∀ s : State, SeqInv s → s.fireEnabled = true → s.segKind ≠ .none)

/-- A callback completes also on pixels the host wrote during the transmission: each such read is a free value
(R64, U4, assumption log 4), and everything else is as always. -/
def Obligations.CallbackAlwaysCompletes : Prop :=
  (∀ s : State, SeqInv s → s.armed = true → s.sourceOk = true → ∃ t, fire s = .next t) ∧
  (∀ (s : State) (xc yc : Nat), s.sourceOk = true → xc < 640 → yc < 496 →
    (pixNum xc yc ∈ s.pixDirty →
      pixRead s xc yc = .next (Config.freePixel s.freeCtr, { s with freeCtr := s.freeCtr + 1 })) ∧
    (pixNum xc yc ∉ s.pixDirty → pixRead s xc yc = .next (s.pixel xc yc, s)))

/-- A callback reads the pixels `readCoords` lists and no others: two states that agree on them, on `SEG_KIND`,
`PIX_IDX` and the rows compute the same frequency (R62, R67, R128). -/
def Obligations.CallbackReadsItsPixels : Prop :=
  ∀ s t : State, ImageSteady s → ImageSteady t → s.segKind ≠ .none → s.pixIdx.toNat < 640 →
    s.rowA.toNat < 496 → s.rowB.toNat < 496 →
    t.segKind = s.segKind → t.pixIdx = s.pixIdx → t.rowA = s.rowA → t.rowB = s.rowB →
    (∀ c ∈ readCoords s.segKind s.pixIdx.toNat s.rowA s.rowB, s.pixel c.1 c.2 = t.pixel c.1 c.2) →
    ∃ f, callbackFreq s = .next (f, s) ∧ callbackFreq t = .next (f, t)

/-! ### The host and reset -/

/-- R35: START in IDLE begins at `SEQ_PC` = 0 and changes nothing else; a write to `CTRL` otherwise is ignored. -/
def Obligations.StartBeginsTransmission : Prop :=
  (∀ (s : State) (q : List HostMove) (v : BitVec 32), s.hostq = ⟨0, .csrWrite 0#3 v⟩ :: q → s.rst = false →
    s.sourceOk = true → v.getLsbD 0 = true → s.seqSt = .idle →
    step s = .next { s with seqSt := .rdy, seqPc := 0#11, time := 0, trace := [], hostq := q }) ∧
  (∀ (s : State) (q : List HostMove) (v : BitVec 32), s.hostq = ⟨0, .csrWrite 0#3 v⟩ :: q →
    s.seqSt ≠ .idle → step s = .next { s with hostq := q }) ∧
  (∀ (s : State) (q : List HostMove) (v : BitVec 32), s.hostq = ⟨0, .csrWrite 0#3 v⟩ :: q →
    v.getLsbD 0 = false → step s = .next { s with hostq := q })

/-- START with a pixel source smaller than 640 by 496 is refused by name (R66, R234, U1; assumption log 5). -/
def Obligations.StartRefusesShortImage : Prop :=
  ∀ (s : State) (q : List HostMove) (v : BitVec 32), s.hostq = ⟨0, .csrWrite 0#3 v⟩ :: q → s.rst = false →
    v.getLsbD 0 = true → s.seqSt = .idle → s.srcW < 640 ∨ s.srcH < 496 → step s = .refused .geometryMismatch

/-- R260, R262: asserting `rst` resets from any state, before any other step, and changes no memory. While it is
asserted every step, a move of the host or the machine's own, leaves every element at its reset value, and so does the
step that releases it. THE MODEL'S READING, not the spec's words: `rst` is a level; under it START is ignored and the
machine's own step completes, time passing, and the release changes nothing else (assumption log 7); `T` and `TRACE`
keep their values when it is asserted (assumption log 13). -/
def Obligations.ResetHasPriority : Prop :=
  (∀ (s : State) (q : List HostMove), s.hostq = ⟨0, .rst true⟩ :: q →
    step s = .next { s with
      seqSt := .idle, seqPc := 0#11, dly := 0#28, segKind := .none, rowA := 0#12, rowB := 0#12, pixIdx := 0#10
      done := false, armed := false, pixt := 0#8, toneEn := false, toneFreq := 0#16, ncoPhase := 0#32
      rst := true, hostq := q }) ∧
  (∀ s t : State, (s.rst = true → AtReset s) → step s = .next t →
    (t.rst = true → AtReset t) ∧ (s.rst = true → AtReset t)) ∧
  (∀ (s : State) (q : List HostMove) (v : BitVec 32), s.hostq = ⟨0, .csrWrite 0#3 v⟩ :: q → s.rst = true →
    step s = .next { s with hostq := q }) ∧
  (∀ s : State, s.rst = true → hostDue s = none → ∃ t, step s = .next t ∧ AtReset t ∧ t.rst = true) ∧
  (∀ (s : State) (q : List HostMove), s.hostq = ⟨0, .rst false⟩ :: q →
    step s = .next { s with rst := false, hostq := q })

/-- R261: every element of state resets to 0, and `STATUS` reads 0. -/
def Obligations.ResetValues : Prop :=
  State.reset.seqSt = .idle ∧ State.reset.seqPc = 0#11 ∧ State.reset.dly = 0#28 ∧ State.reset.segKind = .none ∧
  State.reset.rowA = 0#12 ∧ State.reset.rowB = 0#12 ∧ State.reset.pixIdx = 0#10 ∧ State.reset.done = false ∧
  State.reset.armed = false ∧ State.reset.pixt = 0#8 ∧ State.reset.toneEn = false ∧ State.reset.toneFreq = 0#16 ∧
  State.reset.ncoPhase = 0#32 ∧ State.reset.csrValue 1#3 = 0#32

/-- R34: the control and status view; a write of any register but `CTRL`, and of any bit of `CTRL` but `START`, is
ignored. -/
def Obligations.CsrView : Prop :=
  ∀ s : State,
    s.csrValue 0#3 = 0#32 ∧
    (s.csrValue 1#3).toNat = (if s.seqSt = .idle then 0 else 1) + 2 * s.armed.toNat + 4 * s.done.toNat +
      8 * s.toneEn.toNat + 16 * (kindCode s.segKind).toNat + 64 * (seqCode s.seqSt).toNat ∧
    (s.csrValue 2#3).toNat = s.seqPc.toNat ∧
    (s.csrValue 3#3).toNat = s.rowA.toNat + 4096 * s.rowB.toNat ∧
    (s.csrValue 4#3).toNat = s.pixIdx.toNat ∧ (s.csrValue 5#3).toNat = s.toneFreq.toNat ∧
    (s.csrValue 6#3).toNat = s.dly.toNat ∧ s.csrValue 7#3 = 0#32 ∧
    (∀ (reg : BitVec 3) (v : BitVec 32), reg ≠ 0#3 ∨ v.getLsbD 0 = false → csrWrite s reg v = .next s) ∧
    (∀ v u : BitVec 32, v.getLsbD 0 = u.getLsbD 0 → csrWrite s 0#3 v = csrWrite s 0#3 u) ∧
    (∀ (reg : BitVec 3) (q : List HostMove), s.hostq = ⟨0, .csrRead reg⟩ :: q → s.zeroTimeEnabled = false →
      step s = .next { s with hostq := q, hostSeen := s.hostSeen ++ [(reg, s.csrValue reg)] })

/-- R72: a read changes nothing but what the host has seen, and one that coincides with a zero-time step is not taken
before it. -/
def Obligations.CsrReadIsPure : Prop :=
  (∀ (s : State) (reg : BitVec 3), hostAct (.csrRead reg) s =
    .next { s with hostSeen := s.hostSeen ++ [(reg, s.csrValue reg)] }) ∧
  (∀ (s : State) (reg : BitVec 3) (q : List HostMove), s.hostq = ⟨0, .csrRead reg⟩ :: q → s.rst = false →
    s.zeroTimeEnabled = true → step s = ownStep s)

/-- The host writes the image while IDLE, and every other pixel stays; during a transmission the pixel is unspecified
from then on (R64, U4), which the model marks (assumption log 4). No register changes. -/
def Obligations.HostWritesPixel : Prop :=
  (∀ (s : State) (xc yc : Nat) (p : Pixel), xc < 640 → yc < 496 → s.seqSt = .idle →
    ∃ t, hostAct (.pixWrite xc yc p) s = .next t ∧ t.pixel xc yc = p ∧ pixNum xc yc ∉ t.pixDirty ∧
      (∀ x y, x < 640 → (x, y) ≠ (xc, yc) → t.pixel x y = s.pixel x y ∧
        (pixNum x y ∈ t.pixDirty ↔ pixNum x y ∈ s.pixDirty)) ∧
      t = { s with pix := t.pix, pixDirty := t.pixDirty }) ∧
  (∀ (s : State) (xc yc : Nat) (p : Pixel), xc < 640 → yc < 496 → s.seqSt ≠ .idle →
    ∃ t, hostAct (.pixWrite xc yc p) s = .next t ∧ t = { s with pixDirty := t.pixDirty } ∧
      ∀ n, n ∈ t.pixDirty ↔ n = pixNum xc yc ∨ n ∈ s.pixDirty)

/-! ### Invariants -/

/-- The invariants hold at reset, and so does what every element is while `rst` is asserted. What they say of the
memories, the ghosts and the ROM rests on the reset values of assumption log 2 to 4 and 13, and on the layout of log 17. -/
def Obligations.ResetMeetsInvariants : Prop :=
  SeqInv State.reset ∧ MemInv State.reset ∧ TraceInv State.reset ∧ RomInv State.reset ∧ BandInv State.reset ∧
  PhaseInv State.reset ∧ AtReset State.reset

/-- The invariants (a) to (i) of R48 are kept by every step, whatever the program, and so is that the phase of the
synthesizer is 0 while the tone is off, so that a tone starts at phase 0 (R220, R223). -/
def Obligations.SequencerInvariantKept : Prop :=
  (∀ s t : State, SeqInv s → step s = .next t → SeqInv t) ∧
  (∀ s t : State, PhaseInv s → step s = .next t → PhaseInv t)

/-- R48: with the fixed program, (a) to (j) hold at reset and are kept by every step. `RomInv` adds to (j) what makes
it inductive: an operation in progress is the one at `SEQ_PC` (R29). -/
def Obligations.FixedProgramInvariants : Prop :=
  (SeqInv State.reset ∧ RomInv State.reset) ∧
  ∀ s t : State, SeqInv s → RomInv s → step s = .next t → SeqInv t ∧ RomInv t

/-- Every step keeps the canonical form of the memories, which is the model's (assumption log 2 to 4 and 17). -/
def Obligations.MemoryCanonicalKept : Prop :=
  ∀ s t : State, MemInv s → step s = .next t → MemInv t

/-- Times are non-decreasing along the trace (R218), in every state a step leads to. -/
def Obligations.TraceOrderKept : Prop :=
  ∀ s t : State, TraceInv s → step s = .next t → TraceInv t

/-- With the fixed program, a whole image and host moves inside it (assumption log 6), no step faults or refuses
(R230), and so it goes on. -/
def Obligations.FixedProgramNeverStops : Prop :=
  ∀ s : State, SeqInv s → RomInv s → s.sourceOk = true → HostInImage s →
    ∃ t, step s = .next t ∧ t.sourceOk = true ∧ HostInImage t

/-- With the fixed program every frequency the engine writes is 1100 to 2301 hertz (R20, R123). -/
def Obligations.TonesStayInBand : Prop :=
  ∀ s t : State, RomInv s → BandInv s → step s = .next t → BandInv t

/-- At most one of `Exec`, `WaitEnd`, `SegEnd`, `Fire` is enabled, and the tick only if none is (R47). -/
def Obligations.AtMostOneStepEnabled : Prop :=
  ∀ s : State, SeqInv s →
    ([s.execEnabled, s.waitEndEnabled, s.segEndEnabled, s.fireEnabled].countP id ≤ 1) ∧
    (s.rst = false → (s.choose = .tick ↔ [s.execEnabled, s.waitEndEnabled, s.segEndEnabled, s.fireEnabled].countP id = 0))

/-- R78: nothing writes the program ROM, and nothing but the host's own write of a pixel writes the image. -/
def Obligations.NoWritePath : Prop :=
  ∀ s t : State, step s = .next t →
    (∀ k, t.promByte k = s.promByte k) ∧
    ((∀ xc yc p, hostDue s ≠ some (.pixWrite xc yc p)) → ∀ k, t.pixByte k = s.pixByte k)

/-- R224: the NCO takes no part in any other rule: two states that differ only in it take steps that differ only in
it. -/
def Obligations.NcoTakesNoPart : Prop :=
  ∀ s t : State, s.dropNco = t.dropNco → SameButNco (step s) (step t)

/-! ### Operations as big steps -/

/-- R162: `WAIT us` issues, lets exactly `us` microseconds pass and completes; `WAIT 0` passes no tick. -/
def Obligations.WaitLastsExactly : Prop :=
  ∀ (s : State) (us : BitVec 28), HostQuiet s → AtInstr s (.wait us) → s.seqPc ≠ 2047#11 →
    (encode (.wait us)).toNat = 0x20000000 + us.toNat ∧
    ∃ t, runSteps (us.toNat + 2) s = .next t ∧
      t.dropNco = ({ s with seqPc := s.seqPc + 1#11, dly := 0#28, time := s.time + us.toNat } : State).dropNco

/-- R166: the pulse `TONE hz, us`. -/
def Obligations.PulseRuns : Prop :=
  ∀ (s : State) (hz : BitVec 16) (us : BitVec 28), HostQuiet s → AtInstr s (.setf hz) → s.seqPc.toNat < 2046 →
    decode (s.promWord (s.seqPc.toNat + 1)) = .ok (.wait us) →
    ∃ t, runSteps (us.toNat + 3) s = .next t ∧
      t.dropNco = ({ s with
        seqPc := s.seqPc + 2#11, dly := 0#28, time := s.time + us.toNat, toneEn := true, toneFreq := hz
        trace := s.trace ++ [.setFreq s.time hz] } : State).dropNco

/-- R144: a scan operation runs to its end (1 issue, 640 times 190 ticks and a callback, 1 `SegEnd`) and makes 640 or
1280 pixel reads. The second clause is THE MODEL'S CHOICE (assumption log 4) of what a pixel the host wrote during a
transmission reads as (R64, U4), a free value for each read: whichever pixels are so marked, the run draws one value
for each read of a marked one and completes, so the reads are those of `opReads`, each as often as it stands there. -/
def Obligations.ScanRunsToCompletion : Prop :=
  (∀ (s : State) (i : Instr) (k : SegKind) (a b : BitVec 12), HostQuiet s → ImageSteady s → SeqInv s → AtInstr s i →
    scanOf i = some (k, a, b) → s.seqPc ≠ 2047#11 →
    (opReads i).length = (if k = .luma then 640 else 1280) ∧
    ∃ t, runSteps 122242 s = .next t ∧
      t.dropNco = ({ s with
        seqPc := s.seqPc + 1#11, segKind := k, rowA := a, rowB := b, pixIdx := 640#10, done := true, armed := false
        pixt := 0#8, dly := 0#28, toneEn := true, toneFreq := s.imageFreq k 639 a b, time := s.time + 121600
        trace := s.trace ++ s.segmentEvents s.time k a b } : State).dropNco) ∧
  (∀ (s : State) (i : Instr), HostQuiet s → s.sourceOk = true → SeqInv s → AtInstr s i → scanOf i ≠ none →
    s.seqPc ≠ 2047#11 →
    ∃ t, runSteps 122242 s = .next t ∧ t.pixIdx = 640#10 ∧ t.done = true ∧ t.seqPc = s.seqPc + 1#11 ∧
      t.time = s.time + 121600 ∧
      t.freeCtr = s.freeCtr + (opReads i).countP fun c => decide (pixNum c.1 c.2 ∈ s.pixDirty))

/-- R188: the calibration header, from the step after START: 910000 microseconds, ending at `SEQ_PC` = 26 with the
transmission state untouched; its trace is the 13 pulses of R187. -/
def Obligations.HeaderRuns : Prop :=
  ∀ s : State, HostQuiet s → s.seqSt = .rdy → s.armed = false → s.seqPc = 0#11 → s.prom = [] → s.time = 0 →
    s.trace = [] →
    ∃ t, runSteps 910039 s = .next t ∧
      t.dropNco = ({ s with
        seqPc := 26#11, dly := 0#28, toneEn := true, toneFreq := 1200#16, time := 910000
        trace := pulseEvents 0 (headerPulses Config.vis) } : State).dropNco

/-- R70, R67: how often the program reads each pixel. The first clause ties `readCoords` to the callback: it is pixel
reads along that list, in order, and then the frequency of the first and the last pixel read. The second is THE
MODEL'S CHOICE (assumption log 4) of what a pixel the host wrote during the transmission reads as (U4): the callback
draws one free value for each read of such a pixel. A scan operation's 640 callbacks make the reads of `opReads`:
`Obligations.ScanRunsToCompletion`. -/
def Obligations.PixelReadCounts : Prop :=
  (∀ s : State, s.segKind ≠ .none →
    callbackFreq s = andThen (pixReads (readCoords s.segKind s.pixIdx.toNat s.rowA s.rowB) s) fun r =>
      .next (kindFreq s.segKind (r.1.headD default) (r.1.getLastD default), r.2)) ∧
  (∀ (s t : State) (f : BitVec 16), callbackFreq s = .next (f, t) →
    t.freeCtr = s.freeCtr + (readCoords s.segKind s.pixIdx.toNat s.rowA s.rowB).countP fun c =>
      decide (pixNum c.1 c.2 ∈ s.pixDirty)) ∧
  (txImage.flatMap opReads).length = 952320 ∧ header.flatMap opReads = [] ∧
  ∀ p, p < 248 →
    (∀ c ∈ (linePair p).flatMap opReads, c.1 < 640 ∧ (c.2 = 2 * p ∨ c.2 = 2 * p + 1)) ∧
    (∀ xc y, xc < 640 → y = 2 * p ∨ y = 2 * p + 1 →
      ((pairScans p).map fun i => (opReads i).count (xc, y)) =
        if y = 2 * p then [1, 1, 1, 0] else [0, 1, 1, 1])

/-- A line pair of the fixed program lasts 508480 microseconds and emits the events of R205 (R197 to R199, R204,
R206). -/
def Obligations.LinePairRuns : Prop :=
  ∀ (s : State) (p : Nat), p < 248 → HostQuiet s → ImageSteady s → SeqInv s → s.seqSt = .rdy → s.prom = [] →
    s.seqPc.toNat = 26 + 8 * p →
    ∃ t, runSteps 511054 s = .next t ∧
      t.dropNco = ({ s with
        seqPc := s.seqPc + 8#11, segKind := .luma, rowA := secondRow p, rowB := 0#12, pixIdx := 640#10, done := true
        toneEn := true, toneFreq := s.imageFreq .luma 639 (secondRow p) 0#12, time := s.time + 508480
        trace := s.trace ++ s.pairEvents s.time p } : State).dropNco

/-- The whole transmission: from IDLE, START leads after exactly 127013040 microseconds to the end state of R209,
`NCO_PHASE` = 0 with it, with the trace of R205, its 635390 events and its last two at one time, whatever the image
(R49, R205, R207, R209). The NCO's remainder, the model's own (assumption log 9), is left out. -/
def Obligations.WholeTransmission : Prop :=
  ∀ (s : State) (v : BitVec 32), s.rst = false → ImageSteady s → SeqInv s → s.prom = [] → s.seqSt = .idle →
    s.hostq = [⟨0, .csrWrite 0#3 v⟩] → v.getLsbD 0 = true →
    (∃ t, runSteps 127651434 s = .next t ∧
      t = { s with
        seqSt := .idle, seqPc := 2011#11, dly := 0#28, segKind := .luma, rowA := 495#12, rowB := 0#12
        pixIdx := 640#10, done := true, armed := false, pixt := 0#8, toneEn := false, toneFreq := 0#16
        ncoPhase := 0#32, time := 127013040, trace := s.transmissionEvents, hostq := [], ncoFrac := t.ncoFrac }) ∧
    s.transmissionEvents.length = 635390 ∧
    ∃ pre, s.transmissionEvents =
      pre ++ [.setFreq 127013040 (s.imageFreq .luma 639 495#12 0#12), .stop 127013040]

/-! ### The observation and the synthesizer -/

/-- A write of the frequency already sounding does not change the waveform, wherever in the trace it is (R219,
R223). -/
def Obligations.EqualWriteKeepsWaveform : Prop :=
  ∀ (tr rest : List Event) (t u tEnd : Nat) (hz : BitVec 16),
    ((tr ++ [Event.setFreq t hz, Event.setFreq u hz] ++ rest).map Event.at).Pairwise (· ≤ ·) →
    (∀ e ∈ tr ++ [Event.setFreq t hz, Event.setFreq u hz] ++ rest, e.at ≤ tEnd) →
    waveform tEnd (tr ++ [Event.setFreq t hz, Event.setFreq u hz] ++ rest) =
      waveform tEnd (tr ++ [Event.setFreq t hz] ++ rest)

/-- R220, R222: one update of the NCO, and the output, the port `audio_out` with it. -/
def Obligations.NcoUpdateAndOutput : Prop :=
  (∀ (rate : Nat) (hz : BitVec 16) (ph : BitVec 32),
    (nextPhase rate true hz ph).toNat = (ph.toNat + hz.toNat * 2 ^ 32 / rate) % 2 ^ 32 ∧
    nextPhase rate false hz ph = 0#32) ∧
  (∀ (thr : Nat) (ph : BitVec 32), (audioLevel thr true ph = true ↔ ph.toNat < thr) ∧
    audioLevel thr false ph = false) ∧
  (∀ s : State, s.audioOut = true ↔ s.toneEn = true ∧ s.ncoPhase.toNat < Config.dutyThr)

/-- R221: the tuning word produces at most `TONE_FREQ` and less than `F_NCO / 2^32` below it; below `F_NCO` it fits
32 bits; at 0 hertz it is 0; and `F_NCO` is above twice 2301. -/
def Obligations.TuningWordBound : Prop :=
  (∀ (rate : Nat) (hz : BitVec 16), 0 < rate →
    tuningWord rate hz * rate ≤ hz.toNat * 2 ^ 32 ∧ hz.toNat * 2 ^ 32 < tuningWord rate hz * rate + rate ∧
    (hz.toNat < rate → tuningWord rate hz < 2 ^ 32) ∧
    (∀ ph, (nextPhase rate true hz ph).toNat = (ph.toNat + tuningWord rate hz % 2 ^ 32) % 2 ^ 32)) ∧
  (∀ rate, tuningWord rate 0#16 = 0) ∧ 2 * 2301 < Config.fNco

/-- THE MODEL'S CHOICE of how the updates spread over microseconds (assumption log 9), with what R220 asks of it: in
every tick, whatever the sequencer does, the updates of one microsecond at the frequency then sounding; and `F_NCO` of
them in every second, whatever microsecond it begins with. -/
def Obligations.NcoRunsAtItsRate : Prop :=
  (∀ s : State, hostDue s = none → s.choose = .tick →
    ∃ t, step s = .next t ∧ t.toneEn = s.toneEn ∧ t.toneFreq = s.toneFreq ∧
      t.ncoPhase = phaseAfter Config.fNco s.toneEn s.toneFreq (updatesIn Config.fNco s.ncoFrac) s.ncoPhase ∧
      t.ncoFrac = (s.ncoFrac + Config.fNco) % 1000000) ∧
  (∀ (s : State) (n : Nat), HostQuiet s → s.ncoFrac < 1000000 →
    (s.seqSt = .idle ∧ s.armed = false) ∨
      (s.seqSt = .dlyw ∧ s.armed = false ∧ n ≤ s.dly.toNat) ∨
      (s.seqSt = .segw ∧ s.done = false ∧ s.armed = true ∧ n ≤ s.pixt.toNat) →
    ∃ t, runSteps n s = .next t ∧ t.time = s.time + n ∧
      t.ncoFrac = (s.ncoFrac + n * Config.fNco) % 1000000 ∧
      t.ncoPhase = phaseAfter Config.fNco s.toneEn s.toneFreq ((s.ncoFrac + n * Config.fNco) / 1000000) s.ncoPhase)
end

