-- ==== Sys2Proof/Laws/Memory.lean ====
section
/-! SUPPORT. A read after a write, and that every memory operation keeps the canonical form. -/

namespace Sys2Proof.Machine

variable {d : Nat → Byte} {lim : Nat}

@[simp] theorem Cells.read_nil (a : Nat) : Cells.read d [] a = d a := rfl

theorem Cells.read_put (m : List Host.Cell) (a b : Nat) (v : Byte) :
    Cells.read d (Cells.put a v m) b = if b = a then v else Cells.read d m b := by
  induction m with
  | nil => simp [Cells.put, Cells.read]
  | cons c m ih =>
    obtain ⟨k, u⟩ := c
    simp only [Cells.put]
    split
    · simp [Cells.read]
    · split
      · subst_vars; simp only [Cells.read]; split <;> rfl
      · simp only [Cells.read, ih]
        split
        · rename_i h1 h2 h3; subst h3; simp [Ne.symm h2]
        · rfl

theorem Cells.read_del (m : List Host.Cell) (a b : Nat) :
    Cells.read d (Cells.del a m) b = if b = a then d a else Cells.read d m b := by
  induction m with
  | nil => simp only [Cells.del, Cells.read]; split <;> simp_all
  | cons c m ih =>
    obtain ⟨k, u⟩ := c
    simp only [Cells.del]
    split
    · subst_vars; rw [ih]; simp only [Cells.read]; split <;> rfl
    · simp only [Cells.read, ih]
      split
      · rename_i h1 h2; subst h2; simp [Ne.symm h1]
      · rfl

/-- A read after a write: the value written at its address, every other byte as before. -/
theorem Cells.read_write (m : List Host.Cell) (a b : Nat) (v : Byte) :
    Cells.read d (Cells.write d m a v) b = if b = a then v else Cells.read d m b := by
  unfold Cells.write
  split
  · rename_i h; rw [Cells.read_del, h]
  · rw [Cells.read_put]

theorem Cells.wfFrom_mono {lo lo' : Nat} (h : lo' ≤ lo) (m : List Host.Cell)
    (hm : Cells.wfFrom d lim lo m = true) : Cells.wfFrom d lim lo' m = true := by
  cases m with
  | nil => rfl
  | cons c m =>
    obtain ⟨k, u⟩ := c
    simp only [Cells.wfFrom, Bool.and_eq_true, decide_eq_true_eq] at hm ⊢
    exact ⟨⟨⟨by omega, hm.1.1.2⟩, hm.1.2⟩, hm.2⟩

theorem Cells.wfFrom_del (a : Nat) : ∀ (m : List Host.Cell) (lo : Nat),
    Cells.wfFrom d lim lo m = true → Cells.wfFrom d lim lo (Cells.del a m) = true
  | [], _, h => h
  | (k, u) :: m, lo, h => by
    simp only [Cells.wfFrom, Bool.and_eq_true, decide_eq_true_eq] at h
    simp only [Cells.del]
    split
    · exact Cells.wfFrom_mono (by omega) _ (Cells.wfFrom_del a m _ h.2)
    · simp only [Cells.wfFrom, Bool.and_eq_true, decide_eq_true_eq]
      exact ⟨h.1, Cells.wfFrom_del a m _ h.2⟩

theorem Cells.wfFrom_put (a : Nat) (v : Byte) (ha : a < lim) (hv : v ≠ d a) : ∀ (m : List Host.Cell) (lo : Nat),
    lo ≤ a → Cells.wfFrom d lim lo m = true → Cells.wfFrom d lim lo (Cells.put a v m) = true
  | [], lo, hlo, _ => by simp [Cells.put, Cells.wfFrom, ha, hv, hlo]
  | (k, u) :: m, lo, hlo, h => by
    simp only [Cells.wfFrom, Bool.and_eq_true, decide_eq_true_eq] at h
    simp only [Cells.put]
    split
    · rename_i hk
      simp only [Cells.wfFrom, Bool.and_eq_true, decide_eq_true_eq]
      exact ⟨⟨⟨hlo, ha⟩, by simpa using hv⟩, ⟨⟨⟨by omega, h.1.1.2⟩, h.1.2⟩, h.2⟩⟩
    · split
      · subst_vars
        simp only [Cells.wfFrom, Bool.and_eq_true, decide_eq_true_eq]
        exact ⟨⟨⟨hlo, ha⟩, by simpa using hv⟩, h.2⟩
      · simp only [Cells.wfFrom, Bool.and_eq_true, decide_eq_true_eq]
        exact ⟨h.1, Cells.wfFrom_put a v ha hv m _ (by omega) h.2⟩

/-- A write keeps the canonical form. -/
theorem Memory.wf_write (m : List Host.Cell) (a : Nat) (v : Byte) (ha : a < lim)
    (h : Memory.wf d lim m = true) : Memory.wf d lim (Cells.write d m a v) = true := by
  unfold Cells.write
  split
  · exact Cells.wfFrom_del a m 0 h
  · rename_i hv; exact Cells.wfFrom_put a v ha hv m 0 (Nat.zero_le a) h

theorem Marks.wfFrom_mono {lo lo' : Nat} (h : lo' ≤ lo) (m : List Nat)
    (hm : Marks.wfFrom lim lo m = true) : Marks.wfFrom lim lo' m = true := by
  cases m with
  | nil => rfl
  | cons k m =>
    simp only [Marks.wfFrom, Bool.and_eq_true, decide_eq_true_eq] at hm ⊢
    exact ⟨⟨by omega, hm.1.2⟩, hm.2⟩

/-- Adding a mark keeps the canonical form of the list of marks. -/
theorem Marks.wfFrom_add (a : Nat) (ha : a < lim) : ∀ (m : List Nat) (lo : Nat),
    lo ≤ a → Marks.wfFrom lim lo m = true → Marks.wfFrom lim lo (Marks.add a m) = true
  | [], lo, hlo, _ => by simp [Marks.add, Marks.wfFrom, ha, hlo]
  | k :: m, lo, hlo, h => by
    simp only [Marks.wfFrom, Bool.and_eq_true, decide_eq_true_eq] at h
    simp only [Marks.add]
    split
    · simp only [Marks.wfFrom, Bool.and_eq_true, decide_eq_true_eq]
      exact ⟨⟨hlo, ha⟩, ⟨⟨by omega, h.1.2⟩, h.2⟩⟩
    · split
      · simp only [Marks.wfFrom, Bool.and_eq_true, decide_eq_true_eq]; exact h
      · simp only [Marks.wfFrom, Bool.and_eq_true, decide_eq_true_eq]
        exact ⟨h.1, Marks.wfFrom_add a ha m _ (by omega) h.2⟩

/-- Taking a mark out keeps the canonical form of the list of marks. -/
theorem Marks.wfFrom_drop (a : Nat) : ∀ (m : List Nat) (lo : Nat),
    Marks.wfFrom lim lo m = true → Marks.wfFrom lim lo (Marks.drop a m) = true
  | [], _, h => h
  | k :: m, lo, h => by
    simp only [Marks.wfFrom, Bool.and_eq_true, decide_eq_true_eq] at h
    simp only [Marks.drop]
    split
    · exact Marks.wfFrom_mono (by omega) _ (Marks.wfFrom_drop a m _ h.2)
    · simp only [Marks.wfFrom, Bool.and_eq_true, decide_eq_true_eq]
      exact ⟨h.1, Marks.wfFrom_drop a m _ h.2⟩

theorem Marks.mem_add (a b : Nat) (m : List Nat) : b ∈ Marks.add a m ↔ b = a ∨ b ∈ m := by
  induction m with
  | nil => simp [Marks.add]
  | cons k m ih =>
    simp only [Marks.add]
    split
    · simp
    · split
      · subst_vars; simp
      · simp [ih]; tauto

theorem Marks.mem_drop (a b : Nat) (m : List Nat) : b ∈ Marks.drop a m ↔ b ≠ a ∧ b ∈ m := by
  induction m with
  | nil => simp [Marks.drop]
  | cons k m ih =>
    simp only [Marks.drop]
    split
    · subst_vars; rw [ih]; simp only [List.mem_cons]; constructor
      · rintro ⟨h, hm⟩; exact ⟨h, .inr hm⟩
      · rintro ⟨h, rfl | hm⟩; exact absurd rfl h; exact ⟨h, hm⟩
    · rename_i hk
      simp only [List.mem_cons, ih]
      constructor
      · rintro (rfl | ⟨h, hm⟩); exact ⟨fun e => hk e.symm, .inl rfl⟩; exact ⟨h, .inr hm⟩
      · rintro ⟨h, rfl | hm⟩; exact .inl rfl; exact .inr ⟨h, hm⟩

end Sys2Proof.Machine
end

