-- ==== Sys2Proof/Laws/State.lean ====
section
/-! SUPPORT. One lemma per field per named update of the state, so that no proof unfolds a record update. The fields
an update chooses between cases for have their lemmas at the end. -/

namespace Sys2Proof.Machine

/-! ### `DONE <- 0` (R24) -/

@[simp] theorem State.clearDone_seqSt (s : State) : s.clearDone.seqSt = s.seqSt := rfl
@[simp] theorem State.clearDone_seqPc (s : State) : s.clearDone.seqPc = s.seqPc := rfl
@[simp] theorem State.clearDone_dly (s : State) : s.clearDone.dly = s.dly := rfl
@[simp] theorem State.clearDone_segKind (s : State) : s.clearDone.segKind = s.segKind := rfl
@[simp] theorem State.clearDone_rowA (s : State) : s.clearDone.rowA = s.rowA := rfl
@[simp] theorem State.clearDone_rowB (s : State) : s.clearDone.rowB = s.rowB := rfl
@[simp] theorem State.clearDone_pixIdx (s : State) : s.clearDone.pixIdx = s.pixIdx := rfl
@[simp] theorem State.clearDone_done (s : State) : s.clearDone.done = false := rfl
@[simp] theorem State.clearDone_armed (s : State) : s.clearDone.armed = s.armed := rfl
@[simp] theorem State.clearDone_pixt (s : State) : s.clearDone.pixt = s.pixt := rfl
@[simp] theorem State.clearDone_toneEn (s : State) : s.clearDone.toneEn = s.toneEn := rfl
@[simp] theorem State.clearDone_toneFreq (s : State) : s.clearDone.toneFreq = s.toneFreq := rfl
@[simp] theorem State.clearDone_ncoPhase (s : State) : s.clearDone.ncoPhase = s.ncoPhase := rfl
@[simp] theorem State.clearDone_time (s : State) : s.clearDone.time = s.time := rfl
@[simp] theorem State.clearDone_trace (s : State) : s.clearDone.trace = s.trace := rfl
@[simp] theorem State.clearDone_pix (s : State) : s.clearDone.pix = s.pix := rfl
@[simp] theorem State.clearDone_pixDirty (s : State) : s.clearDone.pixDirty = s.pixDirty := rfl
@[simp] theorem State.clearDone_srcW (s : State) : s.clearDone.srcW = s.srcW := rfl
@[simp] theorem State.clearDone_srcH (s : State) : s.clearDone.srcH = s.srcH := rfl
@[simp] theorem State.clearDone_prom (s : State) : s.clearDone.prom = s.prom := rfl
@[simp] theorem State.clearDone_rst (s : State) : s.clearDone.rst = s.rst := rfl
@[simp] theorem State.clearDone_hostq (s : State) : s.clearDone.hostq = s.hostq := rfl
@[simp] theorem State.clearDone_hostSeen (s : State) : s.clearDone.hostSeen = s.hostSeen := rfl
@[simp] theorem State.clearDone_ncoFrac (s : State) : s.clearDone.ncoFrac = s.ncoFrac := rfl
@[simp] theorem State.clearDone_freeCtr (s : State) : s.clearDone.freeCtr = s.freeCtr := rfl

/-! ### `DONE <- 1` (R24) -/

@[simp] theorem State.setDone_seqSt (s : State) : s.setDone.seqSt = s.seqSt := rfl
@[simp] theorem State.setDone_seqPc (s : State) : s.setDone.seqPc = s.seqPc := rfl
@[simp] theorem State.setDone_dly (s : State) : s.setDone.dly = s.dly := rfl
@[simp] theorem State.setDone_segKind (s : State) : s.setDone.segKind = s.segKind := rfl
@[simp] theorem State.setDone_rowA (s : State) : s.setDone.rowA = s.rowA := rfl
@[simp] theorem State.setDone_rowB (s : State) : s.setDone.rowB = s.rowB := rfl
@[simp] theorem State.setDone_pixIdx (s : State) : s.setDone.pixIdx = s.pixIdx := rfl
@[simp] theorem State.setDone_done (s : State) : s.setDone.done = true := rfl
@[simp] theorem State.setDone_armed (s : State) : s.setDone.armed = s.armed := rfl
@[simp] theorem State.setDone_pixt (s : State) : s.setDone.pixt = s.pixt := rfl
@[simp] theorem State.setDone_toneEn (s : State) : s.setDone.toneEn = s.toneEn := rfl
@[simp] theorem State.setDone_toneFreq (s : State) : s.setDone.toneFreq = s.toneFreq := rfl
@[simp] theorem State.setDone_ncoPhase (s : State) : s.setDone.ncoPhase = s.ncoPhase := rfl
@[simp] theorem State.setDone_time (s : State) : s.setDone.time = s.time := rfl
@[simp] theorem State.setDone_trace (s : State) : s.setDone.trace = s.trace := rfl
@[simp] theorem State.setDone_pix (s : State) : s.setDone.pix = s.pix := rfl
@[simp] theorem State.setDone_pixDirty (s : State) : s.setDone.pixDirty = s.pixDirty := rfl
@[simp] theorem State.setDone_srcW (s : State) : s.setDone.srcW = s.srcW := rfl
@[simp] theorem State.setDone_srcH (s : State) : s.setDone.srcH = s.srcH := rfl
@[simp] theorem State.setDone_prom (s : State) : s.setDone.prom = s.prom := rfl
@[simp] theorem State.setDone_rst (s : State) : s.setDone.rst = s.rst := rfl
@[simp] theorem State.setDone_hostq (s : State) : s.setDone.hostq = s.hostq := rfl
@[simp] theorem State.setDone_hostSeen (s : State) : s.setDone.hostSeen = s.hostSeen := rfl
@[simp] theorem State.setDone_ncoFrac (s : State) : s.setDone.ncoFrac = s.ncoFrac := rfl
@[simp] theorem State.setDone_freeCtr (s : State) : s.setDone.freeCtr = s.freeCtr := rfl

/-! ### `emit e` (R11) -/

@[simp] theorem State.emit_seqSt (s : State) (e : Event) : (s.emit e).seqSt = s.seqSt := rfl
@[simp] theorem State.emit_seqPc (s : State) (e : Event) : (s.emit e).seqPc = s.seqPc := rfl
@[simp] theorem State.emit_dly (s : State) (e : Event) : (s.emit e).dly = s.dly := rfl
@[simp] theorem State.emit_segKind (s : State) (e : Event) : (s.emit e).segKind = s.segKind := rfl
@[simp] theorem State.emit_rowA (s : State) (e : Event) : (s.emit e).rowA = s.rowA := rfl
@[simp] theorem State.emit_rowB (s : State) (e : Event) : (s.emit e).rowB = s.rowB := rfl
@[simp] theorem State.emit_pixIdx (s : State) (e : Event) : (s.emit e).pixIdx = s.pixIdx := rfl
@[simp] theorem State.emit_done (s : State) (e : Event) : (s.emit e).done = s.done := rfl
@[simp] theorem State.emit_armed (s : State) (e : Event) : (s.emit e).armed = s.armed := rfl
@[simp] theorem State.emit_pixt (s : State) (e : Event) : (s.emit e).pixt = s.pixt := rfl
@[simp] theorem State.emit_toneEn (s : State) (e : Event) : (s.emit e).toneEn = s.toneEn := rfl
@[simp] theorem State.emit_toneFreq (s : State) (e : Event) : (s.emit e).toneFreq = s.toneFreq := rfl
@[simp] theorem State.emit_ncoPhase (s : State) (e : Event) : (s.emit e).ncoPhase = s.ncoPhase := rfl
@[simp] theorem State.emit_time (s : State) (e : Event) : (s.emit e).time = s.time := rfl
@[simp] theorem State.emit_trace (s : State) (e : Event) : (s.emit e).trace = s.trace ++ [e] := rfl
@[simp] theorem State.emit_pix (s : State) (e : Event) : (s.emit e).pix = s.pix := rfl
@[simp] theorem State.emit_pixDirty (s : State) (e : Event) : (s.emit e).pixDirty = s.pixDirty := rfl
@[simp] theorem State.emit_srcW (s : State) (e : Event) : (s.emit e).srcW = s.srcW := rfl
@[simp] theorem State.emit_srcH (s : State) (e : Event) : (s.emit e).srcH = s.srcH := rfl
@[simp] theorem State.emit_prom (s : State) (e : Event) : (s.emit e).prom = s.prom := rfl
@[simp] theorem State.emit_rst (s : State) (e : Event) : (s.emit e).rst = s.rst := rfl
@[simp] theorem State.emit_hostq (s : State) (e : Event) : (s.emit e).hostq = s.hostq := rfl
@[simp] theorem State.emit_hostSeen (s : State) (e : Event) : (s.emit e).hostSeen = s.hostSeen := rfl
@[simp] theorem State.emit_ncoFrac (s : State) (e : Event) : (s.emit e).ncoFrac = s.ncoFrac := rfl
@[simp] theorem State.emit_freeCtr (s : State) (e : Event) : (s.emit e).freeCtr = s.freeCtr := rfl

/-! ### `setFrequency(hz)` (R31) -/

@[simp] theorem State.setTone_seqSt (s : State) (hz : BitVec 16) : (s.setTone hz).seqSt = s.seqSt := rfl
@[simp] theorem State.setTone_seqPc (s : State) (hz : BitVec 16) : (s.setTone hz).seqPc = s.seqPc := rfl
@[simp] theorem State.setTone_dly (s : State) (hz : BitVec 16) : (s.setTone hz).dly = s.dly := rfl
@[simp] theorem State.setTone_segKind (s : State) (hz : BitVec 16) : (s.setTone hz).segKind = s.segKind := rfl
@[simp] theorem State.setTone_rowA (s : State) (hz : BitVec 16) : (s.setTone hz).rowA = s.rowA := rfl
@[simp] theorem State.setTone_rowB (s : State) (hz : BitVec 16) : (s.setTone hz).rowB = s.rowB := rfl
@[simp] theorem State.setTone_pixIdx (s : State) (hz : BitVec 16) : (s.setTone hz).pixIdx = s.pixIdx := rfl
@[simp] theorem State.setTone_done (s : State) (hz : BitVec 16) : (s.setTone hz).done = s.done := rfl
@[simp] theorem State.setTone_armed (s : State) (hz : BitVec 16) : (s.setTone hz).armed = s.armed := rfl
@[simp] theorem State.setTone_pixt (s : State) (hz : BitVec 16) : (s.setTone hz).pixt = s.pixt := rfl
@[simp] theorem State.setTone_toneEn (s : State) (hz : BitVec 16) : (s.setTone hz).toneEn = true := rfl
@[simp] theorem State.setTone_toneFreq (s : State) (hz : BitVec 16) : (s.setTone hz).toneFreq = hz := rfl
@[simp] theorem State.setTone_ncoPhase (s : State) (hz : BitVec 16) : (s.setTone hz).ncoPhase = s.ncoPhase := rfl
@[simp] theorem State.setTone_time (s : State) (hz : BitVec 16) : (s.setTone hz).time = s.time := rfl
@[simp] theorem State.setTone_trace (s : State) (hz : BitVec 16) : (s.setTone hz).trace = s.trace ++ [.setFreq s.time hz] := rfl
@[simp] theorem State.setTone_pix (s : State) (hz : BitVec 16) : (s.setTone hz).pix = s.pix := rfl
@[simp] theorem State.setTone_pixDirty (s : State) (hz : BitVec 16) : (s.setTone hz).pixDirty = s.pixDirty := rfl
@[simp] theorem State.setTone_srcW (s : State) (hz : BitVec 16) : (s.setTone hz).srcW = s.srcW := rfl
@[simp] theorem State.setTone_srcH (s : State) (hz : BitVec 16) : (s.setTone hz).srcH = s.srcH := rfl
@[simp] theorem State.setTone_prom (s : State) (hz : BitVec 16) : (s.setTone hz).prom = s.prom := rfl
@[simp] theorem State.setTone_rst (s : State) (hz : BitVec 16) : (s.setTone hz).rst = s.rst := rfl
@[simp] theorem State.setTone_hostq (s : State) (hz : BitVec 16) : (s.setTone hz).hostq = s.hostq := rfl
@[simp] theorem State.setTone_hostSeen (s : State) (hz : BitVec 16) : (s.setTone hz).hostSeen = s.hostSeen := rfl
@[simp] theorem State.setTone_ncoFrac (s : State) (hz : BitVec 16) : (s.setTone hz).ncoFrac = s.ncoFrac := rfl
@[simp] theorem State.setTone_freeCtr (s : State) (hz : BitVec 16) : (s.setTone hz).freeCtr = s.freeCtr := rfl

/-! ### `stop()` (R31) -/

@[simp] theorem State.stopTone_seqSt (s : State) : s.stopTone.seqSt = s.seqSt := rfl
@[simp] theorem State.stopTone_seqPc (s : State) : s.stopTone.seqPc = s.seqPc := rfl
@[simp] theorem State.stopTone_dly (s : State) : s.stopTone.dly = s.dly := rfl
@[simp] theorem State.stopTone_segKind (s : State) : s.stopTone.segKind = s.segKind := rfl
@[simp] theorem State.stopTone_rowA (s : State) : s.stopTone.rowA = s.rowA := rfl
@[simp] theorem State.stopTone_rowB (s : State) : s.stopTone.rowB = s.rowB := rfl
@[simp] theorem State.stopTone_pixIdx (s : State) : s.stopTone.pixIdx = s.pixIdx := rfl
@[simp] theorem State.stopTone_done (s : State) : s.stopTone.done = s.done := rfl
@[simp] theorem State.stopTone_armed (s : State) : s.stopTone.armed = s.armed := rfl
@[simp] theorem State.stopTone_pixt (s : State) : s.stopTone.pixt = s.pixt := rfl
@[simp] theorem State.stopTone_toneEn (s : State) : s.stopTone.toneEn = false := rfl
@[simp] theorem State.stopTone_toneFreq (s : State) : s.stopTone.toneFreq = 0#16 := rfl
@[simp] theorem State.stopTone_ncoPhase (s : State) : s.stopTone.ncoPhase = 0#32 := rfl
@[simp] theorem State.stopTone_time (s : State) : s.stopTone.time = s.time := rfl
@[simp] theorem State.stopTone_trace (s : State) : s.stopTone.trace = s.trace ++ [.stop s.time] := rfl
@[simp] theorem State.stopTone_pix (s : State) : s.stopTone.pix = s.pix := rfl
@[simp] theorem State.stopTone_pixDirty (s : State) : s.stopTone.pixDirty = s.pixDirty := rfl
@[simp] theorem State.stopTone_srcW (s : State) : s.stopTone.srcW = s.srcW := rfl
@[simp] theorem State.stopTone_srcH (s : State) : s.stopTone.srcH = s.srcH := rfl
@[simp] theorem State.stopTone_prom (s : State) : s.stopTone.prom = s.prom := rfl
@[simp] theorem State.stopTone_rst (s : State) : s.stopTone.rst = s.rst := rfl
@[simp] theorem State.stopTone_hostq (s : State) : s.stopTone.hostq = s.hostq := rfl
@[simp] theorem State.stopTone_hostSeen (s : State) : s.stopTone.hostSeen = s.hostSeen := rfl
@[simp] theorem State.stopTone_ncoFrac (s : State) : s.stopTone.ncoFrac = s.ncoFrac := rfl
@[simp] theorem State.stopTone_freeCtr (s : State) : s.stopTone.freeCtr = s.freeCtr := rfl

/-! ### `SEQ_ST <- v` -/

@[simp] theorem State.goto_seqSt (s : State) (v : SeqSt) : (s.goto v).seqSt = v := rfl
@[simp] theorem State.goto_seqPc (s : State) (v : SeqSt) : (s.goto v).seqPc = s.seqPc := rfl
@[simp] theorem State.goto_dly (s : State) (v : SeqSt) : (s.goto v).dly = s.dly := rfl
@[simp] theorem State.goto_segKind (s : State) (v : SeqSt) : (s.goto v).segKind = s.segKind := rfl
@[simp] theorem State.goto_rowA (s : State) (v : SeqSt) : (s.goto v).rowA = s.rowA := rfl
@[simp] theorem State.goto_rowB (s : State) (v : SeqSt) : (s.goto v).rowB = s.rowB := rfl
@[simp] theorem State.goto_pixIdx (s : State) (v : SeqSt) : (s.goto v).pixIdx = s.pixIdx := rfl
@[simp] theorem State.goto_done (s : State) (v : SeqSt) : (s.goto v).done = s.done := rfl
@[simp] theorem State.goto_armed (s : State) (v : SeqSt) : (s.goto v).armed = s.armed := rfl
@[simp] theorem State.goto_pixt (s : State) (v : SeqSt) : (s.goto v).pixt = s.pixt := rfl
@[simp] theorem State.goto_toneEn (s : State) (v : SeqSt) : (s.goto v).toneEn = s.toneEn := rfl
@[simp] theorem State.goto_toneFreq (s : State) (v : SeqSt) : (s.goto v).toneFreq = s.toneFreq := rfl
@[simp] theorem State.goto_ncoPhase (s : State) (v : SeqSt) : (s.goto v).ncoPhase = s.ncoPhase := rfl
@[simp] theorem State.goto_time (s : State) (v : SeqSt) : (s.goto v).time = s.time := rfl
@[simp] theorem State.goto_trace (s : State) (v : SeqSt) : (s.goto v).trace = s.trace := rfl
@[simp] theorem State.goto_pix (s : State) (v : SeqSt) : (s.goto v).pix = s.pix := rfl
@[simp] theorem State.goto_pixDirty (s : State) (v : SeqSt) : (s.goto v).pixDirty = s.pixDirty := rfl
@[simp] theorem State.goto_srcW (s : State) (v : SeqSt) : (s.goto v).srcW = s.srcW := rfl
@[simp] theorem State.goto_srcH (s : State) (v : SeqSt) : (s.goto v).srcH = s.srcH := rfl
@[simp] theorem State.goto_prom (s : State) (v : SeqSt) : (s.goto v).prom = s.prom := rfl
@[simp] theorem State.goto_rst (s : State) (v : SeqSt) : (s.goto v).rst = s.rst := rfl
@[simp] theorem State.goto_hostq (s : State) (v : SeqSt) : (s.goto v).hostq = s.hostq := rfl
@[simp] theorem State.goto_hostSeen (s : State) (v : SeqSt) : (s.goto v).hostSeen = s.hostSeen := rfl
@[simp] theorem State.goto_ncoFrac (s : State) (v : SeqSt) : (s.goto v).ncoFrac = s.ncoFrac := rfl
@[simp] theorem State.goto_freeCtr (s : State) (v : SeqSt) : (s.goto v).freeCtr = s.freeCtr := rfl

/-! ### `arm` (R26) -/

@[simp] theorem State.arm_seqSt (s : State) : s.arm.seqSt = s.seqSt := rfl
@[simp] theorem State.arm_seqPc (s : State) : s.arm.seqPc = s.seqPc := rfl
@[simp] theorem State.arm_dly (s : State) : s.arm.dly = s.dly := rfl
@[simp] theorem State.arm_segKind (s : State) : s.arm.segKind = s.segKind := rfl
@[simp] theorem State.arm_rowA (s : State) : s.arm.rowA = s.rowA := rfl
@[simp] theorem State.arm_rowB (s : State) : s.arm.rowB = s.rowB := rfl
@[simp] theorem State.arm_pixIdx (s : State) : s.arm.pixIdx = s.pixIdx := rfl
@[simp] theorem State.arm_done (s : State) : s.arm.done = s.done := rfl
@[simp] theorem State.arm_armed (s : State) : s.arm.armed = true := rfl
@[simp] theorem State.arm_pixt (s : State) : s.arm.pixt = 190#8 := rfl
@[simp] theorem State.arm_toneEn (s : State) : s.arm.toneEn = s.toneEn := rfl
@[simp] theorem State.arm_toneFreq (s : State) : s.arm.toneFreq = s.toneFreq := rfl
@[simp] theorem State.arm_ncoPhase (s : State) : s.arm.ncoPhase = s.ncoPhase := rfl
@[simp] theorem State.arm_time (s : State) : s.arm.time = s.time := rfl
@[simp] theorem State.arm_trace (s : State) : s.arm.trace = s.trace := rfl
@[simp] theorem State.arm_pix (s : State) : s.arm.pix = s.pix := rfl
@[simp] theorem State.arm_pixDirty (s : State) : s.arm.pixDirty = s.pixDirty := rfl
@[simp] theorem State.arm_srcW (s : State) : s.arm.srcW = s.srcW := rfl
@[simp] theorem State.arm_srcH (s : State) : s.arm.srcH = s.srcH := rfl
@[simp] theorem State.arm_prom (s : State) : s.arm.prom = s.prom := rfl
@[simp] theorem State.arm_rst (s : State) : s.arm.rst = s.rst := rfl
@[simp] theorem State.arm_hostq (s : State) : s.arm.hostq = s.hostq := rfl
@[simp] theorem State.arm_hostSeen (s : State) : s.arm.hostSeen = s.hostSeen := rfl
@[simp] theorem State.arm_ncoFrac (s : State) : s.arm.ncoFrac = s.ncoFrac := rfl
@[simp] theorem State.arm_freeCtr (s : State) : s.arm.freeCtr = s.freeCtr := rfl

/-! ### `disarm` (R26) -/

@[simp] theorem State.disarm_seqSt (s : State) : s.disarm.seqSt = s.seqSt := rfl
@[simp] theorem State.disarm_seqPc (s : State) : s.disarm.seqPc = s.seqPc := rfl
@[simp] theorem State.disarm_dly (s : State) : s.disarm.dly = s.dly := rfl
@[simp] theorem State.disarm_segKind (s : State) : s.disarm.segKind = s.segKind := rfl
@[simp] theorem State.disarm_rowA (s : State) : s.disarm.rowA = s.rowA := rfl
@[simp] theorem State.disarm_rowB (s : State) : s.disarm.rowB = s.rowB := rfl
@[simp] theorem State.disarm_pixIdx (s : State) : s.disarm.pixIdx = s.pixIdx := rfl
@[simp] theorem State.disarm_done (s : State) : s.disarm.done = s.done := rfl
@[simp] theorem State.disarm_armed (s : State) : s.disarm.armed = false := rfl
@[simp] theorem State.disarm_pixt (s : State) : s.disarm.pixt = s.pixt := rfl
@[simp] theorem State.disarm_toneEn (s : State) : s.disarm.toneEn = s.toneEn := rfl
@[simp] theorem State.disarm_toneFreq (s : State) : s.disarm.toneFreq = s.toneFreq := rfl
@[simp] theorem State.disarm_ncoPhase (s : State) : s.disarm.ncoPhase = s.ncoPhase := rfl
@[simp] theorem State.disarm_time (s : State) : s.disarm.time = s.time := rfl
@[simp] theorem State.disarm_trace (s : State) : s.disarm.trace = s.trace := rfl
@[simp] theorem State.disarm_pix (s : State) : s.disarm.pix = s.pix := rfl
@[simp] theorem State.disarm_pixDirty (s : State) : s.disarm.pixDirty = s.pixDirty := rfl
@[simp] theorem State.disarm_srcW (s : State) : s.disarm.srcW = s.srcW := rfl
@[simp] theorem State.disarm_srcH (s : State) : s.disarm.srcH = s.srcH := rfl
@[simp] theorem State.disarm_prom (s : State) : s.disarm.prom = s.prom := rfl
@[simp] theorem State.disarm_rst (s : State) : s.disarm.rst = s.rst := rfl
@[simp] theorem State.disarm_hostq (s : State) : s.disarm.hostq = s.hostq := rfl
@[simp] theorem State.disarm_hostSeen (s : State) : s.disarm.hostSeen = s.hostSeen := rfl
@[simp] theorem State.disarm_ncoFrac (s : State) : s.disarm.ncoFrac = s.ncoFrac := rfl
@[simp] theorem State.disarm_freeCtr (s : State) : s.disarm.freeCtr = s.freeCtr := rfl

/-! ### Writing the segment (R134) -/

@[simp] theorem State.setSegment_seqSt (s : State) (k : SegKind) (a : BitVec 12) (b : BitVec 12) : (s.setSegment k a b).seqSt = s.seqSt := rfl
@[simp] theorem State.setSegment_seqPc (s : State) (k : SegKind) (a : BitVec 12) (b : BitVec 12) : (s.setSegment k a b).seqPc = s.seqPc := rfl
@[simp] theorem State.setSegment_dly (s : State) (k : SegKind) (a : BitVec 12) (b : BitVec 12) : (s.setSegment k a b).dly = s.dly := rfl
@[simp] theorem State.setSegment_segKind (s : State) (k : SegKind) (a : BitVec 12) (b : BitVec 12) : (s.setSegment k a b).segKind = k := rfl
@[simp] theorem State.setSegment_rowA (s : State) (k : SegKind) (a : BitVec 12) (b : BitVec 12) : (s.setSegment k a b).rowA = a := rfl
@[simp] theorem State.setSegment_rowB (s : State) (k : SegKind) (a : BitVec 12) (b : BitVec 12) : (s.setSegment k a b).rowB = b := rfl
@[simp] theorem State.setSegment_pixIdx (s : State) (k : SegKind) (a : BitVec 12) (b : BitVec 12) : (s.setSegment k a b).pixIdx = 0#10 := rfl
@[simp] theorem State.setSegment_done (s : State) (k : SegKind) (a : BitVec 12) (b : BitVec 12) : (s.setSegment k a b).done = s.done := rfl
@[simp] theorem State.setSegment_armed (s : State) (k : SegKind) (a : BitVec 12) (b : BitVec 12) : (s.setSegment k a b).armed = s.armed := rfl
@[simp] theorem State.setSegment_pixt (s : State) (k : SegKind) (a : BitVec 12) (b : BitVec 12) : (s.setSegment k a b).pixt = s.pixt := rfl
@[simp] theorem State.setSegment_toneEn (s : State) (k : SegKind) (a : BitVec 12) (b : BitVec 12) : (s.setSegment k a b).toneEn = s.toneEn := rfl
@[simp] theorem State.setSegment_toneFreq (s : State) (k : SegKind) (a : BitVec 12) (b : BitVec 12) : (s.setSegment k a b).toneFreq = s.toneFreq := rfl
@[simp] theorem State.setSegment_ncoPhase (s : State) (k : SegKind) (a : BitVec 12) (b : BitVec 12) : (s.setSegment k a b).ncoPhase = s.ncoPhase := rfl
@[simp] theorem State.setSegment_time (s : State) (k : SegKind) (a : BitVec 12) (b : BitVec 12) : (s.setSegment k a b).time = s.time := rfl
@[simp] theorem State.setSegment_trace (s : State) (k : SegKind) (a : BitVec 12) (b : BitVec 12) : (s.setSegment k a b).trace = s.trace := rfl
@[simp] theorem State.setSegment_pix (s : State) (k : SegKind) (a : BitVec 12) (b : BitVec 12) : (s.setSegment k a b).pix = s.pix := rfl
@[simp] theorem State.setSegment_pixDirty (s : State) (k : SegKind) (a : BitVec 12) (b : BitVec 12) : (s.setSegment k a b).pixDirty = s.pixDirty := rfl
@[simp] theorem State.setSegment_srcW (s : State) (k : SegKind) (a : BitVec 12) (b : BitVec 12) : (s.setSegment k a b).srcW = s.srcW := rfl
@[simp] theorem State.setSegment_srcH (s : State) (k : SegKind) (a : BitVec 12) (b : BitVec 12) : (s.setSegment k a b).srcH = s.srcH := rfl
@[simp] theorem State.setSegment_prom (s : State) (k : SegKind) (a : BitVec 12) (b : BitVec 12) : (s.setSegment k a b).prom = s.prom := rfl
@[simp] theorem State.setSegment_rst (s : State) (k : SegKind) (a : BitVec 12) (b : BitVec 12) : (s.setSegment k a b).rst = s.rst := rfl
@[simp] theorem State.setSegment_hostq (s : State) (k : SegKind) (a : BitVec 12) (b : BitVec 12) : (s.setSegment k a b).hostq = s.hostq := rfl
@[simp] theorem State.setSegment_hostSeen (s : State) (k : SegKind) (a : BitVec 12) (b : BitVec 12) : (s.setSegment k a b).hostSeen = s.hostSeen := rfl
@[simp] theorem State.setSegment_ncoFrac (s : State) (k : SegKind) (a : BitVec 12) (b : BitVec 12) : (s.setSegment k a b).ncoFrac = s.ncoFrac := rfl
@[simp] theorem State.setSegment_freeCtr (s : State) (k : SegKind) (a : BitVec 12) (b : BitVec 12) : (s.setSegment k a b).freeCtr = s.freeCtr := rfl

/-! ### Issue of a scan operation (R134) -/

@[simp] theorem State.issueScan_seqSt (s : State) (k : SegKind) (a : BitVec 12) (b : BitVec 12) : (s.issueScan k a b).seqSt = .segw := rfl
@[simp] theorem State.issueScan_seqPc (s : State) (k : SegKind) (a : BitVec 12) (b : BitVec 12) : (s.issueScan k a b).seqPc = s.seqPc := rfl
@[simp] theorem State.issueScan_dly (s : State) (k : SegKind) (a : BitVec 12) (b : BitVec 12) : (s.issueScan k a b).dly = s.dly := rfl
@[simp] theorem State.issueScan_segKind (s : State) (k : SegKind) (a : BitVec 12) (b : BitVec 12) : (s.issueScan k a b).segKind = k := rfl
@[simp] theorem State.issueScan_rowA (s : State) (k : SegKind) (a : BitVec 12) (b : BitVec 12) : (s.issueScan k a b).rowA = a := rfl
@[simp] theorem State.issueScan_rowB (s : State) (k : SegKind) (a : BitVec 12) (b : BitVec 12) : (s.issueScan k a b).rowB = b := rfl
@[simp] theorem State.issueScan_pixIdx (s : State) (k : SegKind) (a : BitVec 12) (b : BitVec 12) : (s.issueScan k a b).pixIdx = 0#10 := rfl
@[simp] theorem State.issueScan_done (s : State) (k : SegKind) (a : BitVec 12) (b : BitVec 12) : (s.issueScan k a b).done = false := rfl
@[simp] theorem State.issueScan_armed (s : State) (k : SegKind) (a : BitVec 12) (b : BitVec 12) : (s.issueScan k a b).armed = true := rfl
@[simp] theorem State.issueScan_pixt (s : State) (k : SegKind) (a : BitVec 12) (b : BitVec 12) : (s.issueScan k a b).pixt = 190#8 := rfl
@[simp] theorem State.issueScan_toneEn (s : State) (k : SegKind) (a : BitVec 12) (b : BitVec 12) : (s.issueScan k a b).toneEn = s.toneEn := rfl
@[simp] theorem State.issueScan_toneFreq (s : State) (k : SegKind) (a : BitVec 12) (b : BitVec 12) : (s.issueScan k a b).toneFreq = s.toneFreq := rfl
@[simp] theorem State.issueScan_ncoPhase (s : State) (k : SegKind) (a : BitVec 12) (b : BitVec 12) : (s.issueScan k a b).ncoPhase = s.ncoPhase := rfl
@[simp] theorem State.issueScan_time (s : State) (k : SegKind) (a : BitVec 12) (b : BitVec 12) : (s.issueScan k a b).time = s.time := rfl
@[simp] theorem State.issueScan_trace (s : State) (k : SegKind) (a : BitVec 12) (b : BitVec 12) : (s.issueScan k a b).trace = s.trace := rfl
@[simp] theorem State.issueScan_pix (s : State) (k : SegKind) (a : BitVec 12) (b : BitVec 12) : (s.issueScan k a b).pix = s.pix := rfl
@[simp] theorem State.issueScan_pixDirty (s : State) (k : SegKind) (a : BitVec 12) (b : BitVec 12) : (s.issueScan k a b).pixDirty = s.pixDirty := rfl
@[simp] theorem State.issueScan_srcW (s : State) (k : SegKind) (a : BitVec 12) (b : BitVec 12) : (s.issueScan k a b).srcW = s.srcW := rfl
@[simp] theorem State.issueScan_srcH (s : State) (k : SegKind) (a : BitVec 12) (b : BitVec 12) : (s.issueScan k a b).srcH = s.srcH := rfl
@[simp] theorem State.issueScan_prom (s : State) (k : SegKind) (a : BitVec 12) (b : BitVec 12) : (s.issueScan k a b).prom = s.prom := rfl
@[simp] theorem State.issueScan_rst (s : State) (k : SegKind) (a : BitVec 12) (b : BitVec 12) : (s.issueScan k a b).rst = s.rst := rfl
@[simp] theorem State.issueScan_hostq (s : State) (k : SegKind) (a : BitVec 12) (b : BitVec 12) : (s.issueScan k a b).hostq = s.hostq := rfl
@[simp] theorem State.issueScan_hostSeen (s : State) (k : SegKind) (a : BitVec 12) (b : BitVec 12) : (s.issueScan k a b).hostSeen = s.hostSeen := rfl
@[simp] theorem State.issueScan_ncoFrac (s : State) (k : SegKind) (a : BitVec 12) (b : BitVec 12) : (s.issueScan k a b).ncoFrac = s.ncoFrac := rfl
@[simp] theorem State.issueScan_freeCtr (s : State) (k : SegKind) (a : BitVec 12) (b : BitVec 12) : (s.issueScan k a b).freeCtr = s.freeCtr := rfl

/-! ### `pc <- pc + 1` (R29) -/

@[simp] theorem State.advancePc_seqSt (s : State) : s.advancePc.seqSt = s.seqSt := by unfold State.advancePc; split <;> rfl
@[simp] theorem State.advancePc_dly (s : State) : s.advancePc.dly = s.dly := by unfold State.advancePc; split <;> rfl
@[simp] theorem State.advancePc_segKind (s : State) : s.advancePc.segKind = s.segKind := by unfold State.advancePc; split <;> rfl
@[simp] theorem State.advancePc_rowA (s : State) : s.advancePc.rowA = s.rowA := by unfold State.advancePc; split <;> rfl
@[simp] theorem State.advancePc_rowB (s : State) : s.advancePc.rowB = s.rowB := by unfold State.advancePc; split <;> rfl
@[simp] theorem State.advancePc_pixIdx (s : State) : s.advancePc.pixIdx = s.pixIdx := by unfold State.advancePc; split <;> rfl
@[simp] theorem State.advancePc_done (s : State) : s.advancePc.done = s.done := by unfold State.advancePc; split <;> rfl
@[simp] theorem State.advancePc_armed (s : State) : s.advancePc.armed = s.armed := by unfold State.advancePc; split <;> rfl
@[simp] theorem State.advancePc_pixt (s : State) : s.advancePc.pixt = s.pixt := by unfold State.advancePc; split <;> rfl
@[simp] theorem State.advancePc_toneEn (s : State) : s.advancePc.toneEn = s.toneEn := by unfold State.advancePc; split <;> rfl
@[simp] theorem State.advancePc_toneFreq (s : State) : s.advancePc.toneFreq = s.toneFreq := by unfold State.advancePc; split <;> rfl
@[simp] theorem State.advancePc_ncoPhase (s : State) : s.advancePc.ncoPhase = s.ncoPhase := by unfold State.advancePc; split <;> rfl
@[simp] theorem State.advancePc_time (s : State) : s.advancePc.time = s.time := by unfold State.advancePc; split <;> rfl
@[simp] theorem State.advancePc_trace (s : State) : s.advancePc.trace = s.trace := by unfold State.advancePc; split <;> rfl
@[simp] theorem State.advancePc_pix (s : State) : s.advancePc.pix = s.pix := by unfold State.advancePc; split <;> rfl
@[simp] theorem State.advancePc_pixDirty (s : State) : s.advancePc.pixDirty = s.pixDirty := by unfold State.advancePc; split <;> rfl
@[simp] theorem State.advancePc_srcW (s : State) : s.advancePc.srcW = s.srcW := by unfold State.advancePc; split <;> rfl
@[simp] theorem State.advancePc_srcH (s : State) : s.advancePc.srcH = s.srcH := by unfold State.advancePc; split <;> rfl
@[simp] theorem State.advancePc_prom (s : State) : s.advancePc.prom = s.prom := by unfold State.advancePc; split <;> rfl
@[simp] theorem State.advancePc_rst (s : State) : s.advancePc.rst = s.rst := by unfold State.advancePc; split <;> rfl
@[simp] theorem State.advancePc_hostq (s : State) : s.advancePc.hostq = s.hostq := by unfold State.advancePc; split <;> rfl
@[simp] theorem State.advancePc_hostSeen (s : State) : s.advancePc.hostSeen = s.hostSeen := by unfold State.advancePc; split <;> rfl
@[simp] theorem State.advancePc_ncoFrac (s : State) : s.advancePc.ncoFrac = s.ncoFrac := by unfold State.advancePc; split <;> rfl

/-! ### `WaitEnd` (R162) -/

@[simp] theorem State.waitEnd_seqSt (s : State) : s.waitEnd.seqSt = .rdy := by simp [State.waitEnd]
@[simp] theorem State.waitEnd_dly (s : State) : s.waitEnd.dly = s.dly := by simp [State.waitEnd]
@[simp] theorem State.waitEnd_segKind (s : State) : s.waitEnd.segKind = s.segKind := by simp [State.waitEnd]
@[simp] theorem State.waitEnd_rowA (s : State) : s.waitEnd.rowA = s.rowA := by simp [State.waitEnd]
@[simp] theorem State.waitEnd_rowB (s : State) : s.waitEnd.rowB = s.rowB := by simp [State.waitEnd]
@[simp] theorem State.waitEnd_pixIdx (s : State) : s.waitEnd.pixIdx = s.pixIdx := by simp [State.waitEnd]
@[simp] theorem State.waitEnd_done (s : State) : s.waitEnd.done = s.done := by simp [State.waitEnd]
@[simp] theorem State.waitEnd_armed (s : State) : s.waitEnd.armed = s.armed := by simp [State.waitEnd]
@[simp] theorem State.waitEnd_pixt (s : State) : s.waitEnd.pixt = s.pixt := by simp [State.waitEnd]
@[simp] theorem State.waitEnd_toneEn (s : State) : s.waitEnd.toneEn = s.toneEn := by simp [State.waitEnd]
@[simp] theorem State.waitEnd_toneFreq (s : State) : s.waitEnd.toneFreq = s.toneFreq := by simp [State.waitEnd]
@[simp] theorem State.waitEnd_ncoPhase (s : State) : s.waitEnd.ncoPhase = s.ncoPhase := by simp [State.waitEnd]
@[simp] theorem State.waitEnd_time (s : State) : s.waitEnd.time = s.time := by simp [State.waitEnd]
@[simp] theorem State.waitEnd_trace (s : State) : s.waitEnd.trace = s.trace := by simp [State.waitEnd]
@[simp] theorem State.waitEnd_pix (s : State) : s.waitEnd.pix = s.pix := by simp [State.waitEnd]
@[simp] theorem State.waitEnd_pixDirty (s : State) : s.waitEnd.pixDirty = s.pixDirty := by simp [State.waitEnd]
@[simp] theorem State.waitEnd_srcW (s : State) : s.waitEnd.srcW = s.srcW := by simp [State.waitEnd]
@[simp] theorem State.waitEnd_srcH (s : State) : s.waitEnd.srcH = s.srcH := by simp [State.waitEnd]
@[simp] theorem State.waitEnd_prom (s : State) : s.waitEnd.prom = s.prom := by simp [State.waitEnd]
@[simp] theorem State.waitEnd_rst (s : State) : s.waitEnd.rst = s.rst := by simp [State.waitEnd]
@[simp] theorem State.waitEnd_hostq (s : State) : s.waitEnd.hostq = s.hostq := by simp [State.waitEnd]
@[simp] theorem State.waitEnd_hostSeen (s : State) : s.waitEnd.hostSeen = s.hostSeen := by simp [State.waitEnd]
@[simp] theorem State.waitEnd_ncoFrac (s : State) : s.waitEnd.ncoFrac = s.ncoFrac := by simp [State.waitEnd]

/-! ### `SegEnd` (R143) -/

@[simp] theorem State.segEnd_seqSt (s : State) : s.segEnd.seqSt = .rdy := by simp [State.segEnd]
@[simp] theorem State.segEnd_dly (s : State) : s.segEnd.dly = s.dly := by simp [State.segEnd]
@[simp] theorem State.segEnd_segKind (s : State) : s.segEnd.segKind = s.segKind := by simp [State.segEnd]
@[simp] theorem State.segEnd_rowA (s : State) : s.segEnd.rowA = s.rowA := by simp [State.segEnd]
@[simp] theorem State.segEnd_rowB (s : State) : s.segEnd.rowB = s.rowB := by simp [State.segEnd]
@[simp] theorem State.segEnd_pixIdx (s : State) : s.segEnd.pixIdx = s.pixIdx := by simp [State.segEnd]
@[simp] theorem State.segEnd_done (s : State) : s.segEnd.done = s.done := by simp [State.segEnd]
@[simp] theorem State.segEnd_armed (s : State) : s.segEnd.armed = s.armed := by simp [State.segEnd]
@[simp] theorem State.segEnd_pixt (s : State) : s.segEnd.pixt = s.pixt := by simp [State.segEnd]
@[simp] theorem State.segEnd_toneEn (s : State) : s.segEnd.toneEn = s.toneEn := by simp [State.segEnd]
@[simp] theorem State.segEnd_toneFreq (s : State) : s.segEnd.toneFreq = s.toneFreq := by simp [State.segEnd]
@[simp] theorem State.segEnd_ncoPhase (s : State) : s.segEnd.ncoPhase = s.ncoPhase := by simp [State.segEnd]
@[simp] theorem State.segEnd_time (s : State) : s.segEnd.time = s.time := by simp [State.segEnd]
@[simp] theorem State.segEnd_trace (s : State) : s.segEnd.trace = s.trace := by simp [State.segEnd]
@[simp] theorem State.segEnd_pix (s : State) : s.segEnd.pix = s.pix := by simp [State.segEnd]
@[simp] theorem State.segEnd_pixDirty (s : State) : s.segEnd.pixDirty = s.pixDirty := by simp [State.segEnd]
@[simp] theorem State.segEnd_srcW (s : State) : s.segEnd.srcW = s.srcW := by simp [State.segEnd]
@[simp] theorem State.segEnd_srcH (s : State) : s.segEnd.srcH = s.srcH := by simp [State.segEnd]
@[simp] theorem State.segEnd_prom (s : State) : s.segEnd.prom = s.prom := by simp [State.segEnd]
@[simp] theorem State.segEnd_rst (s : State) : s.segEnd.rst = s.rst := by simp [State.segEnd]
@[simp] theorem State.segEnd_hostq (s : State) : s.segEnd.hostq = s.hostq := by simp [State.segEnd]
@[simp] theorem State.segEnd_hostSeen (s : State) : s.segEnd.hostSeen = s.hostSeen := by simp [State.segEnd]
@[simp] theorem State.segEnd_ncoFrac (s : State) : s.segEnd.ncoFrac = s.ncoFrac := by simp [State.segEnd]

/-! ### The index of a callback (R136) -/

@[simp] theorem State.bumpIndex_seqSt (s : State) : s.bumpIndex.seqSt = s.seqSt := by unfold State.bumpIndex; split <;> rfl
@[simp] theorem State.bumpIndex_seqPc (s : State) : s.bumpIndex.seqPc = s.seqPc := by unfold State.bumpIndex; split <;> rfl
@[simp] theorem State.bumpIndex_dly (s : State) : s.bumpIndex.dly = s.dly := by unfold State.bumpIndex; split <;> rfl
@[simp] theorem State.bumpIndex_segKind (s : State) : s.bumpIndex.segKind = s.segKind := by unfold State.bumpIndex; split <;> rfl
@[simp] theorem State.bumpIndex_rowA (s : State) : s.bumpIndex.rowA = s.rowA := by unfold State.bumpIndex; split <;> rfl
@[simp] theorem State.bumpIndex_rowB (s : State) : s.bumpIndex.rowB = s.rowB := by unfold State.bumpIndex; split <;> rfl
@[simp] theorem State.bumpIndex_toneEn (s : State) : s.bumpIndex.toneEn = s.toneEn := by unfold State.bumpIndex; split <;> rfl
@[simp] theorem State.bumpIndex_toneFreq (s : State) : s.bumpIndex.toneFreq = s.toneFreq := by unfold State.bumpIndex; split <;> rfl
@[simp] theorem State.bumpIndex_ncoPhase (s : State) : s.bumpIndex.ncoPhase = s.ncoPhase := by unfold State.bumpIndex; split <;> rfl
@[simp] theorem State.bumpIndex_time (s : State) : s.bumpIndex.time = s.time := by unfold State.bumpIndex; split <;> rfl
@[simp] theorem State.bumpIndex_trace (s : State) : s.bumpIndex.trace = s.trace := by unfold State.bumpIndex; split <;> rfl
@[simp] theorem State.bumpIndex_pix (s : State) : s.bumpIndex.pix = s.pix := by unfold State.bumpIndex; split <;> rfl
@[simp] theorem State.bumpIndex_pixDirty (s : State) : s.bumpIndex.pixDirty = s.pixDirty := by unfold State.bumpIndex; split <;> rfl
@[simp] theorem State.bumpIndex_srcW (s : State) : s.bumpIndex.srcW = s.srcW := by unfold State.bumpIndex; split <;> rfl
@[simp] theorem State.bumpIndex_srcH (s : State) : s.bumpIndex.srcH = s.srcH := by unfold State.bumpIndex; split <;> rfl
@[simp] theorem State.bumpIndex_prom (s : State) : s.bumpIndex.prom = s.prom := by unfold State.bumpIndex; split <;> rfl
@[simp] theorem State.bumpIndex_rst (s : State) : s.bumpIndex.rst = s.rst := by unfold State.bumpIndex; split <;> rfl
@[simp] theorem State.bumpIndex_hostq (s : State) : s.bumpIndex.hostq = s.hostq := by unfold State.bumpIndex; split <;> rfl
@[simp] theorem State.bumpIndex_hostSeen (s : State) : s.bumpIndex.hostSeen = s.hostSeen := by unfold State.bumpIndex; split <;> rfl
@[simp] theorem State.bumpIndex_ncoFrac (s : State) : s.bumpIndex.ncoFrac = s.ncoFrac := by unfold State.bumpIndex; split <;> rfl
@[simp] theorem State.bumpIndex_freeCtr (s : State) : s.bumpIndex.freeCtr = s.freeCtr := by unfold State.bumpIndex; split <;> rfl

/-! ### The tick (R46) -/

@[simp] theorem State.tick_seqSt (s : State) : s.tick.seqSt = s.seqSt := rfl
@[simp] theorem State.tick_seqPc (s : State) : s.tick.seqPc = s.seqPc := rfl
@[simp] theorem State.tick_dly (s : State) : s.tick.dly = if s.seqSt = .dlyw then s.dly - 1#28 else s.dly := rfl
@[simp] theorem State.tick_segKind (s : State) : s.tick.segKind = s.segKind := rfl
@[simp] theorem State.tick_rowA (s : State) : s.tick.rowA = s.rowA := rfl
@[simp] theorem State.tick_rowB (s : State) : s.tick.rowB = s.rowB := rfl
@[simp] theorem State.tick_pixIdx (s : State) : s.tick.pixIdx = s.pixIdx := rfl
@[simp] theorem State.tick_done (s : State) : s.tick.done = s.done := rfl
@[simp] theorem State.tick_armed (s : State) : s.tick.armed = s.armed := rfl
@[simp] theorem State.tick_pixt (s : State) : s.tick.pixt = if s.armed then s.pixt - 1#8 else s.pixt := rfl
@[simp] theorem State.tick_toneEn (s : State) : s.tick.toneEn = s.toneEn := rfl
@[simp] theorem State.tick_toneFreq (s : State) : s.tick.toneFreq = s.toneFreq := rfl
@[simp] theorem State.tick_ncoPhase (s : State) : s.tick.ncoPhase = s.ncoPhase := rfl
@[simp] theorem State.tick_time (s : State) : s.tick.time = s.time + 1 := rfl
@[simp] theorem State.tick_trace (s : State) : s.tick.trace = s.trace := rfl
@[simp] theorem State.tick_pix (s : State) : s.tick.pix = s.pix := rfl
@[simp] theorem State.tick_pixDirty (s : State) : s.tick.pixDirty = s.pixDirty := rfl
@[simp] theorem State.tick_srcW (s : State) : s.tick.srcW = s.srcW := rfl
@[simp] theorem State.tick_srcH (s : State) : s.tick.srcH = s.srcH := rfl
@[simp] theorem State.tick_prom (s : State) : s.tick.prom = s.prom := rfl
@[simp] theorem State.tick_rst (s : State) : s.tick.rst = s.rst := rfl
@[simp] theorem State.tick_hostq (s : State) : s.tick.hostq = s.hostq := rfl
@[simp] theorem State.tick_hostSeen (s : State) : s.tick.hostSeen = s.hostSeen := rfl
@[simp] theorem State.tick_ncoFrac (s : State) : s.tick.ncoFrac = s.ncoFrac := rfl
@[simp] theorem State.tick_freeCtr (s : State) : s.tick.freeCtr = s.freeCtr := rfl

/-! ### Reset (R261) -/

@[simp] theorem State.resetRegs_seqSt (s : State) : s.resetRegs.seqSt = .idle := rfl
@[simp] theorem State.resetRegs_seqPc (s : State) : s.resetRegs.seqPc = 0#11 := rfl
@[simp] theorem State.resetRegs_dly (s : State) : s.resetRegs.dly = 0#28 := rfl
@[simp] theorem State.resetRegs_segKind (s : State) : s.resetRegs.segKind = .none := rfl
@[simp] theorem State.resetRegs_rowA (s : State) : s.resetRegs.rowA = 0#12 := rfl
@[simp] theorem State.resetRegs_rowB (s : State) : s.resetRegs.rowB = 0#12 := rfl
@[simp] theorem State.resetRegs_pixIdx (s : State) : s.resetRegs.pixIdx = 0#10 := rfl
@[simp] theorem State.resetRegs_done (s : State) : s.resetRegs.done = false := rfl
@[simp] theorem State.resetRegs_armed (s : State) : s.resetRegs.armed = false := rfl
@[simp] theorem State.resetRegs_pixt (s : State) : s.resetRegs.pixt = 0#8 := rfl
@[simp] theorem State.resetRegs_toneEn (s : State) : s.resetRegs.toneEn = false := rfl
@[simp] theorem State.resetRegs_toneFreq (s : State) : s.resetRegs.toneFreq = 0#16 := rfl
@[simp] theorem State.resetRegs_ncoPhase (s : State) : s.resetRegs.ncoPhase = 0#32 := rfl
@[simp] theorem State.resetRegs_time (s : State) : s.resetRegs.time = s.time := rfl
@[simp] theorem State.resetRegs_trace (s : State) : s.resetRegs.trace = s.trace := rfl
@[simp] theorem State.resetRegs_pix (s : State) : s.resetRegs.pix = s.pix := rfl
@[simp] theorem State.resetRegs_pixDirty (s : State) : s.resetRegs.pixDirty = s.pixDirty := rfl
@[simp] theorem State.resetRegs_srcW (s : State) : s.resetRegs.srcW = s.srcW := rfl
@[simp] theorem State.resetRegs_srcH (s : State) : s.resetRegs.srcH = s.srcH := rfl
@[simp] theorem State.resetRegs_prom (s : State) : s.resetRegs.prom = s.prom := rfl
@[simp] theorem State.resetRegs_rst (s : State) : s.resetRegs.rst = s.rst := rfl
@[simp] theorem State.resetRegs_hostq (s : State) : s.resetRegs.hostq = s.hostq := rfl
@[simp] theorem State.resetRegs_hostSeen (s : State) : s.resetRegs.hostSeen = s.hostSeen := rfl
@[simp] theorem State.resetRegs_ncoFrac (s : State) : s.resetRegs.ncoFrac = s.ncoFrac := rfl
@[simp] theorem State.resetRegs_freeCtr (s : State) : s.resetRegs.freeCtr = s.freeCtr := rfl

/-! ### The NCO's updates of one microsecond (R220) -/

@[simp] theorem State.ncoRun_seqSt (s : State) : s.ncoRun.seqSt = s.seqSt := rfl
@[simp] theorem State.ncoRun_seqPc (s : State) : s.ncoRun.seqPc = s.seqPc := rfl
@[simp] theorem State.ncoRun_dly (s : State) : s.ncoRun.dly = s.dly := rfl
@[simp] theorem State.ncoRun_segKind (s : State) : s.ncoRun.segKind = s.segKind := rfl
@[simp] theorem State.ncoRun_rowA (s : State) : s.ncoRun.rowA = s.rowA := rfl
@[simp] theorem State.ncoRun_rowB (s : State) : s.ncoRun.rowB = s.rowB := rfl
@[simp] theorem State.ncoRun_pixIdx (s : State) : s.ncoRun.pixIdx = s.pixIdx := rfl
@[simp] theorem State.ncoRun_done (s : State) : s.ncoRun.done = s.done := rfl
@[simp] theorem State.ncoRun_armed (s : State) : s.ncoRun.armed = s.armed := rfl
@[simp] theorem State.ncoRun_pixt (s : State) : s.ncoRun.pixt = s.pixt := rfl
@[simp] theorem State.ncoRun_toneEn (s : State) : s.ncoRun.toneEn = s.toneEn := rfl
@[simp] theorem State.ncoRun_toneFreq (s : State) : s.ncoRun.toneFreq = s.toneFreq := rfl
@[simp] theorem State.ncoRun_ncoPhase (s : State) : s.ncoRun.ncoPhase = phaseAfter Config.fNco s.toneEn s.toneFreq (updatesIn Config.fNco s.ncoFrac) s.ncoPhase := rfl
@[simp] theorem State.ncoRun_time (s : State) : s.ncoRun.time = s.time := rfl
@[simp] theorem State.ncoRun_trace (s : State) : s.ncoRun.trace = s.trace := rfl
@[simp] theorem State.ncoRun_pix (s : State) : s.ncoRun.pix = s.pix := rfl
@[simp] theorem State.ncoRun_pixDirty (s : State) : s.ncoRun.pixDirty = s.pixDirty := rfl
@[simp] theorem State.ncoRun_srcW (s : State) : s.ncoRun.srcW = s.srcW := rfl
@[simp] theorem State.ncoRun_srcH (s : State) : s.ncoRun.srcH = s.srcH := rfl
@[simp] theorem State.ncoRun_prom (s : State) : s.ncoRun.prom = s.prom := rfl
@[simp] theorem State.ncoRun_rst (s : State) : s.ncoRun.rst = s.rst := rfl
@[simp] theorem State.ncoRun_hostq (s : State) : s.ncoRun.hostq = s.hostq := rfl
@[simp] theorem State.ncoRun_hostSeen (s : State) : s.ncoRun.hostSeen = s.hostSeen := rfl
@[simp] theorem State.ncoRun_ncoFrac (s : State) : s.ncoRun.ncoFrac = (s.ncoFrac + Config.fNco) % Config.usPerSecond := rfl
@[simp] theorem State.ncoRun_freeCtr (s : State) : s.ncoRun.freeCtr = s.freeCtr := rfl

/-! ### One microsecond of the block (R46, R220) -/

@[simp] theorem State.passTime_seqSt (s : State) : s.passTime.seqSt = s.seqSt := rfl
@[simp] theorem State.passTime_seqPc (s : State) : s.passTime.seqPc = s.seqPc := rfl
@[simp] theorem State.passTime_dly (s : State) : s.passTime.dly = if s.seqSt = .dlyw then s.dly - 1#28 else s.dly := rfl
@[simp] theorem State.passTime_segKind (s : State) : s.passTime.segKind = s.segKind := rfl
@[simp] theorem State.passTime_rowA (s : State) : s.passTime.rowA = s.rowA := rfl
@[simp] theorem State.passTime_rowB (s : State) : s.passTime.rowB = s.rowB := rfl
@[simp] theorem State.passTime_pixIdx (s : State) : s.passTime.pixIdx = s.pixIdx := rfl
@[simp] theorem State.passTime_done (s : State) : s.passTime.done = s.done := rfl
@[simp] theorem State.passTime_armed (s : State) : s.passTime.armed = s.armed := rfl
@[simp] theorem State.passTime_pixt (s : State) : s.passTime.pixt = if s.armed then s.pixt - 1#8 else s.pixt := rfl
@[simp] theorem State.passTime_toneEn (s : State) : s.passTime.toneEn = s.toneEn := rfl
@[simp] theorem State.passTime_toneFreq (s : State) : s.passTime.toneFreq = s.toneFreq := rfl
@[simp] theorem State.passTime_ncoPhase (s : State) : s.passTime.ncoPhase = phaseAfter Config.fNco s.toneEn s.toneFreq (updatesIn Config.fNco s.ncoFrac) s.ncoPhase := rfl
@[simp] theorem State.passTime_time (s : State) : s.passTime.time = s.time + 1 := rfl
@[simp] theorem State.passTime_trace (s : State) : s.passTime.trace = s.trace := rfl
@[simp] theorem State.passTime_pix (s : State) : s.passTime.pix = s.pix := rfl
@[simp] theorem State.passTime_pixDirty (s : State) : s.passTime.pixDirty = s.pixDirty := rfl
@[simp] theorem State.passTime_srcW (s : State) : s.passTime.srcW = s.srcW := rfl
@[simp] theorem State.passTime_srcH (s : State) : s.passTime.srcH = s.srcH := rfl
@[simp] theorem State.passTime_prom (s : State) : s.passTime.prom = s.prom := rfl
@[simp] theorem State.passTime_rst (s : State) : s.passTime.rst = s.rst := rfl
@[simp] theorem State.passTime_hostq (s : State) : s.passTime.hostq = s.hostq := rfl
@[simp] theorem State.passTime_hostSeen (s : State) : s.passTime.hostSeen = s.hostSeen := rfl
@[simp] theorem State.passTime_ncoFrac (s : State) : s.passTime.ncoFrac = (s.ncoFrac + Config.fNco) % Config.usPerSecond := rfl
@[simp] theorem State.passTime_freeCtr (s : State) : s.passTime.freeCtr = s.freeCtr := rfl

/-! ### A state seen without the NCO (R225) -/

@[simp] theorem State.dropNco_seqSt (s : State) : s.dropNco.seqSt = s.seqSt := rfl
@[simp] theorem State.dropNco_seqPc (s : State) : s.dropNco.seqPc = s.seqPc := rfl
@[simp] theorem State.dropNco_dly (s : State) : s.dropNco.dly = s.dly := rfl
@[simp] theorem State.dropNco_segKind (s : State) : s.dropNco.segKind = s.segKind := rfl
@[simp] theorem State.dropNco_rowA (s : State) : s.dropNco.rowA = s.rowA := rfl
@[simp] theorem State.dropNco_rowB (s : State) : s.dropNco.rowB = s.rowB := rfl
@[simp] theorem State.dropNco_pixIdx (s : State) : s.dropNco.pixIdx = s.pixIdx := rfl
@[simp] theorem State.dropNco_done (s : State) : s.dropNco.done = s.done := rfl
@[simp] theorem State.dropNco_armed (s : State) : s.dropNco.armed = s.armed := rfl
@[simp] theorem State.dropNco_pixt (s : State) : s.dropNco.pixt = s.pixt := rfl
@[simp] theorem State.dropNco_toneEn (s : State) : s.dropNco.toneEn = s.toneEn := rfl
@[simp] theorem State.dropNco_toneFreq (s : State) : s.dropNco.toneFreq = s.toneFreq := rfl
@[simp] theorem State.dropNco_ncoPhase (s : State) : s.dropNco.ncoPhase = 0#32 := rfl
@[simp] theorem State.dropNco_time (s : State) : s.dropNco.time = s.time := rfl
@[simp] theorem State.dropNco_trace (s : State) : s.dropNco.trace = s.trace := rfl
@[simp] theorem State.dropNco_pix (s : State) : s.dropNco.pix = s.pix := rfl
@[simp] theorem State.dropNco_pixDirty (s : State) : s.dropNco.pixDirty = s.pixDirty := rfl
@[simp] theorem State.dropNco_srcW (s : State) : s.dropNco.srcW = s.srcW := rfl
@[simp] theorem State.dropNco_srcH (s : State) : s.dropNco.srcH = s.srcH := rfl
@[simp] theorem State.dropNco_prom (s : State) : s.dropNco.prom = s.prom := rfl
@[simp] theorem State.dropNco_rst (s : State) : s.dropNco.rst = s.rst := rfl
@[simp] theorem State.dropNco_hostq (s : State) : s.dropNco.hostq = s.hostq := rfl
@[simp] theorem State.dropNco_hostSeen (s : State) : s.dropNco.hostSeen = s.hostSeen := rfl
@[simp] theorem State.dropNco_ncoFrac (s : State) : s.dropNco.ncoFrac = 0 := rfl
@[simp] theorem State.dropNco_freeCtr (s : State) : s.dropNco.freeCtr = s.freeCtr := rfl

/-! ### A CSR read (R72) -/

@[simp] theorem State.csrRead_seqSt (s : State) (reg : BitVec 3) : (s.csrRead reg).seqSt = s.seqSt := rfl
@[simp] theorem State.csrRead_seqPc (s : State) (reg : BitVec 3) : (s.csrRead reg).seqPc = s.seqPc := rfl
@[simp] theorem State.csrRead_dly (s : State) (reg : BitVec 3) : (s.csrRead reg).dly = s.dly := rfl
@[simp] theorem State.csrRead_segKind (s : State) (reg : BitVec 3) : (s.csrRead reg).segKind = s.segKind := rfl
@[simp] theorem State.csrRead_rowA (s : State) (reg : BitVec 3) : (s.csrRead reg).rowA = s.rowA := rfl
@[simp] theorem State.csrRead_rowB (s : State) (reg : BitVec 3) : (s.csrRead reg).rowB = s.rowB := rfl
@[simp] theorem State.csrRead_pixIdx (s : State) (reg : BitVec 3) : (s.csrRead reg).pixIdx = s.pixIdx := rfl
@[simp] theorem State.csrRead_done (s : State) (reg : BitVec 3) : (s.csrRead reg).done = s.done := rfl
@[simp] theorem State.csrRead_armed (s : State) (reg : BitVec 3) : (s.csrRead reg).armed = s.armed := rfl
@[simp] theorem State.csrRead_pixt (s : State) (reg : BitVec 3) : (s.csrRead reg).pixt = s.pixt := rfl
@[simp] theorem State.csrRead_toneEn (s : State) (reg : BitVec 3) : (s.csrRead reg).toneEn = s.toneEn := rfl
@[simp] theorem State.csrRead_toneFreq (s : State) (reg : BitVec 3) : (s.csrRead reg).toneFreq = s.toneFreq := rfl
@[simp] theorem State.csrRead_ncoPhase (s : State) (reg : BitVec 3) : (s.csrRead reg).ncoPhase = s.ncoPhase := rfl
@[simp] theorem State.csrRead_time (s : State) (reg : BitVec 3) : (s.csrRead reg).time = s.time := rfl
@[simp] theorem State.csrRead_trace (s : State) (reg : BitVec 3) : (s.csrRead reg).trace = s.trace := rfl
@[simp] theorem State.csrRead_pix (s : State) (reg : BitVec 3) : (s.csrRead reg).pix = s.pix := rfl
@[simp] theorem State.csrRead_pixDirty (s : State) (reg : BitVec 3) : (s.csrRead reg).pixDirty = s.pixDirty := rfl
@[simp] theorem State.csrRead_srcW (s : State) (reg : BitVec 3) : (s.csrRead reg).srcW = s.srcW := rfl
@[simp] theorem State.csrRead_srcH (s : State) (reg : BitVec 3) : (s.csrRead reg).srcH = s.srcH := rfl
@[simp] theorem State.csrRead_prom (s : State) (reg : BitVec 3) : (s.csrRead reg).prom = s.prom := rfl
@[simp] theorem State.csrRead_rst (s : State) (reg : BitVec 3) : (s.csrRead reg).rst = s.rst := rfl
@[simp] theorem State.csrRead_hostq (s : State) (reg : BitVec 3) : (s.csrRead reg).hostq = s.hostq := rfl
@[simp] theorem State.csrRead_hostSeen (s : State) (reg : BitVec 3) : (s.csrRead reg).hostSeen = s.hostSeen ++ [(reg, s.csrValue reg)] := rfl
@[simp] theorem State.csrRead_ncoFrac (s : State) (reg : BitVec 3) : (s.csrRead reg).ncoFrac = s.ncoFrac := rfl
@[simp] theorem State.csrRead_freeCtr (s : State) (reg : BitVec 3) : (s.csrRead reg).freeCtr = s.freeCtr := rfl

/-! ### Taking the host's move -/

@[simp] theorem State.hostPop_seqSt (s : State) : s.hostPop.seqSt = s.seqSt := rfl
@[simp] theorem State.hostPop_seqPc (s : State) : s.hostPop.seqPc = s.seqPc := rfl
@[simp] theorem State.hostPop_dly (s : State) : s.hostPop.dly = s.dly := rfl
@[simp] theorem State.hostPop_segKind (s : State) : s.hostPop.segKind = s.segKind := rfl
@[simp] theorem State.hostPop_rowA (s : State) : s.hostPop.rowA = s.rowA := rfl
@[simp] theorem State.hostPop_rowB (s : State) : s.hostPop.rowB = s.rowB := rfl
@[simp] theorem State.hostPop_pixIdx (s : State) : s.hostPop.pixIdx = s.pixIdx := rfl
@[simp] theorem State.hostPop_done (s : State) : s.hostPop.done = s.done := rfl
@[simp] theorem State.hostPop_armed (s : State) : s.hostPop.armed = s.armed := rfl
@[simp] theorem State.hostPop_pixt (s : State) : s.hostPop.pixt = s.pixt := rfl
@[simp] theorem State.hostPop_toneEn (s : State) : s.hostPop.toneEn = s.toneEn := rfl
@[simp] theorem State.hostPop_toneFreq (s : State) : s.hostPop.toneFreq = s.toneFreq := rfl
@[simp] theorem State.hostPop_ncoPhase (s : State) : s.hostPop.ncoPhase = s.ncoPhase := rfl
@[simp] theorem State.hostPop_time (s : State) : s.hostPop.time = s.time := rfl
@[simp] theorem State.hostPop_trace (s : State) : s.hostPop.trace = s.trace := rfl
@[simp] theorem State.hostPop_pix (s : State) : s.hostPop.pix = s.pix := rfl
@[simp] theorem State.hostPop_pixDirty (s : State) : s.hostPop.pixDirty = s.pixDirty := rfl
@[simp] theorem State.hostPop_srcW (s : State) : s.hostPop.srcW = s.srcW := rfl
@[simp] theorem State.hostPop_srcH (s : State) : s.hostPop.srcH = s.srcH := rfl
@[simp] theorem State.hostPop_prom (s : State) : s.hostPop.prom = s.prom := rfl
@[simp] theorem State.hostPop_rst (s : State) : s.hostPop.rst = s.rst := rfl
@[simp] theorem State.hostPop_hostq (s : State) : s.hostPop.hostq = s.hostq.tail := rfl
@[simp] theorem State.hostPop_hostSeen (s : State) : s.hostPop.hostSeen = s.hostSeen := rfl
@[simp] theorem State.hostPop_ncoFrac (s : State) : s.hostPop.ncoFrac = s.ncoFrac := rfl
@[simp] theorem State.hostPop_freeCtr (s : State) : s.hostPop.freeCtr = s.freeCtr := rfl

/-! ### A step of the machine's own, as the host's moves see it -/

@[simp] theorem State.hostWait_seqSt (s : State) : s.hostWait.seqSt = s.seqSt := rfl
@[simp] theorem State.hostWait_seqPc (s : State) : s.hostWait.seqPc = s.seqPc := rfl
@[simp] theorem State.hostWait_dly (s : State) : s.hostWait.dly = s.dly := rfl
@[simp] theorem State.hostWait_segKind (s : State) : s.hostWait.segKind = s.segKind := rfl
@[simp] theorem State.hostWait_rowA (s : State) : s.hostWait.rowA = s.rowA := rfl
@[simp] theorem State.hostWait_rowB (s : State) : s.hostWait.rowB = s.rowB := rfl
@[simp] theorem State.hostWait_pixIdx (s : State) : s.hostWait.pixIdx = s.pixIdx := rfl
@[simp] theorem State.hostWait_done (s : State) : s.hostWait.done = s.done := rfl
@[simp] theorem State.hostWait_armed (s : State) : s.hostWait.armed = s.armed := rfl
@[simp] theorem State.hostWait_pixt (s : State) : s.hostWait.pixt = s.pixt := rfl
@[simp] theorem State.hostWait_toneEn (s : State) : s.hostWait.toneEn = s.toneEn := rfl
@[simp] theorem State.hostWait_toneFreq (s : State) : s.hostWait.toneFreq = s.toneFreq := rfl
@[simp] theorem State.hostWait_ncoPhase (s : State) : s.hostWait.ncoPhase = s.ncoPhase := rfl
@[simp] theorem State.hostWait_time (s : State) : s.hostWait.time = s.time := rfl
@[simp] theorem State.hostWait_trace (s : State) : s.hostWait.trace = s.trace := rfl
@[simp] theorem State.hostWait_pix (s : State) : s.hostWait.pix = s.pix := rfl
@[simp] theorem State.hostWait_pixDirty (s : State) : s.hostWait.pixDirty = s.pixDirty := rfl
@[simp] theorem State.hostWait_srcW (s : State) : s.hostWait.srcW = s.srcW := rfl
@[simp] theorem State.hostWait_srcH (s : State) : s.hostWait.srcH = s.srcH := rfl
@[simp] theorem State.hostWait_prom (s : State) : s.hostWait.prom = s.prom := rfl
@[simp] theorem State.hostWait_rst (s : State) : s.hostWait.rst = s.rst := rfl
@[simp] theorem State.hostWait_hostq (s : State) : s.hostWait.hostq = hostCount s.hostq := rfl
@[simp] theorem State.hostWait_hostSeen (s : State) : s.hostWait.hostSeen = s.hostSeen := rfl
@[simp] theorem State.hostWait_ncoFrac (s : State) : s.hostWait.ncoFrac = s.ncoFrac := rfl
@[simp] theorem State.hostWait_freeCtr (s : State) : s.hostWait.freeCtr = s.freeCtr := rfl

/-! ### A word placed where the next step fetches -/

@[simp] theorem State.loaded_seqSt (s : State) (w : OpWord) : (s.loaded w).seqSt = .rdy := rfl
@[simp] theorem State.loaded_seqPc (s : State) (w : OpWord) : (s.loaded w).seqPc = s.seqPc := rfl
@[simp] theorem State.loaded_dly (s : State) (w : OpWord) : (s.loaded w).dly = s.dly := rfl
@[simp] theorem State.loaded_segKind (s : State) (w : OpWord) : (s.loaded w).segKind = s.segKind := rfl
@[simp] theorem State.loaded_rowA (s : State) (w : OpWord) : (s.loaded w).rowA = s.rowA := rfl
@[simp] theorem State.loaded_rowB (s : State) (w : OpWord) : (s.loaded w).rowB = s.rowB := rfl
@[simp] theorem State.loaded_pixIdx (s : State) (w : OpWord) : (s.loaded w).pixIdx = s.pixIdx := rfl
@[simp] theorem State.loaded_done (s : State) (w : OpWord) : (s.loaded w).done = s.done := rfl
@[simp] theorem State.loaded_armed (s : State) (w : OpWord) : (s.loaded w).armed = false := rfl
@[simp] theorem State.loaded_pixt (s : State) (w : OpWord) : (s.loaded w).pixt = s.pixt := rfl
@[simp] theorem State.loaded_toneEn (s : State) (w : OpWord) : (s.loaded w).toneEn = s.toneEn := rfl
@[simp] theorem State.loaded_toneFreq (s : State) (w : OpWord) : (s.loaded w).toneFreq = s.toneFreq := rfl
@[simp] theorem State.loaded_ncoPhase (s : State) (w : OpWord) : (s.loaded w).ncoPhase = s.ncoPhase := rfl
@[simp] theorem State.loaded_time (s : State) (w : OpWord) : (s.loaded w).time = s.time := rfl
@[simp] theorem State.loaded_trace (s : State) (w : OpWord) : (s.loaded w).trace = s.trace := rfl
@[simp] theorem State.loaded_pix (s : State) (w : OpWord) : (s.loaded w).pix = s.pix := rfl
@[simp] theorem State.loaded_pixDirty (s : State) (w : OpWord) : (s.loaded w).pixDirty = s.pixDirty := rfl
@[simp] theorem State.loaded_srcW (s : State) (w : OpWord) : (s.loaded w).srcW = s.srcW := rfl
@[simp] theorem State.loaded_srcH (s : State) (w : OpWord) : (s.loaded w).srcH = s.srcH := rfl
@[simp] theorem State.loaded_prom (s : State) (w : OpWord) : (s.loaded w).prom = promPut s.prom s.seqPc.toNat w := rfl
@[simp] theorem State.loaded_rst (s : State) (w : OpWord) : (s.loaded w).rst = false := rfl
@[simp] theorem State.loaded_hostq (s : State) (w : OpWord) : (s.loaded w).hostq = [] := rfl
@[simp] theorem State.loaded_hostSeen (s : State) (w : OpWord) : (s.loaded w).hostSeen = s.hostSeen := rfl
@[simp] theorem State.loaded_ncoFrac (s : State) (w : OpWord) : (s.loaded w).ncoFrac = s.ncoFrac := rfl
@[simp] theorem State.loaded_freeCtr (s : State) (w : OpWord) : (s.loaded w).freeCtr = s.freeCtr := rfl

/-! ### Fields chosen between cases -/

/-- `SEQ_PC + 1` below 2047 (R29). -/
theorem State.advancePc_seqPc_of_ne (s : State) (h : s.seqPc ≠ 2047#11) : s.advancePc.seqPc = s.seqPc + 1#11 := by
  simp [State.advancePc, h]

theorem State.advancePc_freeCtr_of_ne (s : State) (h : s.seqPc ≠ 2047#11) : s.advancePc.freeCtr = s.freeCtr := by
  simp [State.advancePc, h]

/-- `advancePc` below 2047 as one record update. -/
theorem State.advancePc_of_ne (s : State) (h : s.seqPc ≠ 2047#11) :
    s.advancePc = { s with seqPc := s.seqPc + 1#11 } := by
  simp [State.advancePc, h]

/-- The callback at the last column: disarm and complete (R141). -/
theorem State.bumpIndex_last (s : State) (h : s.pixIdx + 1#10 = 640#10) :
    s.bumpIndex = { s with pixIdx := 640#10, armed := false, done := true } := by
  simp [State.bumpIndex, h, State.disarm, State.setDone]

/-- The callback at any other column: reload the timer (R136). -/
theorem State.bumpIndex_more (s : State) (h : s.pixIdx + 1#10 ≠ 640#10) :
    s.bumpIndex = { s with pixIdx := s.pixIdx + 1#10, pixt := 190#8 } := by
  simp [State.bumpIndex, h, Config.pixDur]

/-- With no pending move, a step of the machine's own leaves the host's side as it is. -/
theorem State.hostWait_of_nil (s : State) (h : s.hostq = []) : s.hostWait = s := by
  cases s; simp_all [State.hostWait, hostCount]

end Sys2Proof.Machine
end

