-- ==== Sys2Proof/Laws/Ops.lean ====
section
/-! SUPPORT. What each shared operation can do, said once: going on after an operation that can stop, the ROM and
the image read back, a pixel read, a callback. -/

namespace Sys2Proof.Machine

/-! ### Going on -/

@[simp] theorem andThen_next {α β : Type} (a : α) (f : α → Out β) : andThen (.next a) f = f a := rfl

theorem andThen_eq_next {α β : Type} {o : Out α} {f : α → Out β} {b : β} :
    andThen o f = .next b ↔ ∃ a, o = .next a ∧ f a = .next b := by
  cases o <;> simp [andThen]

/-! ### The program ROM -/

theorem byte_join (w : OpWord) :
    w.extractLsb' 24 8 ++ w.extractLsb' 16 8 ++ w.extractLsb' 8 8 ++ w.extractLsb' 0 8 = w := by
  apply BitVec.eq_of_getLsbD_eq
  intro i hi
  have e1 : ¬ i < 8 → 8 + (i - 8) = i := by omega
  have e2 : ¬ i < 8 → ¬ i - 8 < 8 → 16 + (i - 8 - 8) = i := by omega
  have e3 : ¬ i < 8 → ¬ i - 8 < 8 → ¬ i - 8 - 8 < 8 → 24 + (i - 8 - 8 - 8) = i ∧ i - 8 - 8 - 8 < 8 := by omega
  simp only [BitVec.getLsbD_append, BitVec.getLsbD_extractLsb']
  split
  · simp_all
  · split
    · simp_all
    · split
      · simp_all
      · rename_i h1 h2 h3
        simp [e3 h1 h2 h3]

/-- The ROM after one of its words was made different. -/
theorem promWord_promPut (s : State) (m : List Host.Cell) (a b : Nat) (w : OpWord) (h : s.prom = promPut m a w) :
    s.promWord b = if b = a then w else { s with prom := m }.promWord b := by
  have key : ∀ k, s.promByte k = if k = 4 * a + 3 then w.extractLsb' 24 8 else
      if k = 4 * a + 2 then w.extractLsb' 16 8 else if k = 4 * a + 1 then w.extractLsb' 8 8 else
      if k = 4 * a then w.extractLsb' 0 8 else Cells.read romByte m k := by
    intro k; simp only [State.promByte, h, promPut, promWrite, Cells.read_write]
  by_cases hb : b = a
  · subst hb
    have e1 : 4 * b + 2 ≠ 4 * b + 3 := by omega
    have e2 : 4 * b + 1 ≠ 4 * b + 3 := by omega
    have e3 : 4 * b + 1 ≠ 4 * b + 2 := by omega
    have e4 : 4 * b ≠ 4 * b + 3 := by omega
    have e5 : 4 * b ≠ 4 * b + 2 := by omega
    have e6 : 4 * b ≠ 4 * b + 1 := by omega
    simp only [State.promWord, key, if_true, if_neg e1, if_neg e2, if_neg e3, if_neg e4, if_neg e5, if_neg e6,
      byte_join]
  · have other : ∀ k, k / 4 = b → s.promByte k = Cells.read romByte m k := by
      intro k hk
      rw [key, if_neg (by omega), if_neg (by omega), if_neg (by omega), if_neg (by omega)]
    rw [if_neg hb, State.promWord, other _ (by omega), other _ (by omega), other _ (by omega), other _ (by omega)]
    rfl

/-- With nothing listed, the program ROM is the fixed one (R202). -/
theorem promWord_fixed (s : State) (a : Nat) (h : s.prom = []) : s.promWord a = romWord a := by
  have e1 : (4 * a + 3) / 4 = a := by omega
  have e2 : (4 * a + 2) / 4 = a := by omega
  have e3 : (4 * a + 1) / 4 = a := by omega
  have e4 : 4 * a / 4 = a := by omega
  have m1 : (4 * a + 3) % 4 = 3 := by omega
  have m2 : (4 * a + 2) % 4 = 2 := by omega
  have m3 : (4 * a + 1) % 4 = 1 := by omega
  have m4 : 4 * a % 4 = 0 := by omega
  simp only [State.promWord, State.promByte, h, Cells.read_nil, romByte, e1, e2, e3, e4, m1, m2, m3, m4]
  exact byte_join (romWord a)

theorem wf_promPut (m : List Host.Cell) (a : Nat) (w : OpWord) (ha : a < Config.promWords)
    (h : Memory.wf romByte promLim m = true) : Memory.wf romByte promLim (promPut m a w) = true := by
  have hl : promLim = 8192 := rfl
  have hw : Config.promWords = 2048 := rfl
  simp only [promPut, promWrite]
  exact Memory.wf_write _ _ _ (by omega) (Memory.wf_write _ _ _ (by omega)
    (Memory.wf_write _ _ _ (by omega) (Memory.wf_write _ _ _ (by omega) h)))

/-! ### The image -/

theorem read_pixPut (m : List Host.Cell) (n k : Nat) (p : Pixel) :
    Cells.read pixDefault (pixPut m n p) k =
      if k = 3 * n + 2 then p.b else if k = 3 * n + 1 then p.g else if k = 3 * n then p.r
      else Cells.read pixDefault m k := by
  simp only [pixPut, Cells.read_write]

theorem wf_pixPut (m : List Host.Cell) (n : Nat) (p : Pixel) (hn : n < Config.width * Config.height)
    (h : Memory.wf pixDefault pixLim m = true) : Memory.wf pixDefault pixLim (pixPut m n p) = true := by
  have hl : pixLim = 3 * (Config.width * Config.height) := rfl
  simp only [pixPut]
  exact Memory.wf_write _ _ _ (by omega) (Memory.wf_write _ _ _ (by omega) (Memory.wf_write _ _ _ (by omega) h))

/-- The memories of the machine after reset are in canonical form. -/
theorem wf_reset :
    Memory.wf pixDefault pixLim State.reset.pix = true ∧ Memory.wf romByte promLim State.reset.prom = true :=
  ⟨rfl, rfl⟩

theorem inImage_iff (xc yc : Nat) : inImage xc yc = true ↔ xc < 640 ∧ yc < 496 := by
  rw [inImage, Bool.and_eq_true]
  exact and_congr decide_eq_true_iff decide_eq_true_iff

theorem sourceOk_iff (s : State) : s.sourceOk = true ↔ 640 ≤ s.srcW ∧ 496 ≤ s.srcH := by
  rw [State.sourceOk, Bool.and_eq_true]
  exact and_congr decide_eq_true_iff decide_eq_true_iff

theorem rowOk_iff (row : BitVec 12) : rowOk row = true ↔ row.toNat < 496 := decide_eq_true_iff

theorem pixNum_lt {xc yc : Nat} (h : inImage xc yc = true) : pixNum xc yc < Config.width * Config.height := by
  obtain ⟨h1, h2⟩ := (inImage_iff xc yc).mp h
  simp only [pixNum, Config.width, Config.height]
  omega

theorem pixNum_inj {xc yc xc' yc' : Nat} (h : xc < 640) (h' : xc' < 640)
    (e : pixNum xc yc = pixNum xc' yc') : xc = xc' ∧ yc = yc' := by
  simp only [pixNum, Config.width] at e
  omega

/-- A pixel read of a steady image: the pixel, and nothing changes (R62). -/
theorem pixRead_clean (s : State) (xc yc : Nat) (hx : xc < 640) (hy : yc < 496) (hs : s.sourceOk = true)
    (hd : pixNum xc yc ∉ s.pixDirty) : pixRead s xc yc = .next (s.pixel xc yc, s) := by
  have hi : inImage xc yc = true := (inImage_iff xc yc).mpr ⟨hx, hy⟩
  obtain ⟨h1, h2⟩ := (sourceOk_iff s).mp hs
  simp [pixRead, hi, hd, show xc < s.srcW by omega, show yc < s.srcH by omega]

/-- All a pixel read can do when it goes on: the pixel of the image, or a drawn one and one more draw counted. -/
theorem pixRead_next {s t : State} {xc yc : Nat} {p : Pixel} (h : pixRead s xc yc = .next (p, t)) :
    (xc < 640 ∧ yc < 496 ∧ xc < s.srcW ∧ yc < s.srcH) ∧
    ((pixNum xc yc ∉ s.pixDirty ∧ p = s.pixel xc yc ∧ t = s) ∨
     (pixNum xc yc ∈ s.pixDirty ∧ p = Config.freePixel s.freeCtr ∧ t = { s with freeCtr := s.freeCtr + 1 })) := by
  unfold pixRead at h
  split at h
  · rename_i hi
    split at h
    · rename_i hs
      obtain ⟨h1, h2⟩ := (inImage_iff xc yc).mp hi
      refine ⟨⟨h1, h2, hs.1, hs.2⟩, ?_⟩
      split at h
      · rename_i hd; cases h; exact .inr ⟨hd, rfl, rfl⟩
      · rename_i hd; cases h; exact .inl ⟨hd, rfl, rfl⟩
    · cases h
  · cases h

/-- A pixel read changes the count of draws at most (R62). -/
theorem pixRead_frame {s t : State} {xc yc : Nat} {p : Pixel} (h : pixRead s xc yc = .next (p, t)) :
    xc < 640 ∧ ∃ n, t = { s with freeCtr := n } := by
  obtain ⟨hb, ⟨_, _, rfl⟩ | ⟨_, _, rfl⟩⟩ := pixRead_next h
  · exact ⟨hb.1, t.freeCtr, rfl⟩
  · exact ⟨hb.1, _, rfl⟩

/-! ### The callback -/

/-- All the reads of a callback can change is the count of draws (R62, U4); the frequency is that of some pixels. -/
theorem callbackFreq_next {s t : State} {f : BitVec 16} (h : callbackFreq s = .next (f, t)) :
    s.segKind ≠ .none ∧ s.pixIdx.toNat < 640 ∧
    (∃ p q, f = kindFreq s.segKind p q) ∧ ∃ n, t = { s with freeCtr := n } := by
  have two : ∀ k, k ≠ SegKind.none → s.segKind = k →
      (andThen (pixRead s s.pixIdx.toNat s.rowA.toNat) fun r =>
        andThen (pixRead r.2 s.pixIdx.toNat s.rowB.toNat) fun q => .next (kindFreq k r.1 q.1, q.2)) = .next (f, t) →
      s.segKind ≠ .none ∧ s.pixIdx.toNat < 640 ∧
      (∃ p q, f = kindFreq s.segKind p q) ∧ ∃ n, t = { s with freeCtr := n } := by
    intro k hk e h
    obtain ⟨⟨p, s1⟩, h1, h2⟩ := andThen_eq_next.mp h
    obtain ⟨⟨q, s2⟩, h3, h4⟩ := andThen_eq_next.mp h2
    obtain ⟨hx, n, rfl⟩ := pixRead_frame h1
    obtain ⟨_, m, rfl⟩ := pixRead_frame h3
    cases h4
    exact ⟨e ▸ hk, hx, ⟨p, q, by rw [e]⟩, m, rfl⟩
  unfold callbackFreq at h
  cases hk : s.segKind with
  | none => rw [hk] at h; cases h
  | luma =>
    rw [hk] at h
    obtain ⟨⟨p, s1⟩, h1, h2⟩ := andThen_eq_next.mp h
    obtain ⟨hx, n, rfl⟩ := pixRead_frame h1
    cases h2
    exact ⟨by simp, hx, ⟨p, p, rfl⟩, n, by cases s; simp_all⟩
  | rdiff => rw [hk] at h; rw [← hk]; exact two _ (by simp) hk h
  | bdiff => rw [hk] at h; rw [← hk]; exact two _ (by simp) hk h

/-- With a steady image the callback computes the frequency of R128 and its reads change nothing. -/
theorem callbackFreq_clean (s : State) (hk : s.segKind ≠ .none) (hx : s.pixIdx.toNat < 640)
    (ha : s.rowA.toNat < 496) (hb : s.rowB.toNat < 496) (hs : s.sourceOk = true) (hd : s.pixDirty = []) :
    callbackFreq s = .next (s.imageFreq s.segKind s.pixIdx.toNat s.rowA s.rowB, s) := by
  have hn : ∀ x y, pixNum x y ∉ s.pixDirty := by simp [hd]
  unfold callbackFreq
  cases h : s.segKind with
  | none => exact absurd h hk
  | luma => simp [pixRead_clean s _ _ hx ha hs (hn _ _), State.imageFreq, kindFreq]
  | rdiff =>
    simp [pixRead_clean s _ _ hx ha hs (hn _ _), pixRead_clean s _ _ hx hb hs (hn _ _), State.imageFreq]
  | bdiff =>
    simp [pixRead_clean s _ _ hx ha hs (hn _ _), pixRead_clean s _ _ hx hb hs (hn _ _), State.imageFreq]

/-- All a callback can do when it goes on (R136, R239). -/
theorem fire_next {s t : State} (h : fire s = .next t) :
    s.segKind ≠ .none ∧ s.pixIdx.toNat < 640 ∧
    ∃ p q n, t = ({ s with freeCtr := n }.setTone (kindFreq s.segKind p q)).bumpIndex := by
  obtain ⟨⟨f, u⟩, h1, h2⟩ := andThen_eq_next.mp h
  obtain ⟨hk, hx, ⟨p, q, rfl⟩, n, rfl⟩ := callbackFreq_next h1
  cases h2
  exact ⟨hk, hx, p, q, n, rfl⟩

end Sys2Proof.Machine
end

