-- ==== Sys2Proof/Laws/Step.lean ====
section
/-! SUPPORT. All a step can do, said once (10_state R38): what each meaning answers, the machine's own step, a move
of the host, and a step. -/

namespace Sys2Proof.Machine

/-- What each operation does when it goes on, one case for each operation. -/
theorem exec_next {i : Instr} {s t : State} (h : exec i s = .next t) :
    (i = .end_ ∧ t = s.goto .idle) ∨
    (∃ hz, i = .setf hz ∧ t = (s.setTone hz).advancePc) ∨
    (∃ us, i = .wait us ∧ t = { s with dly := us }.goto .dlyw) ∨
    (i = .stop ∧ t = s.stopTone.advancePc) ∨
    (∃ k a b, scanOf i = some (k, a, b) ∧ k ≠ .none ∧ (k = .luma → b = 0#12) ∧ a.toNat < 496 ∧ b.toNat < 496 ∧
      t = s.issueScan k a b) := by
  cases i with
  | end_ => cases h; exact .inl ⟨rfl, rfl⟩
  | setf hz => cases h; exact .inr (.inl ⟨hz, rfl, rfl⟩)
  | wait us => cases h; exact .inr (.inr (.inl ⟨us, rfl, rfl⟩))
  | stop => cases h; exact .inr (.inr (.inr (.inl ⟨rfl, rfl⟩)))
  | scany a =>
    simp only [exec, execScany] at h
    split at h
    · rename_i ha; cases h
      rw [rowOk_iff] at ha
      exact .inr (.inr (.inr (.inr ⟨_, _, _, rfl, by simp, by simp, ha, by simp, rfl⟩)))
    · cases h
  | scanry a b =>
    simp only [exec, execScanry] at h
    split at h
    · rename_i ha; cases h
      rw [Bool.and_eq_true, rowOk_iff, rowOk_iff] at ha
      exact .inr (.inr (.inr (.inr ⟨_, _, _, rfl, by simp, by simp, ha.1, ha.2, rfl⟩)))
    · cases h
  | scanby a b =>
    simp only [exec, execScanby] at h
    split at h
    · rename_i ha; cases h
      rw [Bool.and_eq_true, rowOk_iff, rowOk_iff] at ha
      exact .inr (.inr (.inr (.inr ⟨_, _, _, rfl, by simp, by simp, ha.1, ha.2, rfl⟩)))
    · cases h

/-- What an `Exec` step does when it goes on: the word at `SEQ_PC` is an operation, and it runs. -/
theorem fetchExec_next {s t : State} (h : fetchExec s = .next t) : ∃ i, decode s.fetch = .ok i ∧ exec i s = .next t := by
  unfold fetchExec at h
  split at h
  · rename_i i hi; exact ⟨i, hi, h⟩
  · cases h

/-- What the machine's own step does when it goes on, one case for each step of R38. -/
theorem ownStep_next {s t : State} (h : ownStep s = .next t) :
    (s.rst = true ∧ t = s.resetRegs.passTime) ∨
    (s.rst = false ∧ s.armed = true ∧ s.pixt = 0#8 ∧ fire s = .next t) ∨
    (s.rst = false ∧ s.fireEnabled = false ∧ s.seqSt = .dlyw ∧ s.dly = 0#28 ∧ t = s.waitEnd) ∨
    (s.rst = false ∧ s.fireEnabled = false ∧ s.seqSt = .segw ∧ s.done = true ∧ t = s.segEnd) ∨
    (s.rst = false ∧ s.fireEnabled = false ∧ s.seqSt = .rdy ∧ fetchExec s = .next t) ∨
    (s.rst = false ∧ s.zeroTimeEnabled = false ∧ t = s.passTime) := by
  unfold ownStep State.choose at h
  by_cases hr : s.rst = true
  · simp only [hr, if_true] at h; cases h; exact .inl ⟨hr, rfl⟩
  have hr' : s.rst = false := by simpa using hr
  by_cases hf : s.fireEnabled = true
  · simp only [hr', hf, Bool.false_eq_true, if_true, if_false] at h
    simp only [State.fireEnabled, Bool.and_eq_true, decide_eq_true_eq] at hf
    exact .inr (.inl ⟨hr', hf.1, hf.2, h⟩)
  have hf' : s.fireEnabled = false := by simpa using hf
  by_cases hw : s.waitEndEnabled = true
  · simp only [hr', hf', hw, Bool.false_eq_true, if_true, if_false] at h; cases h
    simp only [State.waitEndEnabled, Bool.and_eq_true, decide_eq_true_eq] at hw
    exact .inr (.inr (.inl ⟨hr', hf', hw.1, hw.2, rfl⟩))
  by_cases hs : s.segEndEnabled = true
  · simp only [hr', hf', hw, hs, Bool.false_eq_true, if_true, if_false] at h; cases h
    simp only [State.segEndEnabled, Bool.and_eq_true, decide_eq_true_eq] at hs
    exact .inr (.inr (.inr (.inl ⟨hr', hf', hs.1, hs.2, rfl⟩)))
  by_cases he : s.execEnabled = true
  · simp only [hr', hf', hw, hs, he, Bool.false_eq_true, if_true, if_false] at h
    simp only [State.execEnabled, decide_eq_true_eq] at he
    exact .inr (.inr (.inr (.inr (.inl ⟨hr', hf', he, h⟩))))
  · simp only [hr', hf', hw, hs, he, Bool.false_eq_true, if_false] at h; cases h
    refine .inr (.inr (.inr (.inr (.inr ⟨hr', ?_, rfl⟩))))
    simp only [State.zeroTimeEnabled, Bool.or_eq_false_iff]
    simp_all

/-- What a move of the host does when it goes on, one case for each (R253). -/
theorem hostAct_next {op : HostOp} {s t : State} (h : hostAct op s = .next t) :
    t = s ∨
    (s.seqSt = .idle ∧ s.rst = false ∧ s.sourceOk = true ∧
      t = { s with seqSt := .rdy, seqPc := 0#11, time := 0, trace := [] }) ∨
    (∃ reg, op = .csrRead reg ∧ t = s.csrRead reg) ∨
    (∃ xc yc p, op = .pixWrite xc yc p ∧ inImage xc yc = true ∧ s.seqSt = .idle ∧
      t = { s with pix := pixPut s.pix (pixNum xc yc) p, pixDirty := Marks.drop (pixNum xc yc) s.pixDirty }) ∨
    (∃ xc yc p, op = .pixWrite xc yc p ∧ inImage xc yc = true ∧ s.seqSt ≠ .idle ∧
      t = { s with pixDirty := Marks.add (pixNum xc yc) s.pixDirty }) ∨
    t = { s.resetRegs with rst := true } ∨ t = { s with rst := false } := by
  cases op with
  | csrWrite reg v =>
    simp only [hostAct, csrWrite] at h
    split at h
    · rename_i hc
      unfold start at h
      split at h
      · rename_i hs; cases h; exact .inr (.inl ⟨hc.2.2.1, hc.2.2.2, hs, rfl⟩)
      · cases h
    · cases h; exact .inl rfl
  | csrRead reg => cases h; exact .inr (.inr (.inl ⟨reg, rfl, rfl⟩))
  | pixWrite xc yc p =>
    simp only [hostAct, pixWrite] at h
    split at h
    · rename_i hi
      split at h
      · rename_i hs; cases h; exact .inr (.inr (.inr (.inl ⟨_, _, _, rfl, hi, hs, rfl⟩)))
      · rename_i hs; cases h; exact .inr (.inr (.inr (.inr (.inl ⟨_, _, _, rfl, hi, hs, rfl⟩))))
    · cases h
  | rst level =>
    cases level <;> cases h
    · exact .inr (.inr (.inr (.inr (.inr (.inr rfl)))))
    · exact .inr (.inr (.inr (.inr (.inr (.inl rfl)))))

/-- A step is a move of the host that is due, or the machine's own step. -/
theorem step_next {s t : State} (h : step s = .next t) :
    (∃ op, hostDue s = some op ∧ hostAct op s.hostPop = .next t) ∨
    (hostDue s = none ∧ ownStep s.hostWait = .next t) := by
  unfold step at h
  split at h
  · rename_i op ho; exact .inl ⟨op, ho, h⟩
  · rename_i ho; exact .inr ⟨ho, h⟩

/-- With no pending move, a step is the machine's own. -/
theorem step_of_no_move (s : State) (h : s.hostq = []) : step s = ownStep s := by
  simp [step, hostDue, h, State.hostWait_of_nil s h]

/-! ### Which step is taken -/

/-- RDY with the timer not armed: the step is `Exec` (R38). -/
theorem ownStep_of_rdy (s : State) (hr : s.rst = false) (h : s.seqSt = .rdy) (ha : s.armed = false) :
    ownStep s = fetchExec s := by
  simp [ownStep, State.choose, hr, State.fireEnabled, State.waitEndEnabled, State.segEndEnabled, State.execEnabled,
    h, ha]

/-- DLYW at `DLY` = 0 with the timer not armed: the step is `WaitEnd` (R38). -/
theorem ownStep_of_dlyw_zero (s : State) (hr : s.rst = false) (h : s.seqSt = .dlyw) (hd : s.dly = 0#28)
    (ha : s.armed = false) : ownStep s = .next s.waitEnd := by
  simp [ownStep, State.choose, hr, State.fireEnabled, State.waitEndEnabled, h, hd, ha]

/-- SEGW with the flag set and the timer not armed: the step is `SegEnd` (R38). -/
theorem ownStep_of_segw_done (s : State) (hr : s.rst = false) (h : s.seqSt = .segw) (hd : s.done = true)
    (ha : s.armed = false) : ownStep s = .next s.segEnd := by
  simp [ownStep, State.choose, hr, State.fireEnabled, State.waitEndEnabled, State.segEndEnabled, h, hd, ha]

/-- A pending fire is taken (R38, R238). -/
theorem ownStep_of_fire (s : State) (hr : s.rst = false) (ha : s.armed = true) (hp : s.pixt = 0#8) :
    ownStep s = fire s := by
  simp [ownStep, State.choose, hr, State.fireEnabled, ha, hp]

/-- With no zero-time step enabled, time passes (R46). -/
theorem ownStep_of_quiet (s : State) (hr : s.rst = false) (h : s.zeroTimeEnabled = false) :
    ownStep s = .next s.passTime := by
  simp only [State.zeroTimeEnabled, Bool.or_eq_false_iff] at h
  simp [ownStep, State.choose, hr, h.1.1.1, h.1.1.2, h.1.2, h.2]

end Sys2Proof.Machine
end

