-- ==== Sys2Proof/Laws/PerInstr.lean ====
section
/-! SUPPORT. Facts about every operation as syntax, one lemma per constructor. `OpcodeBits`: bits 31:28 of an
operation's word are its opcode (30_encoding R81, R84), and bits 27:0 its operands. -/

namespace Sys2Proof.Laws.OpcodeBits

/-- Opcode above, operands below. -/
def Statement (i : Instr) : Prop := fieldOpc (encode i) = opcOf i ∧ (encode i).extractLsb' 0 28 = operandBits i

theorem of_append (o : BitVec 4) (x : BitVec 28) :
    (o ++ x).extractLsb' 28 4 = o ∧ (o ++ x).extractLsb' 0 28 = x := by
  constructor
  · apply BitVec.eq_of_getLsbD_eq
    intro j hj
    rw [BitVec.getLsbD_extractLsb', BitVec.getLsbD_append]
    simp [hj, show ¬ 28 + j < 28 by omega]
  · apply BitVec.eq_of_getLsbD_eq
    intro j hj
    rw [BitVec.getLsbD_extractLsb', BitVec.getLsbD_append]
    simp [hj]

theorem end_ : Statement .end_ := of_append _ _
theorem setf (hz : BitVec 16) : Statement (.setf hz) := of_append _ _
theorem wait (us : BitVec 28) : Statement (.wait us) := of_append _ _
theorem stop : Statement .stop := of_append _ _
theorem scany (rowA : BitVec 12) : Statement (.scany rowA) := of_append _ _
theorem scanry (rowA rowB : BitVec 12) : Statement (.scanry rowA rowB) := of_append _ _
theorem scanby (rowA rowB : BitVec 12) : Statement (.scanby rowA rowB) := of_append _ _

end Sys2Proof.Laws.OpcodeBits
end

