-- ==== Sys2Proof/Laws/Encoding.lean ====
section
/-! SUPPORT. Words as numbers: concatenation and fields (00_scope R9), for the encoder and the decoder. -/

namespace Sys2Proof

/-- `a ++ b` is `a` in the high bits (R9). -/
theorem append_toNat {m n : Nat} (a : BitVec m) (b : BitVec n) : (a ++ b).toNat = a.toNat * 2 ^ n + b.toNat := by
  rw [BitVec.toNat_append, ← Nat.shiftLeft_add_eq_or_of_lt b.isLt, Nat.shiftLeft_eq]

/-- `w[lo + n - 1 : lo]` as a number (R9). -/
theorem field_toNat (w : OpWord) (lo n : Nat) : (w.extractLsb' lo n).toNat = w.toNat / 2 ^ lo % 2 ^ n := by
  rw [BitVec.extractLsb'_toNat, Nat.shiftRight_eq_div_pow]

/-- The word of an operation as a number (R81). -/
theorem encode_toNat (i : Instr) : (encode i).toNat = (opcOf i).toNat * 2 ^ 28 + (operandBits i).toNat :=
  append_toNat _ _

theorem operandBits_setf (hz : BitVec 16) : (operandBits (.setf hz)).toNat = hz.toNat :=
  (append_toNat (0#12) hz).trans (by simp)

theorem operandBits_scany (a : BitVec 12) : (operandBits (.scany a)).toNat = a.toNat :=
  (append_toNat (0#16) a).trans (by simp)

/-- Format S with two rows (R81). -/
theorem rowPair_toNat (a b : BitVec 12) : (0#4 ++ b ++ a).toNat = b.toNat * 4096 + a.toNat := by
  rw [append_toNat, append_toNat]; simp

theorem operandBits_scanry (a b : BitVec 12) : (operandBits (.scanry a b)).toNat = b.toNat * 4096 + a.toNat :=
  rowPair_toNat a b

theorem operandBits_scanby (a b : BitVec 12) : (operandBits (.scanby a b)).toNat = b.toNat * 4096 + a.toNat :=
  rowPair_toNat a b

/-! ### The fields of a word as numbers (R82) -/

theorem fieldOpc_eq_iff (w : OpWord) (c : BitVec 4) : fieldOpc w = c ↔ w.toNat / 2 ^ 28 = c.toNat := by
  rw [← BitVec.toNat_inj, fieldOpc, field_toNat]; have := w.isLt; omega

theorem fieldZ_eq_zero (w : OpWord) : fieldZ w = 0#28 ↔ w.toNat % 2 ^ 28 = 0 := by
  rw [← BitVec.toNat_inj, fieldZ, field_toNat]; simp

theorem fieldZeroF_eq_zero (w : OpWord) : fieldZeroF w = 0#12 ↔ w.toNat / 2 ^ 16 % 2 ^ 12 = 0 := by
  rw [← BitVec.toNat_inj, fieldZeroF, field_toNat]; simp

theorem fieldZeroS_eq_zero (w : OpWord) : fieldZeroS w = 0#4 ↔ w.toNat / 2 ^ 24 % 2 ^ 4 = 0 := by
  rw [← BitVec.toNat_inj, fieldZeroS, field_toNat]; simp

theorem fieldRowB_toNat (w : OpWord) : (fieldRowB w).toNat = w.toNat / 2 ^ 12 % 2 ^ 12 := field_toNat _ _ _

theorem fieldRowB_eq_zero (w : OpWord) : fieldRowB w = 0#12 ↔ w.toNat / 2 ^ 12 % 2 ^ 12 = 0 := by
  rw [← BitVec.toNat_inj, fieldRowB_toNat]; simp

theorem fieldRowA_toNat (w : OpWord) : (fieldRowA w).toNat = w.toNat % 2 ^ 12 := by
  rw [fieldRowA, field_toNat]; simp

theorem fieldHz_toNat (w : OpWord) : (fieldHz w).toNat = w.toNat % 2 ^ 16 := by rw [fieldHz, field_toNat]; simp

theorem fieldUs_toNat (w : OpWord) : (fieldUs w).toNat = w.toNat % 2 ^ 28 := by rw [fieldUs, field_toNat]; simp

/-- A row operand is legal below 496 (R85). -/
theorem rowOk_field (row : BitVec 12) : rowOk row = true ↔ row.toNat < 496 := decide_eq_true_iff

/-- `decodePair` in numbers. -/
theorem decodePair_toNat (w : OpWord) (op : BitVec 12 → BitVec 12 → Instr) : decodePair w op =
    if w.toNat / 2 ^ 24 % 2 ^ 4 = 0 then
      if w.toNat % 2 ^ 12 < 496 ∧ w.toNat / 2 ^ 12 % 2 ^ 12 < 496 then .ok (op (fieldRowA w) (fieldRowB w))
      else .error .rowOutOfRange
    else .error .reservedField := by
  simp only [decodePair, ne_eq, fieldZeroS_eq_zero, ite_not, Bool.and_eq_true, rowOk_field, fieldRowA_toNat,
    fieldRowB_toNat]

/-- `decodeScany` in numbers. -/
theorem decodeScany_toNat (w : OpWord) : decodeScany w =
    if w.toNat / 2 ^ 24 % 2 ^ 4 = 0 ∧ w.toNat / 2 ^ 12 % 2 ^ 12 = 0 then
      if w.toNat % 2 ^ 12 < 496 then .ok (.scany (fieldRowA w)) else .error .rowOutOfRange
    else .error .reservedField := by
  simp only [decodeScany, ne_eq, fieldZeroS_eq_zero, fieldRowB_eq_zero, ← not_and_or, ite_not, rowOk_field,
    fieldRowA_toNat]

end Sys2Proof
end

