-- ==== Sys2Proof/Laws/Rom.lean ====
section
/-! SUPPORT. Where the operations of the program stand (30_encoding R96, R97, 44_image_sequence R202). -/

namespace Sys2Proof.Machine

theorem linePair_length (p : Nat) : (linePair p).length = 8 := rfl

theorem header_length : header.length = 26 := by decide

/-- The pairs one after the other: 8 words each, pair `a / 8` at word `a`. -/
theorem pairs_getElem? (n : Nat) :
    ((List.range n).flatMap linePair).length = 8 * n ∧
    ∀ a, a < 8 * n → ((List.range n).flatMap linePair)[a]? = (linePair (a / 8))[a % 8]? := by
  induction n with
  | zero => simp
  | succ n ih =>
    rw [List.range_succ, List.flatMap_append]
    simp only [List.flatMap_cons, List.flatMap_nil, List.append_nil]
    refine ⟨by rw [List.length_append, ih.1, linePair_length]; ring, ?_⟩
    intro a ha
    by_cases h : a < 8 * n
    · rw [List.getElem?_append_left (by rw [ih.1]; exact h), ih.2 a h]
    · rw [List.getElem?_append_right (by rw [ih.1]; omega), ih.1, show a / 8 = n by omega,
        show a - 8 * n = a % 8 by omega]

theorem firstRow_toNat (p : Nat) (h : p < 248) : (firstRow p).toNat = 2 * p := by simp [firstRow]; omega

theorem secondRow_toNat (p : Nat) (h : p < 248) : (secondRow p).toNat = 2 * p + 1 := by simp [secondRow]; omega

theorem romInstr_header (a : Nat) (h : a < 26) : romInstr a = header.getD a .end_ := by rw [romInstr, if_pos h]

/-- The `j`-th operation of pair `p` (R202). -/
theorem romInstr_pair (p j : Nat) (hp : p < 248) (hj : j < 8) :
    romInstr (26 + 8 * p + j) = (linePair p).getD j .end_ := by
  rw [romInstr, if_neg (by omega), if_pos (by omega), show (26 + 8 * p + j - 26) / 8 = p by omega,
    show (26 + 8 * p + j - 26) % 8 = j by omega]

theorem romInstr_stop : romInstr 2010 = .stop := rfl

/-- `END` from address 2011 on (R71, R202). -/
theorem romInstr_end (a : Nat) (h : 2011 ≤ a) : romInstr a = .end_ := by
  unfold romInstr; rw [if_neg (by omega), if_neg (by omega), if_neg (by omega)]

end Sys2Proof.Machine
end

