-- ==== Sys2Proof/Laws/Run.lean ====
section
/-! SUPPORT. Runs of many steps (10_state R38), many updates of the synthesizer (45_tone_generator R220), and the
synthesizer left out of the shared operations (R224, R225). -/

namespace Sys2Proof.Machine

/-! ### Runs -/

@[simp] theorem runSteps_zero (s : State) : runSteps 0 s = .next s := rfl

theorem runSteps_succ (n : Nat) (s : State) : runSteps (n + 1) s = andThen (step s) (runSteps n) := rfl

/-- A run of `m + n` steps is one of `m` and then one of `n`. -/
theorem runSteps_add (m n : Nat) (s : State) : runSteps (m + n) s = andThen (runSteps m s) (runSteps n) := by
  induction m generalizing s with
  | zero => simp [runSteps]
  | succ m ih =>
    rw [show m + 1 + n = (m + n) + 1 by omega, runSteps_succ, runSteps_succ]
    cases step s with
    | next t => exact ih t
    | fault r => rfl
    | refused r => rfl

/-! ### The synthesizer -/

/-- `m + k` updates are `m` and then `k` (R220). -/
theorem phaseAfter_add (rate : Nat) (en : Bool) (hz : BitVec 16) (m k : Nat) (ph : BitVec 32) :
    phaseAfter rate en hz (m + k) ph = phaseAfter rate en hz k (phaseAfter rate en hz m ph) := by
  induction m generalizing ph with
  | zero => simp [phaseAfter]
  | succ m ih => rw [show m + 1 + k = (m + k) + 1 by omega, phaseAfter, phaseAfter, ih]

/-- A silent synthesizer at phase 0 stays there (R220, R223). -/
theorem phaseAfter_silent (rate : Nat) (hz : BitVec 16) (n : Nat) : phaseAfter rate false hz n 0#32 = 0#32 := by
  induction n with
  | zero => rfl
  | succ n ih => simpa [phaseAfter, nextPhase] using ih

/-- Two states agree without the synthesizer exactly if they differ only in its two fields. -/
theorem dropNco_eq_iff (s t : State) :
    s.dropNco = t.dropNco ↔ ∃ ph fr, t = { s with ncoPhase := ph, ncoFrac := fr } := by
  constructor
  · intro h
    refine ⟨t.ncoPhase, t.ncoFrac, ?_⟩
    cases s; cases t; simp only [State.dropNco, State.mk.injEq] at h ⊢; simp_all
  · rintro ⟨ph, fr, rfl⟩; rfl

theorem dropNco_passTime (s : State) : s.passTime.dropNco = s.tick.dropNco := rfl

theorem dropNco_advancePc (s : State) : s.advancePc.dropNco = s.dropNco.advancePc := by
  by_cases h : s.seqPc = 2047#11
  · rw [State.advancePc, if_pos h, State.advancePc, if_pos (show s.dropNco.seqPc = _ from h)]; rfl
  · rw [State.advancePc, if_neg h, State.advancePc, if_neg (show ¬ s.dropNco.seqPc = _ from h)]; rfl

theorem dropNco_bumpIndex (s : State) : s.bumpIndex.dropNco = s.dropNco.bumpIndex := by
  by_cases h : s.pixIdx + 1#10 = 640#10
  · rw [State.bumpIndex, if_pos h, State.bumpIndex, if_pos (show s.dropNco.pixIdx + 1#10 = _ from h)]; rfl
  · rw [State.bumpIndex, if_neg h, State.bumpIndex, if_neg (show ¬ s.dropNco.pixIdx + 1#10 = _ from h)]; rfl

/-- A pixel read does not look at the synthesizer (R224). -/
theorem pixRead_nco (s : State) (ph : BitVec 32) (fr xc yc : Nat) :
    pixRead { s with ncoPhase := ph, ncoFrac := fr } xc yc =
      andThen (pixRead s xc yc) fun r => .next (r.1, { r.2 with ncoPhase := ph, ncoFrac := fr }) := by
  unfold pixRead
  simp only
  split
  · split
    · split <;> rfl
    · rfl
  · rfl

end Sys2Proof.Machine
end

