-- ==== Sys2Proof/Machine/Asm.lean ====
section
/-! DEFINITION. The assembler syntax (30_encoding R91) and its pseudo-operations (R92 to R97), on lists of
characters. Notation only: no step reads it. -/

namespace Sys2Proof.Machine

/-- The value of a digit, to base 16. -/
def digitValue (c : Char) : Option Nat :=
  if '0' ≤ c ∧ c ≤ '9' then some (c.toNat - 48)
  else if 'a' ≤ c ∧ c ≤ 'f' then some (c.toNat - 87)
  else if 'A' ≤ c ∧ c ≤ 'F' then some (c.toNat - 55)
  else none

/-- Digits to a base, most significant first, after `acc`. -/
def readDigits (base : Nat) : Nat → List Char → Option Nat
  | acc, [] => some acc
  | acc, c :: cs =>
    match digitValue c with
    | some d => if d < base then readDigits base (acc * base + d) cs else none
    | none => none

/-- A decimal, or `0x` hexadecimal, non-negative integer (R91). -/
def readNumber (cs : List Char) : Option Nat :=
  match cs with
  | [] => none
  | ['0', 'x'] => none
  | '0' :: 'x' :: ds => readDigits 16 0 ds
  | ds => readDigits 10 0 ds

/-- Spaces at both ends taken off. -/
def trimSpaces (cs : List Char) : List Char :=
  ((cs.dropWhile (· == ' ')).reverse.dropWhile (· == ' ')).reverse

/-- The line without its comment and without its address label (R91). -/
def bareLine (cs : List Char) : List Char :=
  let code := cs.takeWhile (· != ';')
  if code.contains ':' then trimSpaces ((code.dropWhile (· != ':')).drop 1) else trimSpaces code

/-- Operands separated by commas (R91). -/
def readOperands (cs : List Char) : Option (List Nat) :=
  if trimSpaces cs = [] then some [] else ((cs.splitOn ',').map trimSpaces).mapM readNumber

/-- A mnemonic of R91 to R97 with its operands, and the operations it stands for; a value outside its field or its
range has none. -/
def expand (mnemonic : List Char) (ops : List Nat) : Option (List Instr) :=
  match mnemonic, ops with
  | ['E', 'N', 'D'], [] => some [.end_]
  | ['S', 'T', 'O', 'P'], [] => some [.stop]
  | ['S', 'E', 'T', 'F'], [hz] => if hz < 2 ^ 16 then some [.setf (BitVec.ofNat 16 hz)] else none
  | ['W', 'A', 'I', 'T'], [us] => if us < 2 ^ 28 then some [.wait (BitVec.ofNat 28 us)] else none
  | ['S', 'C', 'A', 'N', 'Y'], [a] => if a < Config.height then some [.scany (BitVec.ofNat 12 a)] else none
  | ['S', 'C', 'A', 'N', 'R', 'Y'], [a, b] =>
    if a < Config.height ∧ b < Config.height then some [.scanry (BitVec.ofNat 12 a) (BitVec.ofNat 12 b)] else none
  | ['S', 'C', 'A', 'N', 'B', 'Y'], [a, b] =>
    if a < Config.height ∧ b < Config.height then some [.scanby (BitVec.ofNat 12 a) (BitVec.ofNat 12 b)] else none
  | ['T', 'O', 'N', 'E'], [hz, us] =>
    if hz < 2 ^ 16 ∧ us < 2 ^ 28 then some (tone (BitVec.ofNat 16 hz) (BitVec.ofNat 28 us)) else none
  | ['V', 'I', 'S', 'B', 'I', 'T'], [b] => if b < 2 then some (visBit (b == 1)) else none
  | ['H', 'E', 'A', 'D', 'E', 'R'], [] => some header
  | ['S', 'Y', 'N', 'C'], [] => some sync
  | ['P', 'O', 'R', 'C', 'H'], [] => some porch
  | ['L', 'I', 'N', 'E', 'P', 'A', 'I', 'R'], [p] => if p < Config.numPairs then some (linePair p) else none
  | ['I', 'M', 'A', 'G', 'E'], [] => some image
  | ['T', 'X', 'I', 'M', 'A', 'G', 'E'], [] => some txImage
  | _, _ => none

/-- One line (R91): no operation, or what its mnemonic stands for; `none` where it is malformed. -/
def assembleLine (cs : List Char) : Option (List Instr) :=
  match bareLine cs with
  | [] => some []
  | line =>
    match readOperands (line.dropWhile (· != ' ')) with
    | some ops => expand (line.takeWhile (· != ' ')) ops
    | none => none

/-- A program, one operation a line. -/
def assemble (lines : List (List Char)) : Option (List Instr) :=
  (lines.mapM assembleLine).map List.flatten

/-- An operation as R91 writes it, operands in decimal. -/
def instrText : Instr → List Char
  | .end_ => ['E', 'N', 'D']
  | .setf hz => ['S', 'E', 'T', 'F', ' '] ++ Nat.toDigits 10 hz.toNat
  | .wait us => ['W', 'A', 'I', 'T', ' '] ++ Nat.toDigits 10 us.toNat
  | .stop => ['S', 'T', 'O', 'P']
  | .scany a => ['S', 'C', 'A', 'N', 'Y', ' '] ++ Nat.toDigits 10 a.toNat
  | .scanry a b =>
    ['S', 'C', 'A', 'N', 'R', 'Y', ' '] ++ Nat.toDigits 10 a.toNat ++ [',', ' '] ++ Nat.toDigits 10 b.toNat
  | .scanby a b =>
    ['S', 'C', 'A', 'N', 'B', 'Y', ' '] ++ Nat.toDigits 10 a.toNat ++ [',', ' '] ++ Nat.toDigits 10 b.toNat

end Sys2Proof.Machine
end

