-- ==== Sys2Proof/Tests/Slice0.lean ====
section
/-! SUPPORT. The model's own tests: ill-formed terms, words written out from the encodings, one step of each
operation, and a witness for the hypotheses of each statement. Expected values are those of spec/95_test_vectors.md
or were worked out by hand from the rules named. -/

namespace Sys2Proof.Tests

open Sys2Proof Sys2Proof.Machine

/-! ### Helpers -/

/-- RDY at an address of the fixed program. -/
def rdyAt (a : BitVec 11) : State := { State.reset with seqSt := .rdy, seqPc := a }

/-- RDY at address 7 with `w` placed there. -/
def loadedWith (w : Nat) : State := { State.reset with seqPc := 7#11, time := 50 }.withFetchWord 32 w

/-- A wait in progress at address 1 (`WAIT 300000`). -/
def waiting (d : BitVec 28) : State := { State.reset with seqSt := .dlyw, seqPc := 1#11, dly := d }

/-- The RDIFF segment of pair 0 in progress, at column `x`. -/
def scanning (x : BitVec 10) (t : BitVec 8) : State :=
  { State.reset with
    seqSt := .segw, seqPc := 31#11, segKind := .rdiff, rowA := 0#12, rowB := 1#12, pixIdx := x, armed := true
    pixt := t }

/-- The same segment when its last callback has been. -/
def scanned : State :=
  { State.reset with
    seqSt := .segw, seqPc := 31#11, segKind := .rdiff, rowA := 0#12, rowB := 1#12, pixIdx := 640#10, done := true }

/-- IDLE with one move of the host due. -/
def hosted (op : HostOp) : State := { State.reset with hostq := [⟨0, op⟩] }

/-- A field of a next state. -/
def field {α : Type} (f : State → α) (o : Out State) : Option α :=
  match o with
  | .next s => some (f s)
  | .fault _ => none
  | .refused _ => none

/-! ### Ill-formed operations (R85) -/

theorem test_scany_row_496_ill_formed : (Instr.scany 496#12).wellFormed = false := by decide
theorem test_scanry_row_a_ill_formed : (Instr.scanry 496#12 0#12).wellFormed = false := by decide
theorem test_scanry_row_b_ill_formed : (Instr.scanry 0#12 496#12).wellFormed = false := by decide
theorem test_scanby_row_a_ill_formed : (Instr.scanby 4095#12 0#12).wellFormed = false := by decide
theorem test_scanby_row_b_ill_formed : (Instr.scanby 0#12 4095#12).wellFormed = false := by decide
theorem test_row_495_well_formed : (Instr.scanby 495#12 495#12).wellFormed = true := by decide

/-! ### Decoding: words written out bit by bit from R81 and R84, and the table of 95_test_vectors section 3 -/

theorem test_decode_end : decode 0b0000_0000000000000000000000000000#32 = .ok .end_ := rfl
theorem test_decode_setf : decode 0b0001_000000000000_0000011101101100#32 = .ok (.setf 1900#16) := rfl
theorem test_decode_setf_max : decode 0x1000FFFF#32 = .ok (.setf 65535#16) := rfl
theorem test_decode_wait : decode 0b0010_0000000001001001001111100000#32 = .ok (.wait 300000#28) := rfl
theorem test_decode_wait_max : decode 0x2FFFFFFF#32 = .ok (.wait 268435455#28) := rfl
theorem test_decode_stop : decode 0b0011_0000000000000000000000000000#32 = .ok .stop := rfl
theorem test_decode_scany : decode 0b0101_0000000000000000_000111101111#32 = .ok (.scany 495#12) := rfl
theorem test_decode_scanry :
    decode 0b0110_0000_000111101111_000111101110#32 = .ok (.scanry 494#12 495#12) := rfl
theorem test_decode_scanby :
    decode 0b0111_0000_000000000011_000000000101#32 = .ok (.scanby 5#12 3#12) := rfl
theorem test_refuse_end_field : decode 0x00000001#32 = .error .reservedField := rfl
theorem test_refuse_setf_field : decode 0x10010000#32 = .error .reservedField := rfl
theorem test_refuse_stop_field : decode 0x30000001#32 = .error .reservedField := rfl
theorem test_refuse_scany_field : decode 0x50001000#32 = .error .reservedField := rfl
theorem test_refuse_scany_row : decode 0x500001F0#32 = .error .rowOutOfRange := rfl
theorem test_refuse_scanry_rows :
    decode 0x600001F0#32 = .error .rowOutOfRange ∧ decode 0x601F0000#32 = .error .rowOutOfRange := ⟨rfl, rfl⟩
theorem test_refuse_pair_field :
    decode 0x61000000#32 = .error .reservedField ∧ decode 0x7FFFFFFF#32 = .error .reservedField := ⟨rfl, rfl⟩
theorem test_refuse_opcodes :
    decode 0x40000000#32 = .error .reservedOpcode ∧ decode 0x80000000#32 = .error .reservedOpcode ∧
    decode 0xFFFFFFFF#32 = .error .reservedOpcode := ⟨rfl, rfl, rfl⟩
/-- `Encode` of pair 100 (section 3). -/
theorem test_encode_pair :
    (pairScans 100).map encode = [0x500000C8#32, 0x600C90C8#32, 0x700C90C8#32, 0x500000C9#32] := by decide
theorem test_decode_table_word : decodeTableWord 32 0x1000076C = some (.setf 1900#16) := rfl

/-! ### Assembler (R91 to R93) -/

theorem test_assemble_setf :
    assembleLine ['0', ':', ' ', 'S', 'E', 'T', 'F', ' ', '1', '9', '0', '0', ' ', ';', ' ', 'x'] =
      some [.setf 1900#16] := by decide
theorem test_assemble_pair :
    assembleLine ['S', 'C', 'A', 'N', 'R', 'Y', ' ', '0', 'x', '3', ',', ' ', '7'] =
      some [.scanry 3#12 7#12] := by decide
theorem test_assemble_visbit :
    assembleLine ['V', 'I', 'S', 'B', 'I', 'T', ' ', '0'] = some [.setf 1300#16, .wait 30000#28] := by decide
theorem test_assemble_row_496 : assembleLine ['S', 'C', 'A', 'N', 'Y', ' ', '4', '9', '6'] = none := by decide

/-! ### Colour and frequency (95_test_vectors sections 1 and 2) -/

theorem test_luma :
    ([⟨0, 0, 0⟩, ⟨255, 255, 255⟩, ⟨255, 0, 0⟩, ⟨12, 200, 77⟩, ⟨0, 24, 33⟩, ⟨0, 21, 82⟩] : List Pixel).map lumFreq =
      [1500, 2300, 1739, 1907, 1556, 1568] := by decide
theorem test_red_difference :
    (([⟨0, 0, 0⟩, ⟨255, 0, 0⟩, ⟨0, 255, 255⟩, ⟨0, 0, 3⟩, ⟨200, 100, 50⟩] : List Pixel).map fun p =>
      diffFreq (ryn p + ryn p)) = [1901, 2301, 1501, 1900, 2071] := by decide
theorem test_blue_difference :
    (([⟨0, 0, 255⟩, ⟨255, 255, 0⟩, ⟨0, 255, 0⟩, ⟨12, 200, 77⟩] : List Pixel).map fun p =>
      diffFreq (byn p + byn p)) = [2301, 1501, 1636, 1808] := by decide
theorem test_two_rows :
    diffFreq (ryn ⟨12, 200, 77⟩ + ryn ⟨200, 100, 50⟩) = 1854 ∧ diffFreq (byn ⟨12, 200, 77⟩ + byn ⟨200, 100, 50⟩) = 1789 := by
  decide
theorem test_thresholds :
    ([-256000000, -255362501, -255362500, -362501, -362500, 274999, 275000, 254000000, 254637499, 254637500] :
      List Int).map diffFreq = [1500, 1500, 1501, 1900, 1901, 1901, 1902, 2300, 2300, 2301] := by decide

/-! ### One step of each operation (95_test_vectors section 4) -/

theorem test_setf_step :
    field (fun t => (t.toneEn, t.toneFreq, t.seqPc, t.trace)) (step (loadedWith 0x1000076C)) =
      some (true, 1900#16, 8#11, [.setFreq 50 1900#16]) := by decide
theorem test_setf_zero :
    field (fun t => (t.toneEn, t.toneFreq, t.trace)) (step (loadedWith 0x10000000)) =
      some (true, 0#16, [.setFreq 50 0#16]) := by decide
theorem test_wait_step :
    field (fun t => (t.dly, t.seqSt, t.seqPc, t.time)) (step (loadedWith 0x200493E0)) =
      some (300000#28, .dlyw, 7#11, 50) := by decide
theorem test_wait_end :
    field (fun t => (t.seqSt, t.seqPc, t.time)) (step (waiting 0#28)) = some (.rdy, 2#11, 0) := by decide
theorem test_stop_step :
    field (fun t => (t.toneEn, t.toneFreq, t.seqPc, t.trace)) (step (loadedWith 0x30000000)) =
      some (false, 0#16, 8#11, [.stop 50]) := by decide
/-- R223: a stopped synthesizer starts at phase 0. -/
theorem test_stop_clears_phase :
    field (fun t => (t.toneEn, t.ncoPhase, t.time))
      (step { loadedWith 0x30000000 with toneEn := true, toneFreq := 1200#16, ncoPhase := 7#32 }) =
      some (false, 0#32, 50) := by decide
theorem test_end_step :
    field (fun t => (t.seqSt, t.seqPc, t.trace)) (step (loadedWith 0)) = some (.idle, 7#11, []) := by decide
theorem test_scany_step :
    field (fun t => (t.segKind, t.rowA, t.rowB, t.pixIdx, t.done, t.armed, t.pixt, t.seqSt))
      (step (loadedWith 0x500001EF)) = some (.luma, 495#12, 0#12, 0#10, false, true, 190#8, .segw) := rfl
theorem test_scanry_step :
    field (fun t => (t.segKind, t.rowA, t.rowB, t.seqPc)) (step (loadedWith 0x60007003)) =
      some (.rdiff, 3#12, 7#12, 7#11) := by decide
theorem test_scanby_step :
    field (fun t => (t.segKind, t.rowA, t.rowB, t.trace)) (step (loadedWith 0x70003005)) =
      some (.bdiff, 5#12, 3#12, []) := by decide
theorem test_refuse_step :
    step (loadedWith 0x500001F0) = .refused .rowOutOfRange ∧ step (loadedWith 0x40000000) = .refused .reservedOpcode ∧
    step (loadedWith 0x30000001) = .refused .reservedField := ⟨rfl, rfl, rfl⟩

/-! ### Callbacks, host, status (95_test_vectors sections 4, 5 and 9) -/

/-- W5, column 0 on `GRAD`: rows 0 and 1 hold (0, 0, 0) and (0, 1, 1). -/
theorem test_callback :
    field (fun t => (t.toneFreq, t.pixIdx, t.pixt, t.armed, t.done, t.trace))
      (step { scanning 0#10 0#8 with pix := pixPut [] (pixNum 0 1) ⟨0, 1, 1⟩ }) =
      some (1900#16, 1#10, 190#8, true, false, [.setFreq 0 1900#16]) := rfl
/-- The last callback on the blank image. -/
theorem test_last_callback :
    field (fun t => (t.toneFreq, t.pixIdx, t.pixt, t.armed, t.done)) (step (scanning 639#10 0#8)) =
      some (1901#16, 640#10, 0#8, false, true) := by decide
/-- V1. -/
theorem test_start :
    field (fun t => (t.seqSt, t.seqPc, t.time, t.csrValue 1#3)) (step (hosted (.csrWrite 0#3 1#32))) =
      some (.rdy, 0#11, 0, 0x41#32) := by decide
/-- V11. -/
theorem test_start_ignored :
    step { waiting 5#28 with hostq := [⟨0, .csrWrite 0#3 1#32⟩] } = .next (waiting 5#28) := rfl
/-- `STATUS` in V3, during and after W1. -/
theorem test_status :
    ({ waiting 300000#28 with toneEn := true, toneFreq := 1900#16 }.csrValue 1#3,
     { scanning 0#10 190#8 with segKind := .luma }.csrValue 1#3,
     { scanned with segKind := .luma, toneEn := true }.csrValue 1#3) = (0x89#32, 0xD3#32, 0xDD#32) := by decide
/-- `SEGROWS` of P5. -/
theorem test_segrows : ({ scanned with rowA := 3#12, rowB := 7#12 } : State).csrValue 3#3 = 0x00007003#32 := by decide
/-- R260: START is ignored while reset is asserted. -/
theorem test_start_under_reset :
    field (fun t => (t.seqSt, t.rst, t.hostq)) (step { hosted (.csrWrite 0#3 1#32) with rst := true }) =
      some (.idle, true, []) := by decide
/-- V13. -/
theorem test_reset_move :
    field (fun t => (t.seqSt, t.armed, t.pixIdx, t.rst, t.trace))
      (step { scanning 5#10 0#8 with hostq := [⟨0, .rst true⟩] }) = some (.idle, false, 0#10, true, []) := by decide

/-! ### Observation and synthesizer (95_test_vectors section 8) -/

theorem test_waveform :
    waveform 40 [.setFreq 0 1900#16, .setFreq 10 1200#16, .setFreq 10 1100#16, .setFreq 20 1100#16, .stop 30] =
      [(some 1900#16, 10), (some 1100#16, 20), (none, 10)] := by decide
theorem test_header_events :
    (pulseEvents 0 (headerPulses Config.vis)).map Event.at =
      [0, 300000, 310000, 610000, 640000, 670000, 700000, 730000, 760000, 790000, 820000, 850000, 880000] := by decide
theorem test_tuning_words :
    [1100#16, 1200#16, 1300#16, 1500#16, 1900#16, 2300#16, 2301#16, 0#16].map (tuningWord 1000000) =
      [4724464, 5153960, 5583457, 6442450, 8160437, 9878424, 9882719, 0] := by decide
theorem test_phase_continues :
    nextPhase 1000000 true 1200#16 2448131100#32 = 2453285060#32 := by decide

/-! ### Invariants on small states, for the witnesses below -/

theorem seqInv_rdyAt (a : BitVec 11) : SeqInv (rdyAt a) := by constructor <;> simp [rdyAt, State.reset]

theorem seqInv_waiting (d : BitVec 28) : SeqInv (waiting d) := by constructor <;> simp [waiting, State.reset]

theorem seqInv_scanning (x : BitVec 10) (t : BitVec 8) (hx : x.toNat < 640) (ht : t.toNat ≤ 190) :
    SeqInv (scanning x t) := by
  constructor <;> simp [scanning, State.reset, hx, ht]

theorem seqInv_scanned : SeqInv scanned := by constructor <;> simp [scanned, State.reset]

theorem steady (s : State) (h : s.sourceOk = true) (hd : s.pixDirty = []) : ImageSteady s := ⟨h, hd⟩

/-! ### Witnesses: states and operands that meet each statement's hypotheses, clause by clause -/

theorem witness_DecodeEncodeRoundTrip :
    (Instr.scanry 0#12 495#12).wellFormed = true ∧ decode 0x501EF000#32 ≠ .ok (.scany 0#12) ∧
    decode 0x20000000#32 = .ok (.wait 0#28) := by decide

theorem witness_IllegalWordsRefusedByName : (0 : Nat) < 2048 ∧ (2047 : Nat) < 2048 := by decide

theorem witness_RomHoldsTxImage : State.reset.prom = [] ∧ (2011 : Nat) < 2012 ∧ (2012 : Nat) < 2048 := by decide

theorem witness_RomContents : State.reset.prom = [] ∧ (0 : Nat) < 248 ∧ (247 : Nat) < 248 := by decide

theorem witness_FrequencyRanges :
    (254904630 : Int) = ryn ⟨255, 0, 0⟩ + ryn ⟨255, 0, 0⟩ ∧ (254849040 : Int) = byn ⟨0, 0, 255⟩ + byn ⟨0, 0, 255⟩ := by
  decide

theorem witness_FrequencyMapsAreMonotone :
    y1000 ⟨0, 0, 0⟩ ≤ y1000 ⟨255, 255, 255⟩ ∧ (-362500 : Int) ≤ 274999 := by decide

theorem witness_GreyGives1901 :
    ryn ⟨255, 0, 0⟩ + ryn ⟨0, 255, 255⟩ = 0 ∧ byn ⟨255, 0, 0⟩ + byn ⟨0, 255, 255⟩ = 0 := by decide

theorem witness_EndReturnsToIdle : (rdyAt 2011#11).armed = false ∧ (rdyAt 2011#11).rst = false := ⟨rfl, rfl⟩

theorem witness_SetfSoundsTone : (rdyAt 0#11).seqPc ≠ 2047#11 ∧ (rdyAt 2046#11).seqPc ≠ 2047#11 := by decide

theorem witness_StopSilencesTone : (rdyAt 2010#11).seqPc ≠ 2047#11 ∧ (rdyAt 2046#11).seqPc ≠ 2047#11 := by decide

theorem witness_ScanIssueArmsTimer :
    (0#12 : BitVec 12).toNat < 496 ∧ (495#12 : BitVec 12).toNat < 496 ∧
    scanOf (.scany 3#12) = some (.luma, 3#12, 0#12) ∧ scanOf (.scanry 3#12 7#12) = some (.rdiff, 3#12, 7#12) ∧
    scanOf (.scanby 3#12 3#12) = some (.bdiff, 3#12, 3#12) := by decide

theorem witness_ScanRefusesRowOutOfRange :
    496 ≤ (496#12 : BitVec 12).toNat ∧ (496 ≤ (4095#12 : BitVec 12).toNat ∨ 496 ≤ (0#12 : BitVec 12).toNat) ∧
    (496 ≤ (0#12 : BitVec 12).toNat ∨ 496 ≤ (496#12 : BitVec 12).toNat) := by decide

/-- At 2047: a tone operation, the end of a wait, and the end of a segment. -/
theorem witness_AdvancePastEndIsFree :
    (rdyAt 2047#11).seqPc = 2047#11 ∧
    (({ waiting 0#28 with seqPc := 2047#11 } : State).seqPc = 2047#11 ∧
      HostQuiet { waiting 0#28 with seqPc := 2047#11 } ∧ (waiting 0#28).armed = false ∧
      (waiting 0#28).seqSt = .dlyw ∧ (waiting 0#28).dly = 0#28) ∧
    ({ scanned with seqPc := 2047#11 } : State).seqPc = 2047#11 ∧ HostQuiet { scanned with seqPc := 2047#11 } ∧
      scanned.armed = false ∧ scanned.seqSt = .segw ∧ scanned.done = true :=
  ⟨rfl, ⟨rfl, ⟨rfl, rfl⟩, rfl, rfl, rfl⟩, rfl, ⟨rfl, rfl⟩, rfl, rfl, rfl⟩

theorem witness_ToneOpsFrame :
    (∃ t, exec (.setf 1900#16) (rdyAt 0#11) = .next t) ∧ (∃ t, exec .stop (rdyAt 2047#11) = .next t) :=
  ⟨⟨_, rfl⟩, ⟨_, rfl⟩⟩

theorem witness_WaitEndFrame :
    (∃ t, exec (.wait 0#28) (rdyAt 0#11) = .next t) ∧ (∃ t, exec .end_ (rdyAt 2011#11) = .next t) :=
  ⟨⟨_, rfl⟩, ⟨_, rfl⟩⟩

theorem witness_ScanIssueFrame :
    (∃ t, exec (.scany 495#12) (rdyAt 0#11) = .next t) ∧ (∃ t, exec (.scanry 0#12 1#12) (rdyAt 0#11) = .next t) ∧
    (∃ t, exec (.scanby 494#12 495#12) (rdyAt 0#11) = .next t) := ⟨⟨_, rfl⟩, ⟨_, rfl⟩, ⟨_, rfl⟩⟩

theorem witness_CallbackFrame :
    (∃ t, fire (scanning 0#10 0#8) = .next t) ∧ (∃ t, fire (scanning 638#10 0#8) = .next t) ∧
    (∃ t, fire (scanning 639#10 0#8) = .next t) := ⟨⟨_, rfl⟩, ⟨_, rfl⟩, ⟨_, rfl⟩⟩

theorem witness_StepRunsDecodedInstr :
    (hostDue (rdyAt 0#11) = none ∧ (rdyAt 0#11).rst = false ∧ (rdyAt 0#11).hostq = []) ∧
    AtInstr (rdyAt 0#11) (.setf 1900#16) ∧
    hostDue { rdyAt 2011#11 with hostq := [⟨2, .rst true⟩] } = none ∧
    AtInstr { rdyAt 2011#11 with hostq := [⟨2, .rst true⟩] } .end_ :=
  ⟨⟨rfl, rfl, rfl⟩, ⟨rfl, rfl, rfl⟩, rfl, ⟨rfl, rfl, rfl⟩⟩

theorem witness_StepRefusesIllegalWord :
    (∀ w ∈ [0x40000000, 0x30000001, 0x500001F0], hostDue (loadedWith w) = none ∧ (loadedWith w).rst = false ∧
      (loadedWith w).seqSt = .rdy ∧ (loadedWith w).armed = false) ∧
    decode (loadedWith 0x40000000).fetch = .error .reservedOpcode ∧
    decode (loadedWith 0x30000001).fetch = .error .reservedField ∧
    decode (loadedWith 0x500001F0).fetch = .error .rowOutOfRange :=
  ⟨fun _ _ => ⟨rfl, rfl, rfl, rfl⟩, rfl, rfl, rfl⟩

theorem witness_FetchReadsPlacedWord : (6 : Nat) ≠ (rdyAt 7#11).seqPc.toNat := by decide

theorem witness_SegmentEndsAtDone :
    ((scanning 639#10 0#8).seqSt = .segw ∧ (scanning 639#10 0#8).done = false) ∧
    HostQuiet scanned ∧ scanned.seqSt = .segw ∧ scanned.done = true ∧ scanned.armed = false ∧
    scanned.seqPc ≠ 2047#11 := ⟨⟨rfl, rfl⟩, ⟨rfl, rfl⟩, rfl, rfl, rfl, by decide⟩

theorem witness_TickIsUrgentLast :
    (SeqInv (waiting 1#28) ∧ (waiting 1#28).rst = false ∧ (waiting 1#28).choose = .tick ∧
      (waiting 0#28).choose = .waitEnd) ∧
    (SeqInv (scanning 0#10 190#8) ∧ HostQuiet (scanning 0#10 190#8) ∧ (scanning 0#10 190#8).choose = .tick ∧
      (scanning 0#10 0#8).choose = .fire) ∧
    SeqInv State.reset ∧ HostQuiet State.reset ∧ State.reset.seqSt = .idle := by
  refine ⟨⟨seqInv_waiting _, rfl, rfl, rfl⟩, ⟨seqInv_scanning _ _ (by decide) (by decide), ⟨rfl, rfl⟩, rfl, rfl⟩, ?_,
    ⟨rfl, rfl⟩, rfl⟩
  constructor <;> simp [State.reset]

theorem witness_FireDrivesTone :
    (HostQuiet (scanning 638#10 0#8) ∧ ImageSteady (scanning 638#10 0#8) ∧ SeqInv (scanning 638#10 0#8) ∧
      (scanning 638#10 0#8).armed = true ∧ (scanning 638#10 0#8).pixt = 0#8) ∧
    HostQuiet (scanning 639#10 0#8) ∧ ImageSteady (scanning 639#10 0#8) ∧ SeqInv (scanning 639#10 0#8) ∧
      (scanning 639#10 0#8).armed = true ∧ (scanning 639#10 0#8).pixt = 0#8 :=
  ⟨⟨⟨rfl, rfl⟩, steady _ (by decide) rfl, seqInv_scanning _ _ (by decide) (by decide), rfl, rfl⟩,
    ⟨rfl, rfl⟩, steady _ (by decide) rfl, seqInv_scanning _ _ (by decide) (by decide), rfl, rfl⟩

/-- All three kinds, at the last column and the last row. -/
theorem witness_CallbackFrequencies :
    (∀ k ∈ [SegKind.luma, .rdiff, .bdiff],
      ImageSteady { scanning 639#10 0#8 with segKind := k, rowA := 495#12, rowB := 0#12 } ∧
      (639#10 : BitVec 10).toNat < 640 ∧ (495#12 : BitVec 12).toNat < 496 ∧ (0#12 : BitVec 12).toNat < 496) ∧
    SeqInv (scanning 0#10 0#8) ∧ (scanning 0#10 0#8).fireEnabled = true :=
  ⟨fun _ _ => ⟨steady _ (show State.sourceOk State.reset = true by decide) rfl, by decide, by decide, by decide⟩,
    seqInv_scanning _ _ (by decide) (by decide), by decide⟩

theorem witness_CallbackAlwaysCompletes :
    (SeqInv (scanning 639#10 0#8) ∧ (scanning 639#10 0#8).armed = true ∧ (scanning 639#10 0#8).sourceOk = true) ∧
    pixNum 639 495 ∈ ({ State.reset with pixDirty := [317439] } : State).pixDirty ∧
    pixNum 0 0 ∉ ({ State.reset with pixDirty := [317439] } : State).pixDirty :=
  ⟨⟨seqInv_scanning _ _ (by decide) (by decide), rfl, by decide⟩, by decide, by decide⟩

theorem witness_CallbackReadsItsPixels :
    ImageSteady (scanning 5#10 0#8) ∧
    ImageSteady { scanning 5#10 0#8 with pix := pixPut [] (pixNum 6 0) ⟨1, 2, 3⟩ } ∧
    (∀ c ∈ readCoords .rdiff 5 0#12 1#12,
      (scanning 5#10 0#8).pixel c.1 c.2 =
        ({ scanning 5#10 0#8 with pix := pixPut [] (pixNum 6 0) ⟨1, 2, 3⟩ } : State).pixel c.1 c.2) :=
  ⟨steady _ (by decide) rfl, steady _ (by decide) rfl, by decide⟩

theorem witness_StartBeginsTransmission :
    ((hosted (.csrWrite 0#3 1#32)).hostq = ⟨0, .csrWrite 0#3 1#32⟩ :: [] ∧
      (hosted (.csrWrite 0#3 1#32)).rst = false ∧ (hosted (.csrWrite 0#3 1#32)).sourceOk = true ∧
      (1#32 : BitVec 32).getLsbD 0 = true ∧ (hosted (.csrWrite 0#3 1#32)).seqSt = .idle) ∧
    ({ waiting 5#28 with hostq := [⟨0, .csrWrite 0#3 1#32⟩] } : State).seqSt ≠ .idle ∧
    (2#32 : BitVec 32).getLsbD 0 = false := by decide

theorem witness_StartRefusesShortImage :
    (({ State.reset with srcW := 639 } : State).srcW < 640 ∨ ({ State.reset with srcW := 639 } : State).srcH < 496) ∧
    (({ State.reset with srcH := 495 } : State).srcW < 640 ∨ ({ State.reset with srcH := 495 } : State).srcH < 496) ∧
    ({ hosted (.csrWrite 0#3 1#32) with srcH := 495 } : State).rst = false := by decide

/-- Each clause: asserting, the machine's own step and a host's move under reset, START under reset, no move due, and
the release. -/
theorem witness_ResetHasPriority :
    ({ scanning 5#10 0#8 with hostq := [⟨0, .rst true⟩] } : State).hostq = ⟨0, .rst true⟩ :: [] ∧
    ((({ State.reset with rst := true } : State).rst = true → AtReset { State.reset with rst := true }) ∧
      (∃ t, step { State.reset with rst := true } = .next t) ∧
      (({ hosted (.csrWrite 0#3 1#32) with rst := true } : State).rst = true →
        AtReset { hosted (.csrWrite 0#3 1#32) with rst := true }) ∧
      ∃ t, step { hosted (.csrWrite 0#3 1#32) with rst := true } = .next t) ∧
    (({ hosted (.csrWrite 0#3 1#32) with rst := true } : State).hostq = ⟨0, .csrWrite 0#3 1#32⟩ :: [] ∧
      ({ hosted (.csrWrite 0#3 1#32) with rst := true } : State).rst = true) ∧
    (({ State.reset with rst := true } : State).rst = true ∧ hostDue { State.reset with rst := true } = none) ∧
    (hosted (.rst false)).hostq = ⟨0, .rst false⟩ :: [] :=
  ⟨rfl, ⟨fun _ => by constructor <;> rfl, ⟨_, rfl⟩, fun _ => by constructor <;> rfl, ⟨_, rfl⟩⟩, ⟨rfl, rfl⟩,
    ⟨rfl, rfl⟩, rfl⟩

theorem witness_CsrView :
    ((1#3 : BitVec 3) ≠ 0#3 ∧ (7#3 : BitVec 3) ≠ 0#3 ∧ (0xFFFFFFFE#32 : BitVec 32).getLsbD 0 = false) ∧
    (1#32 : BitVec 32).getLsbD 0 = (0xFFFFFFFF#32 : BitVec 32).getLsbD 0 ∧
    (hosted (.csrRead 1#3)).hostq = ⟨0, .csrRead 1#3⟩ :: [] ∧ (hosted (.csrRead 1#3)).zeroTimeEnabled = false := by
  decide

theorem witness_CsrReadIsPure :
    ({ rdyAt 0#11 with hostq := [⟨0, .csrRead 1#3⟩] } : State).hostq = ⟨0, .csrRead 1#3⟩ :: [] ∧
    ({ rdyAt 0#11 with hostq := [⟨0, .csrRead 1#3⟩] } : State).rst = false ∧
    ({ rdyAt 0#11 with hostq := [⟨0, .csrRead 1#3⟩] } : State).zeroTimeEnabled = true := by decide

theorem witness_HostWritesPixel :
    ((639 : Nat) < 640 ∧ (495 : Nat) < 496 ∧ State.reset.seqSt = .idle) ∧ ((0 : Nat) < 640 ∧ ((0, 0) : Nat × Nat) ≠ (639, 495)) ∧
    (scanning 0#10 5#8).seqSt ≠ .idle := by decide

theorem witness_SequencerInvariantKept :
    (SeqInv (scanning 639#10 0#8) ∧ ∃ t, step (scanning 639#10 0#8) = .next t) ∧
    PhaseInv { loadedWith 0x30000000 with toneEn := true, ncoPhase := 7#32 } ∧
    ∃ t, step { loadedWith 0x30000000 with toneEn := true, ncoPhase := 7#32 } = .next t :=
  ⟨⟨seqInv_scanning _ _ (by decide) (by decide), ⟨_, rfl⟩⟩, (fun h => by cases h), ⟨_, rfl⟩⟩

theorem witness_FixedProgramInvariants :
    SeqInv (scanning 639#10 0#8) ∧ RomInv (scanning 639#10 0#8) ∧ (∃ t, step (scanning 639#10 0#8) = .next t) ∧
    SeqInv (waiting 300000#28) ∧ RomInv (waiting 300000#28) :=
  ⟨seqInv_scanning _ _ (by decide) (by decide), ⟨rfl, by decide, (by intro h; cases h), fun _ => rfl⟩, ⟨_, rfl⟩,
    seqInv_waiting _, ⟨rfl, by decide, fun _ => ⟨300000#28, rfl, by decide⟩, (by intro h; cases h)⟩⟩

theorem witness_MemoryCanonicalKept :
    MemInv (hosted (.pixWrite 639 495 ⟨1, 2, 3⟩)) ∧ ∃ t, step (hosted (.pixWrite 639 495 ⟨1, 2, 3⟩)) = .next t :=
  ⟨⟨rfl, rfl, rfl⟩, ⟨_, rfl⟩⟩

theorem witness_TraceOrderKept : TraceInv (rdyAt 0#11) ∧ ∃ t, step (rdyAt 0#11) = .next t := by
  refine ⟨⟨?_, ?_⟩, ⟨_, rfl⟩⟩ <;> simp [rdyAt, State.reset]

theorem witness_FixedProgramNeverStops :
    SeqInv { rdyAt 30#11 with hostq := [⟨1, .pixWrite 639 495 ⟨1, 2, 3⟩⟩] } ∧
    RomInv { rdyAt 30#11 with hostq := [⟨1, .pixWrite 639 495 ⟨1, 2, 3⟩⟩] } ∧
    ({ rdyAt 30#11 with hostq := [⟨1, .pixWrite 639 495 ⟨1, 2, 3⟩⟩] } : State).sourceOk = true ∧
    HostInImage { rdyAt 30#11 with hostq := [⟨1, .pixWrite 639 495 ⟨1, 2, 3⟩⟩] } := by
  refine ⟨?_, ?_, by decide, ?_⟩
  · constructor <;> simp [rdyAt, State.reset]
  · exact ⟨rfl, by decide, (by intro h; cases h), (by intro h; cases h)⟩
  · intro m hm xc yc p e
    simp only [List.mem_singleton] at hm
    subst hm; cases e; decide

theorem witness_TonesStayInBand :
    RomInv (rdyAt 8#11) ∧ BandInv (rdyAt 8#11) ∧ ∃ t, step (rdyAt 8#11) = .next t := by
  refine ⟨⟨rfl, by decide, (by intro h; cases h), (by intro h; cases h)⟩, ?_, ⟨_, rfl⟩⟩
  constructor <;> simp [rdyAt, State.reset]

theorem witness_AtMostOneStepEnabled : SeqInv (rdyAt 0#11) ∧ SeqInv (waiting 0#28) ∧ SeqInv scanned :=
  ⟨seqInv_rdyAt _, seqInv_waiting _, seqInv_scanned⟩

theorem witness_NoWritePath :
    (∃ t, step (rdyAt 0#11) = .next t) ∧ ∀ xc yc p, hostDue (rdyAt 0#11) ≠ some (.pixWrite xc yc p) :=
  ⟨⟨_, rfl⟩, fun _ _ _ h => by cases h⟩

theorem witness_NcoTakesNoPart :
    (rdyAt 0#11).dropNco = ({ rdyAt 0#11 with ncoPhase := 7#32, ncoFrac := 3 } : State).dropNco := rfl

theorem witness_WaitLastsExactly :
    (HostQuiet (rdyAt 1#11) ∧ AtInstr (rdyAt 1#11) (.wait 300000#28) ∧ (rdyAt 1#11).seqPc ≠ 2047#11) ∧
    HostQuiet (loadedWith 0x20000000) ∧ AtInstr (loadedWith 0x20000000) (.wait 0#28) ∧
    (loadedWith 0x20000000).seqPc ≠ 2047#11 :=
  ⟨⟨⟨rfl, rfl⟩, ⟨rfl, rfl, rfl⟩, by decide⟩, ⟨rfl, rfl⟩, ⟨rfl, rfl, rfl⟩, by decide⟩

theorem witness_PulseRuns :
    HostQuiet (rdyAt 0#11) ∧ AtInstr (rdyAt 0#11) (.setf 1900#16) ∧ (rdyAt 0#11).seqPc.toNat < 2046 ∧
    decode ((rdyAt 0#11).promWord ((rdyAt 0#11).seqPc.toNat + 1)) = .ok (.wait 300000#28) :=
  ⟨⟨rfl, rfl⟩, ⟨rfl, rfl, rfl⟩, by decide, rfl⟩

/-- The second clause with the last pixel of row 1 marked. -/
theorem witness_ScanRunsToCompletion :
    (HostQuiet (rdyAt 31#11) ∧ ImageSteady (rdyAt 31#11) ∧ SeqInv (rdyAt 31#11) ∧
      AtInstr (rdyAt 31#11) (.scanry 0#12 1#12) ∧ scanOf (.scanry 0#12 1#12) = some (.rdiff, 0#12, 1#12) ∧
      (rdyAt 31#11).seqPc ≠ 2047#11) ∧
    HostQuiet { rdyAt 31#11 with pixDirty := [1279] } ∧
    ({ rdyAt 31#11 with pixDirty := [1279] } : State).sourceOk = true ∧
    SeqInv { rdyAt 31#11 with pixDirty := [1279] } ∧
    AtInstr { rdyAt 31#11 with pixDirty := [1279] } (.scanry 0#12 1#12) ∧ scanOf (.scanry 0#12 1#12) ≠ none ∧
    pixNum 639 1 ∈ ({ rdyAt 31#11 with pixDirty := [1279] } : State).pixDirty :=
  ⟨⟨⟨rfl, rfl⟩, steady _ (by decide) rfl, seqInv_rdyAt _, ⟨rfl, rfl, rfl⟩, rfl, by decide⟩, ⟨rfl, rfl⟩, by decide,
    (by constructor <;> simp [rdyAt, State.reset]), ⟨rfl, rfl, rfl⟩, by decide, by decide⟩

theorem witness_HeaderRuns :
    HostQuiet (rdyAt 0#11) ∧ (rdyAt 0#11).seqSt = .rdy ∧ (rdyAt 0#11).armed = false ∧ (rdyAt 0#11).seqPc = 0#11 ∧
    (rdyAt 0#11).prom = [] ∧ (rdyAt 0#11).time = 0 ∧ (rdyAt 0#11).trace = [] := ⟨⟨rfl, rfl⟩, rfl, rfl, rfl, rfl, rfl, rfl⟩

theorem witness_LinePairRuns :
    (247 : Nat) < 248 ∧ HostQuiet (rdyAt 2002#11) ∧ ImageSteady (rdyAt 2002#11) ∧ SeqInv (rdyAt 2002#11) ∧
    (rdyAt 2002#11).seqSt = .rdy ∧ (rdyAt 2002#11).prom = [] ∧ (rdyAt 2002#11).seqPc.toNat = 26 + 8 * 247 :=
  ⟨by decide, ⟨rfl, rfl⟩, steady _ (by decide) rfl, seqInv_rdyAt _, rfl, rfl, by decide⟩

theorem witness_WholeTransmission :
    (hosted (.csrWrite 0#3 1#32)).rst = false ∧ ImageSteady (hosted (.csrWrite 0#3 1#32)) ∧
    SeqInv (hosted (.csrWrite 0#3 1#32)) ∧ (hosted (.csrWrite 0#3 1#32)).prom = [] ∧
    (hosted (.csrWrite 0#3 1#32)).seqSt = .idle ∧
    (hosted (.csrWrite 0#3 1#32)).hostq = [⟨0, .csrWrite 0#3 1#32⟩] ∧ (1#32 : BitVec 32).getLsbD 0 = true := by
  refine ⟨rfl, steady _ (by decide) rfl, ?_, rfl, rfl, rfl, by decide⟩
  constructor <;> simp [hosted, State.reset]

/-- The callback at column 5 with its second pixel marked, and the last pair. -/
theorem witness_PixelReadCounts :
    (scanning 5#10 0#8).segKind ≠ .none ∧
    (∃ f t, callbackFreq { scanning 5#10 0#8 with pixDirty := [645] } = .next (f, t) ∧ t.freeCtr = 1) ∧
    (247 : Nat) < 248 ∧ (639 : Nat) < 640 ∧ ((494 : Nat) = 2 * 247 ∨ (494 : Nat) = 2 * 247 + 1) ∧
    ((495 : Nat) = 2 * 247 ∨ (495 : Nat) = 2 * 247 + 1) :=
  ⟨by decide, ⟨_, _, rfl, rfl⟩, by decide, by decide, by decide, by decide⟩

/-- In the middle of a trace, and at its end. -/
theorem witness_EqualWriteKeepsWaveform :
    let tr : List Event := [.setFreq 0 1900#16] ++ [.setFreq 10 1200#16, .setFreq 15 1200#16] ++ [.stop 20]
    let tr' : List Event := [] ++ [.setFreq 10 1200#16, .setFreq 10 1200#16] ++ []
    ((tr.map Event.at).Pairwise (· ≤ ·) ∧ ∀ e ∈ tr, e.at ≤ 20) ∧
    (tr'.map Event.at).Pairwise (· ≤ ·) ∧ ∀ e ∈ tr', e.at ≤ 10 := by decide

theorem witness_TuningWordBound : 0 < 48000 ∧ (1200#16 : BitVec 16).toNat < 48000 := by decide

/-- A tick in IDLE, in DLYW and in SEGW, and runs up to the last tick of a wait and of a pixel. -/
theorem witness_NcoRunsAtItsRate :
    (∀ s ∈ [State.reset, waiting 1#28, scanning 639#10 1#8], hostDue s = none ∧ s.choose = .tick) ∧
    (HostQuiet State.reset ∧ State.reset.ncoFrac < 1000000 ∧ State.reset.seqSt = .idle ∧
      State.reset.armed = false) ∧
    (HostQuiet (waiting 20000#28) ∧ (waiting 20000#28).ncoFrac < 1000000 ∧ (waiting 20000#28).seqSt = .dlyw ∧
      (waiting 20000#28).armed = false ∧ 20000 ≤ (waiting 20000#28).dly.toNat) ∧
    HostQuiet (scanning 0#10 190#8) ∧ (scanning 0#10 190#8).ncoFrac < 1000000 ∧
      (scanning 0#10 190#8).seqSt = .segw ∧ (scanning 0#10 190#8).done = false ∧
      (scanning 0#10 190#8).armed = true ∧ 190 ≤ (scanning 0#10 190#8).pixt.toNat :=
  ⟨by decide, ⟨⟨rfl, rfl⟩, by decide, rfl, rfl⟩, ⟨⟨rfl, rfl⟩, by decide, rfl, rfl, by decide⟩, ⟨rfl, rfl⟩, by decide,
    rfl, rfl, rfl, by decide⟩

end Sys2Proof.Tests
end

section
/-! The invariants of 10_state R48 and what rests on them: each operation keeps them, so each step does. -/

namespace Sys2Proof.Machine

/-- A step is a move of the host or the machine's own step, on a state whose pending moves alone differ: what both
establish from a property that does not look at the pending moves, a step establishes. -/
theorem step_establishes {P Q : State → Prop} (hq : ∀ s q, P s → P { s with hostq := q })
    (hhost : ∀ s t op, P s → hostAct op s = .next t → Q t) (hown : ∀ s t, P s → ownStep s = .next t → Q t)
    {s t : State} (hs : P s) (h : step s = .next t) : Q t := by
  rcases step_next h with ⟨op, -, ha⟩ | ⟨-, ho⟩
  · exact hhost _ _ op (hq s _ hs) ha
  · exact hown _ _ (hq s _ hs) ho

/-! ### The invariants (a) to (i) -/

namespace SeqInv

variable {s t : State}

theorem with_hostq (h : SeqInv s) (q : List HostMove) : SeqInv { s with hostq := q } := { h with }

theorem setTone (h : SeqInv s) (hz : BitVec 16) : SeqInv (s.setTone hz) := { h with silent := by simp }

theorem stopTone (h : SeqInv s) : SeqInv s.stopTone := { h with silent := by simp }

theorem advancePc (h : SeqInv s) : SeqInv s.advancePc := by
  unfold State.advancePc
  split <;> exact { h with }

/-- Outside SEGW the timer is not armed (R48 a). -/
theorem armed_eq_false (h : SeqInv s) (hs : s.seqSt ≠ .segw) : s.armed = false :=
  Bool.eq_false_iff.mpr fun ha => hs (h.armed_wait ha).1

/-- A segment that is complete has the timer disarmed (R48 c). -/
theorem armed_of_done (h : SeqInv s) (hd : s.done = true) : s.armed = false := (h.done_index hd).2

/-- With the timer not armed and `DLY` = 0, the sequencer may be in any state but SEGW. -/
theorem goto_unarmed (h : SeqInv s) (ha : s.armed = false) (hd : s.dly = 0#28) {v : SeqSt} (hv : v ≠ .segw) :
    SeqInv (s.goto v) :=
  { h with
    armed_wait := by simp [ha]
    segw_one := fun e => absurd e hv
    unarmed := fun _ => ha
    dly_zero := fun _ => hd }

/-- The issue of a wait (R162). -/
theorem goto_dlyw (h : SeqInv s) (ha : s.armed = false) (us : BitVec 28) :
    SeqInv ({ s with dly := us }.goto .dlyw) :=
  { h with
    armed_wait := by simp [ha]
    segw_one := by simp
    unarmed := fun _ => ha
    dly_zero := by simp }

/-- The issue of a segment (R134). -/
theorem issueScan (h : SeqInv s) (hd : s.dly = 0#28) {k : SegKind} {a b : BitVec 12} (hk : k ≠ .none)
    (hl : k = .luma → b = 0#12) (ha : a.toNat < 496) (hb : b.toNat < 496) : SeqInv (s.issueScan k a b) where
  armed_wait := by simp
  segw_one := by simp
  done_index := by simp
  unarmed := by simp
  pixt_zero := by simp
  dly_zero := fun _ => hd
  silent := h.silent
  luma_row := hl
  rows := ⟨ha, hb⟩
  armed_kind := fun _ => hk

/-- The index of a callback (R136, R141). -/
theorem bumpIndex (h : SeqInv s) (ha : s.armed = true) (hp : s.pixt = 0#8) : SeqInv s.bumpIndex := by
  obtain ⟨hst, hdn, hx, -⟩ := h.armed_wait ha
  by_cases hl : s.pixIdx + 1#10 = 640#10
  · rw [State.bumpIndex_last s hl]
    exact { h with
      armed_wait := by simp
      segw_one := by simp
      done_index := by simp
      unarmed := by simp
      pixt_zero := fun _ => hp
      armed_kind := by simp }
  · rw [State.bumpIndex_more s hl]
    have hx' : (s.pixIdx + 1#10).toNat < 640 := by bv_omega
    exact { h with
      armed_wait := fun _ => ⟨hst, hdn, hx', by simp⟩
      done_index := by simp [hdn]
      pixt_zero := by simp [ha] }

theorem fire (h : SeqInv s) (ha : s.armed = true) (hp : s.pixt = 0#8) (hf : Machine.fire s = .next t) : SeqInv t := by
  obtain ⟨-, -, p, q, n, rfl⟩ := fire_next hf
  have hn : SeqInv { s with freeCtr := n } := { h with }
  exact (hn.setTone _).bumpIndex ha hp

/-- A microsecond with no zero-time step enabled (R46). -/
theorem passTime (h : SeqInv s) (hz : s.fireEnabled = false) : SeqInv s.passTime :=
  { h with
    armed_wait := fun ha => by
      obtain ⟨hst, hdn, hx, hp⟩ := h.armed_wait ha
      have ha' : s.armed = true := ha
      have h0 : s.pixt ≠ 0#8 := by simpa [State.fireEnabled, ha'] using hz
      refine ⟨hst, hdn, hx, ?_⟩
      simp only [State.passTime_pixt, ha', if_true]
      bv_omega
    pixt_zero := fun ha => by
      have ha' : s.armed = false := ha
      simpa [ha'] using h.pixt_zero ha'
    dly_zero := fun hs => by
      have hs' : s.seqSt ≠ .dlyw := hs
      simpa [hs'] using h.dly_zero hs' }

theorem exec (h : SeqInv s) (hr : s.seqSt = .rdy) {i : Instr} (he : Machine.exec i s = .next t) : SeqInv t := by
  have ha : s.armed = false := h.unarmed (.inr hr)
  have hd : s.dly = 0#28 := h.dly_zero (by simp [hr])
  rcases exec_next he with ⟨-, rfl⟩ | ⟨hz, -, rfl⟩ | ⟨us, -, rfl⟩ | ⟨-, rfl⟩ | ⟨k, a, b, -, hk, hl, hA, hB, rfl⟩
  · exact h.goto_unarmed ha hd (by decide)
  · exact (h.setTone hz).advancePc
  · exact h.goto_dlyw ha us
  · exact h.stopTone.advancePc
  · exact h.issueScan hd hk hl hA hB

end SeqInv

/-- Every element at its reset value meets (a) to (i) (R48, R261). -/
theorem AtReset.seqInv {s : State} (h : AtReset s) : SeqInv s := by
  obtain ⟨h1, h2, h3, h4, h5, h6, h7, h8, h9, h10, h11, h12, h13⟩ := h
  constructor <;> simp [*]

theorem atReset_resetRegs (s : State) : AtReset s.resetRegs := by constructor <;> rfl

/-- A microsecond of a block held in reset (R260). -/
theorem atReset_resetRegs_passTime (s : State) : AtReset s.resetRegs.passTime where
  seqSt := rfl
  seqPc := rfl
  dly := rfl
  segKind := rfl
  rowA := rfl
  rowB := rfl
  pixIdx := rfl
  done := rfl
  armed := rfl
  pixt := rfl
  toneEn := rfl
  toneFreq := rfl
  ncoPhase := phaseAfter_silent _ _ _

namespace SeqInv

variable {s t : State}

theorem ownStep (h : SeqInv s) (ho : Machine.ownStep s = .next t) : SeqInv t := by
  rcases ownStep_next ho with ⟨-, rfl⟩ | ⟨-, ha, hp, hf⟩ | ⟨-, -, hs, hd, rfl⟩ | ⟨-, -, hs, hd, rfl⟩ |
    ⟨-, -, hs, hx⟩ | ⟨-, hz, rfl⟩
  · exact (atReset_resetRegs_passTime s).seqInv
  · exact h.fire ha hp hf
  · exact (h.goto_unarmed (h.unarmed (.inl hs)) hd (by decide)).advancePc
  · exact (h.goto_unarmed (h.armed_of_done hd) (h.dly_zero (by simp [hs])) (by decide)).advancePc
  · obtain ⟨i, -, he⟩ := fetchExec_next hx
    exact h.exec hs he
  · simp only [State.zeroTimeEnabled, Bool.or_eq_false_iff] at hz
    exact h.passTime hz.2

theorem hostAct (h : SeqInv s) {op : HostOp} (ha : Machine.hostAct op s = .next t) : SeqInv t := by
  rcases hostAct_next ha with rfl | ⟨hs, -, -, rfl⟩ | ⟨reg, -, rfl⟩ | ⟨xc, yc, p, -, -, -, rfl⟩ |
    ⟨xc, yc, p, -, -, -, rfl⟩ | rfl | rfl
  · exact h
  · exact { h.goto_unarmed (v := .rdy) (h.armed_eq_false (by simp [hs])) (h.dly_zero (by simp [hs])) (by decide) with }
  · exact { h with }
  · exact { h with }
  · exact { h with }
  · exact { (atReset_resetRegs s).seqInv with }
  · exact { h with }

/-- Every step keeps (a) to (i) of R48, whatever the program. -/
theorem step (h : SeqInv s) (hs : Machine.step s = .next t) : SeqInv t :=
  step_establishes (fun _ q h => h.with_hostq q) (fun _ _ _ h => h.hostAct) (fun _ _ h => h.ownStep) h hs

end SeqInv
end Sys2Proof.Machine
end

section
/-! Decoding an encoded operation (30_encoding R90). -/

namespace Sys2Proof

theorem decodePair_of_toNat {w : OpWord} {o : Nat} {a b : BitVec 12} (op : BitVec 12 → BitVec 12 → Instr)
    (hw : w.toNat = o * 2 ^ 28 + (b.toNat * 4096 + a.toNat)) (ha : rowOk a = true) (hb : rowOk b = true) :
    decodePair w op = .ok (op a b) := by
  have hA : fieldRowA w = a := BitVec.eq_of_toNat_eq (by rw [fieldRowA_toNat]; omega)
  have hB : fieldRowB w = b := BitVec.eq_of_toNat_eq (by rw [fieldRowB_toNat]; omega)
  have hz : fieldZeroS w = 0#4 := (fieldZeroS_eq_zero w).mpr (by omega)
  simp [decodePair, hz, hA, hB, ha, hb]

theorem decodeScany_of_toNat {w : OpWord} {o : Nat} {a : BitVec 12} (hw : w.toNat = o * 2 ^ 28 + a.toNat)
    (ha : rowOk a = true) : decodeScany w = .ok (.scany a) := by
  have hA : fieldRowA w = a := BitVec.eq_of_toNat_eq (by rw [fieldRowA_toNat]; omega)
  have hB : fieldRowB w = 0#12 := (fieldRowB_eq_zero w).mpr (by omega)
  have hz : fieldZeroS w = 0#4 := (fieldZeroS_eq_zero w).mpr (by omega)
  simp [decodeScany, hz, hA, hB, ha]

/-- The opcode of an operation's word (R81, R84). -/
theorem fieldOpc_encode (i : Instr) : fieldOpc (encode i) = opcOf i := (Laws.OpcodeBits.of_append _ _).1

theorem fieldZ_encode (i : Instr) : fieldZ (encode i) = operandBits i := (Laws.OpcodeBits.of_append _ _).2

/-- Decoding the word of a legal operation gives the operation back (R90). -/
theorem decode_encode {i : Instr} (h : i.wellFormed = true) : decode (encode i) = .ok i := by
  have hn := encode_toNat i
  have ho := fieldOpc_encode i
  have hZ := fieldZ_encode i
  cases i with
  | end_ => simp [decode, ho, hZ, opcOf, operandBits]
  | setf hz =>
    rw [operandBits_setf] at hn
    have hF : fieldZeroF (encode (.setf hz)) = 0#12 := (fieldZeroF_eq_zero _).mpr (by omega)
    have hH : fieldHz (encode (.setf hz)) = hz := BitVec.eq_of_toNat_eq (by rw [fieldHz_toNat]; omega)
    simp [decode, ho, opcOf, hF, hH]
  | wait us =>
    have hU : fieldUs (encode (.wait us)) = us := hZ
    simp [decode, ho, opcOf, hU]
  | stop => simp [decode, ho, hZ, opcOf, operandBits]
  | scany a =>
    rw [operandBits_scany] at hn
    simp [decode, ho, opcOf, decodeScany_of_toNat hn h]
  | scanry a b =>
    rw [operandBits_scanry] at hn
    obtain ⟨ha, hb⟩ := Bool.and_eq_true_iff.mp h
    simp [decode, ho, opcOf, decodePair_of_toNat _ hn ha hb]
  | scanby a b =>
    rw [operandBits_scanby] at hn
    obtain ⟨ha, hb⟩ := Bool.and_eq_true_iff.mp h
    simp [decode, ho, opcOf, decodePair_of_toNat _ hn ha hb]

end Sys2Proof
end

section
/-! What the operations of the fixed program are (44_image_sequence R202). -/

namespace Sys2Proof.Machine

/-- What is said of each operation of the program: it is legal (R85), and a tone it writes is in the band of R20. -/
def programOp (i : Instr) : Bool :=
  i.wellFormed &&
  match i with
  | .setf hz => decide (1100 ≤ hz.toNat) && decide (hz.toNat ≤ 2301)
  | _ => true

theorem programOp_wellFormed {i : Instr} (h : programOp i = true) : i.wellFormed = true :=
  (Bool.and_eq_true_iff.mp h).1

theorem inBand_of_programOp {hz : BitVec 16} (h : programOp (.setf hz) = true) : inBand hz := by
  simpa [programOp, Instr.wellFormed, inBand] using h

theorem header_programOp : ∀ i ∈ header, programOp i = true := by decide

theorem linePair_programOp {p : Nat} (hp : p < 248) : ∀ i ∈ linePair p, programOp i = true := by
  have h1 : rowOk (firstRow p) = true := (rowOk_iff _).mpr (by rw [firstRow_toNat p hp]; omega)
  have h2 : rowOk (secondRow p) = true := (rowOk_iff _).mpr (by rw [secondRow_toNat p hp]; omega)
  have ht : ∀ i ∈ sync ++ porch, programOp i = true := by decide
  have hs : ∀ i ∈ pairScans p, programOp i = true := by
    simp [pairScans, programOp, Instr.wellFormed, h1, h2]
  intro i hi
  exact (List.mem_append.mp hi).elim (ht i) (hs i)

/-- Every operation of the fixed program is legal, and its tones are in the band (R20, R85, R202). -/
theorem romInstr_programOp (a : Nat) : programOp (romInstr a) = true := by
  have getD_mem : ∀ (l : List Instr) (n : Nat), n < l.length → l.getD n .end_ ∈ l := fun l n h =>
    List.getD_eq_getElem l .end_ h ▸ List.getElem_mem h
  unfold romInstr
  split
  · exact header_programOp _ (getD_mem _ _ (by rw [header_length]; assumption))
  · split
    · exact linePair_programOp (p := (a - 26) / 8) (by omega) _ (getD_mem _ _ (by rw [linePair_length]; omega))
    · split <;> rfl

theorem romInstr_wellFormed (a : Nat) : (romInstr a).wellFormed = true := programOp_wellFormed (romInstr_programOp a)

theorem inBand_of_romInstr_setf {a : Nat} {hz : BitVec 16} (h : romInstr a = .setf hz) : inBand hz :=
  inBand_of_programOp (h ▸ romInstr_programOp a)

/-- With the fixed ROM, the word at `SEQ_PC` is the operation R202 lists there. -/
theorem decode_fetch_fixed (s : State) (h : s.prom = []) : decode s.fetch = .ok (romInstr s.seqPc.toNat) := by
  rw [State.fetch, promWord_fixed s _ h]
  exact decode_encode (romInstr_wellFormed _)

end Sys2Proof.Machine
end

section
/-! The invariant of the fixed program (10_state R48 j, R29): each operation keeps it, so each step does. -/

namespace Sys2Proof.Machine

/-- `SEQ_PC + 1` below 2047 as a number (R29). -/
theorem State.advancePc_seqPc_toNat (s : State) (h : s.seqPc.toNat < 2047) :
    s.advancePc.seqPc.toNat = s.seqPc.toNat + 1 := by
  rw [State.advancePc_seqPc_of_ne s (by intro e; simp [e] at h)]
  bv_omega

namespace RomInv

variable {s t : State}

theorem with_hostq (h : RomInv s) (q : List HostMove) : RomInv { s with hostq := q } := { h with }

/-- Before the last word of the program (R202), which is `END`. -/
theorem pc_lt_of_ne_end (h : RomInv s) (hi : romInstr s.seqPc.toNat ≠ .end_) : s.seqPc.toNat < 2011 := by
  have := h.pc
  have : s.seqPc.toNat ≠ 2011 := fun e => hi (e ▸ romInstr_end 2011 le_rfl)
  omega

/-- The sequencer goes on after any operation but `END`. -/
theorem advancePc (h : RomInv s) (hi : romInstr s.seqPc.toNat ≠ .end_) (hs : s.seqSt = .rdy) :
    RomInv s.advancePc where
  fixed := by simpa using h.fixed
  pc := by
    have := h.pc_lt_of_ne_end hi
    rw [State.advancePc_seqPc_toNat s (by omega)]
    omega
  waiting := by simp [hs]
  scanning := by simp [hs]

theorem goto_rdy (h : RomInv s) : RomInv (s.goto .rdy) := { h with waiting := by simp, scanning := by simp }

theorem waitEnd (h : RomInv s) (hs : s.seqSt = .dlyw) : RomInv s.waitEnd := by
  obtain ⟨us, hi, -⟩ := h.waiting hs
  exact h.goto_rdy.advancePc (by simp [hi]) rfl

theorem segEnd (h : RomInv s) (hs : s.seqSt = .segw) : RomInv s.segEnd := by
  have hi : romInstr s.seqPc.toNat ≠ .end_ := fun e => by simpa [e, scanOf] using h.scanning hs
  exact h.goto_rdy.advancePc hi rfl

theorem exec (h : RomInv s) (hs : s.seqSt = .rdy) (he : Machine.exec (romInstr s.seqPc.toNat) s = .next t) :
    RomInv t := by
  rcases exec_next he with ⟨-, rfl⟩ | ⟨hz, hi, rfl⟩ | ⟨us, hi, rfl⟩ | ⟨hi, rfl⟩ | ⟨k, a, b, hi, -, -, -, -, rfl⟩
  · exact { h with waiting := by simp, scanning := by simp }
  · exact advancePc (s := s.setTone hz) { h with } (by simp [hi]) hs
  · exact { h with waiting := fun _ => ⟨us, hi, le_rfl⟩, scanning := by simp }
  · exact advancePc (s := s.stopTone) { h with } (by simp [hi]) hs
  · exact { h with waiting := by simp, scanning := fun _ => hi }

theorem fire (h : RomInv s) (hf : Machine.fire s = .next t) : RomInv t := by
  obtain ⟨-, -, p, q, n, rfl⟩ := fire_next hf
  exact ⟨by simpa using h.fixed, by simpa using h.pc, by simpa using h.waiting, by simpa using h.scanning⟩

/-- A microsecond while no wait is at its end (R46). -/
theorem passTime (h : RomInv s) (hz : s.waitEndEnabled = false) : RomInv s.passTime :=
  { h with
    waiting := fun hs => by
      have hs' : s.seqSt = .dlyw := hs
      obtain ⟨us, hi, hd⟩ := h.waiting hs'
      have h0 : s.dly ≠ 0#28 := by simpa [State.waitEndEnabled, hs'] using hz
      refine ⟨us, hi, ?_⟩
      simp only [State.passTime_dly, hs', if_true]
      bv_omega }

/-- Every element at its reset value, with the fixed ROM (R202, R261). -/
theorem of_atReset (hr : AtReset s) (hp : s.prom = []) : RomInv s where
  fixed := hp
  pc := by simp [hr.seqPc]
  waiting := by simp [hr.seqSt]
  scanning := by simp [hr.seqSt]

theorem ownStep (h : RomInv s) (ho : Machine.ownStep s = .next t) : RomInv t := by
  rcases ownStep_next ho with ⟨-, rfl⟩ | ⟨-, -, -, hf⟩ | ⟨-, -, hs, -, rfl⟩ | ⟨-, -, hs, -, rfl⟩ |
    ⟨-, -, hs, hx⟩ | ⟨-, hz, rfl⟩
  · exact of_atReset (atReset_resetRegs_passTime s) h.fixed
  · exact h.fire hf
  · exact h.waitEnd hs
  · exact h.segEnd hs
  · obtain ⟨i, hi, he⟩ := fetchExec_next hx
    rw [decode_fetch_fixed s h.fixed] at hi
    cases hi
    exact h.exec hs he
  · simp only [State.zeroTimeEnabled, Bool.or_eq_false_iff] at hz
    exact h.passTime hz.1.1.2

theorem hostAct (h : RomInv s) {op : HostOp} (ha : Machine.hostAct op s = .next t) : RomInv t := by
  rcases hostAct_next ha with rfl | ⟨-, -, -, rfl⟩ | ⟨reg, -, rfl⟩ | ⟨xc, yc, p, -, -, -, rfl⟩ |
    ⟨xc, yc, p, -, -, -, rfl⟩ | rfl | rfl
  · exact h
  · exact { h with pc := by simp, waiting := by simp, scanning := by simp }
  · exact { h with }
  · exact { h with }
  · exact { h with }
  · exact { of_atReset (atReset_resetRegs s) h.fixed with }
  · exact { h with }

/-- Every step keeps the invariant of the fixed program. -/
theorem step (h : RomInv s) (hs : Machine.step s = .next t) : RomInv t :=
  step_establishes (fun _ q h => h.with_hostq q) (fun _ _ _ h => h.hostAct) (fun _ _ h => h.ownStep) h hs

end RomInv
end Sys2Proof.Machine
end

section
/-! The frequencies of a callback are in the band of R20 (40_colour_and_frequency R123). -/

namespace Sys2Proof.Machine

theorem y1000_le (p : Pixel) : y1000 p ≤ 255000 := by
  have := p.r.isLt
  have := p.g.isLt
  have := p.b.isLt
  unfold y1000
  omega

theorem lumFreq_bounds (p : Pixel) : 1500 ≤ lumFreq p ∧ lumFreq p ≤ 2300 := by
  have := y1000_le p
  simp only [lumFreq, Config.blackHz]
  omega

theorem ryn_bounds (p : Pixel) : -127452315 ≤ ryn p ∧ ryn p ≤ 127452315 := by
  have := p.r.isLt
  have := p.g.isLt
  have := p.b.isLt
  simp only [ryn, y1000]
  omega

theorem byn_bounds (p : Pixel) : -127424520 ≤ byn p ∧ byn p ≤ 127424520 := by
  have := p.r.isLt
  have := p.g.isLt
  have := p.b.isLt
  simp only [byn, y1000]
  omega

/-- The difference frequencies of a pair of rows (R123). -/
theorem diffFreq_bounds {d : Int} (h1 : -254904630 ≤ d) (h2 : d ≤ 254904630) :
    1501 ≤ diffFreq d ∧ diffFreq d ≤ 2301 := by
  simp only [diffFreq, Config.blackHz]
  omega

theorem toNat_ofInt_diffFreq {d : Int} (h1 : -254904630 ≤ d) (h2 : d ≤ 254904630) :
    ((BitVec.ofInt 16 (diffFreq d)).toNat : Int) = diffFreq d := by
  have := diffFreq_bounds h1 h2
  rw [BitVec.toNat_ofInt]
  omega

theorem inBand_ofInt_diffFreq {d : Int} (h1 : -254904630 ≤ d) (h2 : d ≤ 254904630) :
    inBand (BitVec.ofInt 16 (diffFreq d)) := by
  have := diffFreq_bounds h1 h2
  have := toNat_ofInt_diffFreq h1 h2
  unfold inBand
  omega

/-- Whatever the pixels, the frequency of a callback is in the band (R123, R128). -/
theorem inBand_kindFreq {k : SegKind} (hk : k ≠ .none) (p q : Pixel) : inBand (kindFreq k p q) := by
  cases k with
  | none => exact absurd rfl hk
  | luma =>
    have := lumFreq_bounds p
    simp only [inBand, kindFreq, BitVec.toNat_ofNat]
    omega
  | rdiff =>
    have := ryn_bounds p
    have := ryn_bounds q
    exact inBand_ofInt_diffFreq (by omega) (by omega)
  | bdiff =>
    have := byn_bounds p
    have := byn_bounds q
    exact inBand_ofInt_diffFreq (by omega) (by omega)

end Sys2Proof.Machine
end

section
/-! The tone registers: the band of R20 with the fixed program, and phase 0 while the tone is off (R220, R223). -/

namespace Sys2Proof.Machine

namespace BandInv

variable {s t : State}

theorem with_hostq (h : BandInv s) (q : List HostMove) : BandInv { s with hostq := q } := { h with }

theorem advancePc (h : BandInv s) : BandInv s.advancePc := by
  unfold State.advancePc
  split <;> exact { h with }

theorem bumpIndex (h : BandInv s) : BandInv s.bumpIndex :=
  ⟨by simpa using h.tone, by simpa using h.silent, by simpa using h.events⟩

theorem setTone (h : BandInv s) {hz : BitVec 16} (hb : inBand hz) : BandInv (s.setTone hz) where
  tone := fun _ => hb
  silent := by simp
  events := fun t f hm => by
    rcases List.mem_append.mp hm with hm | hm
    · exact h.events t f hm
    · cases List.mem_singleton.mp hm
      exact hb

theorem stopTone (h : BandInv s) : BandInv s.stopTone where
  tone := by simp
  silent := by simp
  events := fun t f hm => h.events t f (by simpa using hm)

theorem fire (h : BandInv s) (hf : Machine.fire s = .next t) : BandInv t := by
  obtain ⟨hk, -, p, q, n, rfl⟩ := fire_next hf
  exact (setTone (s := { s with freeCtr := n }) { h with } (inBand_kindFreq hk p q)).bumpIndex

/-- An operation of the fixed program keeps the band. -/
theorem exec (h : BandInv s) {a : Nat} (he : Machine.exec (romInstr a) s = .next t) : BandInv t := by
  rcases exec_next he with ⟨-, rfl⟩ | ⟨hz, hi, rfl⟩ | ⟨us, -, rfl⟩ | ⟨-, rfl⟩ | ⟨k, x, y, -, -, -, -, -, rfl⟩
  · exact { h with }
  · exact (h.setTone (inBand_of_romInstr_setf hi)).advancePc
  · exact { h with }
  · exact h.stopTone.advancePc
  · exact { h with }

/-- Reset silences the tone and keeps the trace (R261, R262). -/
theorem resetRegs (h : BandInv s) : BandInv s.resetRegs := ⟨by simp, by simp, h.events⟩

theorem ownStep (h : BandInv s) (hr : RomInv s) (ho : Machine.ownStep s = .next t) : BandInv t := by
  rcases ownStep_next ho with ⟨-, rfl⟩ | ⟨-, -, -, hf⟩ | ⟨-, -, -, -, rfl⟩ | ⟨-, -, -, -, rfl⟩ |
    ⟨-, -, -, hx⟩ | ⟨-, -, rfl⟩
  · exact { h.resetRegs with }
  · exact h.fire hf
  · exact advancePc (s := s.goto .rdy) { h with }
  · exact advancePc (s := s.goto .rdy) { h with }
  · obtain ⟨i, hi, he⟩ := fetchExec_next hx
    rw [decode_fetch_fixed s hr.fixed] at hi
    cases hi
    exact h.exec he
  · exact { h with }

theorem hostAct (h : BandInv s) {op : HostOp} (ha : Machine.hostAct op s = .next t) : BandInv t := by
  rcases hostAct_next ha with rfl | ⟨-, -, -, rfl⟩ | ⟨reg, -, rfl⟩ | ⟨xc, yc, p, -, -, -, rfl⟩ |
    ⟨xc, yc, p, -, -, -, rfl⟩ | rfl | rfl
  · exact h
  · exact { h with events := by simp }
  · exact { h with }
  · exact { h with }
  · exact { h with }
  · exact { h.resetRegs with }
  · exact { h with }

/-- Every step of the fixed program keeps the tones in the band. -/
theorem step (h : BandInv s) (hr : RomInv s) (hs : Machine.step s = .next t) : BandInv t :=
  step_establishes (P := fun s => RomInv s ∧ BandInv s) (fun _ q h => ⟨h.1.with_hostq q, h.2.with_hostq q⟩)
    (fun _ _ _ h => h.2.hostAct) (fun _ _ h => h.2.ownStep h.1) ⟨hr, h⟩ hs

end BandInv

namespace PhaseInv

variable {s t : State}

theorem exec (h : PhaseInv s) {i : Instr} (he : Machine.exec i s = .next t) : PhaseInv t := by
  rcases exec_next he with ⟨-, rfl⟩ | ⟨hz, -, rfl⟩ | ⟨us, -, rfl⟩ | ⟨-, rfl⟩ | ⟨k, x, y, -, -, -, -, -, rfl⟩
  · exact h
  · simp [PhaseInv]
  · exact h
  · simp [PhaseInv]
  · exact h

/-- The updates of a microsecond keep a silent synthesizer at phase 0 (R220). -/
theorem passTime (h : PhaseInv s) : PhaseInv s.passTime := fun he => by
  have he' : s.toneEn = false := he
  rw [State.passTime_ncoPhase, he', h he', phaseAfter_silent]

theorem ownStep (h : PhaseInv s) (ho : Machine.ownStep s = .next t) : PhaseInv t := by
  rcases ownStep_next ho with ⟨-, rfl⟩ | ⟨-, -, -, hf⟩ | ⟨-, -, -, -, rfl⟩ | ⟨-, -, -, -, rfl⟩ |
    ⟨-, -, -, hx⟩ | ⟨-, -, rfl⟩
  · exact fun _ => (atReset_resetRegs_passTime s).ncoPhase
  · obtain ⟨-, -, p, q, n, rfl⟩ := fire_next hf
    simp [PhaseInv]
  · simpa [PhaseInv] using h
  · simpa [PhaseInv] using h
  · obtain ⟨i, -, he⟩ := fetchExec_next hx
    exact h.exec he
  · exact h.passTime

theorem hostAct (h : PhaseInv s) {op : HostOp} (ha : Machine.hostAct op s = .next t) : PhaseInv t := by
  rcases hostAct_next ha with rfl | ⟨-, -, -, rfl⟩ | ⟨reg, -, rfl⟩ | ⟨xc, yc, p, -, -, -, rfl⟩ |
    ⟨xc, yc, p, -, -, -, rfl⟩ | rfl | rfl
  · exact h
  · exact h
  · exact h
  · exact h
  · exact h
  · exact fun _ => rfl
  · exact h

/-- Every step keeps phase 0 while the tone is off, whatever the program. -/
theorem step (h : PhaseInv s) (hs : Machine.step s = .next t) : PhaseInv t :=
  step_establishes (P := PhaseInv) (fun _ _ h => h) (fun _ _ _ h => h.hostAct) (fun _ _ h => h.ownStep) h hs

end PhaseInv

/-! ### After reset -/

theorem atReset_reset : AtReset State.reset := by constructor <;> rfl

theorem seqInv_reset : SeqInv State.reset := atReset_reset.seqInv

theorem romInv_reset : RomInv State.reset := .of_atReset atReset_reset rfl

theorem memInv_reset : MemInv State.reset := ⟨wf_reset.1, wf_reset.2, rfl⟩

theorem traceInv_reset : TraceInv State.reset := by constructor <;> simp [State.reset]

theorem bandInv_reset : BandInv State.reset := by constructor <;> simp [State.reset]

/-! ### Obligations -/

/-- Settles O41, from the step lemmas of `SeqInv` and `PhaseInv`, which go through every operation and host move. -/
theorem sequencerInvariantKept : Obligations.SequencerInvariantKept :=
  ⟨fun _ _ h => h.step, fun _ _ h => h.step⟩

/-- Settles O42, from the state after reset and the step lemmas of `SeqInv` and `RomInv`. -/
theorem fixedProgramInvariants : Obligations.FixedProgramInvariants :=
  ⟨⟨seqInv_reset, romInv_reset⟩, fun _ _ hs hr h => ⟨hs.step h, hr.step h⟩⟩

/-- Settles O46: a tone comes from a `SETF` of the fixed program or from a callback, and both are in the band. -/
theorem tonesStayInBand : Obligations.TonesStayInBand := fun _ _ hr hb => hb.step hr

/-- Settles O40, from the reset value of every element and of the memories. -/
theorem resetMeetsInvariants : Obligations.ResetMeetsInvariants :=
  ⟨seqInv_reset, memInv_reset, traceInv_reset, romInv_reset, bandInv_reset, fun _ => rfl, atReset_reset⟩

end Sys2Proof.Machine
end

section
/-! Which step is taken, and the moves of the host (10_state R34, R35, R38, R46, R47). -/

namespace Sys2Proof.Machine

/-- With reset released, time passes exactly if no zero-time step is enabled (R46). -/
theorem choose_eq_tick_iff {s : State} (hr : s.rst = false) : s.choose = .tick ↔ s.zeroTimeEnabled = false := by
  unfold State.choose
  split_ifs <;> simp_all [State.zeroTimeEnabled]

theorem zeroTimeEnabled_eq_false_iff {s : State} : s.zeroTimeEnabled = false ↔
    s.seqSt ≠ .rdy ∧ (s.seqSt = .dlyw → s.dly ≠ 0#28) ∧ (s.seqSt = .segw → s.done = false) ∧
    (s.armed = true → s.pixt ≠ 0#8) := by
  simp [State.zeroTimeEnabled, State.execEnabled, State.waitEndEnabled, State.segEndEnabled, State.fireEnabled,
    and_assoc]

theorem zeroTimeEnabled_eq_false_iff_countP {s : State} : s.zeroTimeEnabled = false ↔
    [s.execEnabled, s.waitEndEnabled, s.segEndEnabled, s.fireEnabled].countP id = 0 := by
  simp [State.zeroTimeEnabled, and_assoc]

theorem ne_zero_iff_toNat_pos {n : Nat} {x : BitVec n} : x ≠ 0#n ↔ 0 < x.toNat := by
  rw [Nat.pos_iff_ne_zero, ne_eq, ne_eq, ← BitVec.toNat_inj]
  simp

/-- R46's condition of the tick, which under the invariants is that no zero-time step is enabled. -/
theorem SeqInv.zeroTimeEnabled_eq_false_iff {s : State} (h : SeqInv s) : s.zeroTimeEnabled = false ↔
    s.seqSt = .idle ∨ (s.seqSt = .dlyw ∧ 0 < s.dly.toNat) ∨
      (s.seqSt = .segw ∧ s.done = false ∧ 0 < s.pixt.toNat) := by
  rw [Machine.zeroTimeEnabled_eq_false_iff]
  cases hs : s.seqSt with
  | idle => simp [h.armed_eq_false (by simp [hs])]
  | rdy => simp
  | dlyw => simp [h.armed_eq_false (by simp [hs]), ← ne_zero_iff_toNat_pos]
  | segw =>
    have := h.segw_one hs
    cases hd : s.done <;> simp [*, ← ne_zero_iff_toNat_pos]

/-- Under the invariants, at most one zero-time step is enabled in each state of the sequencer (R47). -/
theorem SeqInv.countP_enabled_le_one {s : State} (h : SeqInv s) :
    [s.execEnabled, s.waitEndEnabled, s.segEndEnabled, s.fireEnabled].countP id ≤ 1 := by
  have hf : s.seqSt ≠ .segw → s.fireEnabled = false := fun hs => by
    simp [State.fireEnabled, h.armed_eq_false hs]
  cases hs : s.seqSt with
  | idle => simp [State.execEnabled, State.waitEndEnabled, State.segEndEnabled, hs, hf]
  | rdy => simp [State.execEnabled, State.waitEndEnabled, State.segEndEnabled, hs, hf]
  | dlyw => cases s.waitEndEnabled <;> simp [State.execEnabled, State.segEndEnabled, hs, hf]
  | segw =>
    cases hd : s.done with
    | false =>
      cases s.fireEnabled <;> simp [State.execEnabled, State.waitEndEnabled, State.segEndEnabled, hs, hd]
    | true => simp [State.execEnabled, State.waitEndEnabled, State.segEndEnabled, State.fireEnabled, hs, hd,
        h.armed_of_done hd]

/-- With no pending move and no zero-time step enabled, a step is a microsecond (R46). -/
theorem step_of_quiet {s : State} (hq : HostQuiet s) (hz : s.zeroTimeEnabled = false) : step s = .next s.passTime := by
  rw [step_of_no_move s hq.hostq, ownStep_of_quiet s hq.rst hz]

/-! ### A move of the host that is due -/

/-- A write of a CSR that is due is taken (R35). -/
theorem step_of_csrWrite {s : State} {q : List HostMove} {reg : BitVec 3} {v : BitVec 32}
    (h : s.hostq = ⟨0, .csrWrite reg v⟩ :: q) : step s = csrWrite { s with hostq := q } reg v := by
  simp [step, hostDue, hostReady, h, State.hostPop, hostAct]

/-- A read of a CSR that is due with no zero-time step enabled is taken (R72). -/
theorem step_of_csrRead {s : State} {q : List HostMove} {reg : BitVec 3} (h : s.hostq = ⟨0, .csrRead reg⟩ :: q)
    (hz : s.zeroTimeEnabled = false) : step s = .next ({ s with hostq := q }.csrRead reg) := by
  simp [step, hostDue, hostReady, h, hz, State.hostPop, hostAct]

/-- A write that is not START is ignored (R34, R35). -/
theorem csrWrite_of_not_start {s : State} {reg : BitVec 3} {v : BitVec 32}
    (h : reg ≠ 0#3 ∨ v.getLsbD 0 = false ∨ s.seqSt ≠ .idle) : csrWrite s reg v = .next s := by
  rw [csrWrite, if_neg]
  rintro ⟨hr, hv, hs, -⟩
  rcases h with h | h | h
  · exact h hr
  · exact Bool.false_ne_true (h.symm.trans hv)
  · exact h hs

/-- START (R35). -/
theorem csrWrite_start {s : State} {v : BitVec 32} (hv : v.getLsbD 0 = true) (hs : s.seqSt = .idle)
    (hr : s.rst = false) (ho : s.sourceOk = true) :
    csrWrite s 0#3 v = .next { s with seqSt := .rdy, seqPc := 0#11, time := 0, trace := [] } := by
  rw [csrWrite, if_pos ⟨rfl, hv, hs, hr⟩, start, if_pos ho]

/-! ### The control and status view (R34) -/

theorem bit_toNat (b : Bool) : (bit b).toNat = b.toNat := by cases b <;> rfl

/-- `STATUS` as a number. -/
theorem status_toNat (s : State) : s.status.toNat =
    s.run.toNat + 2 * s.armed.toNat + 4 * s.done.toNat + 8 * s.toneEn.toNat + 16 * (kindCode s.segKind).toNat +
      64 * (seqCode s.seqSt).toNat := by
  simp only [State.status, append_toNat, bit_toNat, BitVec.toNat_ofNat]
  omega

/-- A field of `n` bits below `m` bits of zero. -/
theorem zero_append_toNat (m : Nat) {n : Nat} (x : BitVec n) : (0#m ++ x).toNat = x.toNat := by
  simp

/-- `ROWS` as a number. -/
theorem rows_toNat (s : State) : (s.csrValue 3#3).toNat = s.rowA.toNat + 4096 * s.rowB.toNat := by
  change (0#8 ++ s.rowB ++ s.rowA).toNat = _
  rw [append_toNat, zero_append_toNat]
  omega

/-! ### `SEQ_PC` = 2047 -/

/-- `SEQ_PC + 1` at 2047 is a free value (assumption log 10). -/
theorem State.advancePc_of_eq (s : State) (h : s.seqPc = 2047#11) :
    s.advancePc = { s with seqPc := Config.freePc s.freeCtr, freeCtr := s.freeCtr + 1 } := by
  rw [State.advancePc, if_pos h]

/-- `Exec` of a word that is an operation (R38). -/
theorem fetchExec_of_decode {s : State} {i : Instr} (h : decode s.fetch = .ok i) : fetchExec s = exec i s := by
  rw [fetchExec, h]

/-! ### Obligations -/

/-- Settles O28: under the invariants R46's condition is that no zero-time step is enabled. -/
theorem tickIsUrgentLast : Obligations.TickIsUrgentLast := by
  refine ⟨fun s h hr => ?_, fun s hq hc => ?_, fun s h hq hs => ?_⟩
  · rw [choose_eq_tick_iff hr, h.zeroTimeEnabled_eq_false_iff]
  · have hz := (choose_eq_tick_iff hq.rst).mp hc
    obtain ⟨-, hd, -, hp⟩ := zeroTimeEnabled_eq_false_iff.mp hz
    exact ⟨fun e => ne_zero_iff_toNat_pos.mp (hd e), fun e => ne_zero_iff_toNat_pos.mp (hp e),
      _, step_of_quiet hq hz, dropNco_passTime s⟩
  · have ha := h.armed_eq_false (s := s) (by simp [hs])
    refine ⟨_, step_of_quiet hq (h.zeroTimeEnabled_eq_false_iff.mpr (.inl hs)), ?_⟩
    rw [dropNco_passTime]
    simp [State.tick, State.dropNco, hs, ha]

/-- Settles O37: the words as numbers, and the two moves of the host. -/
theorem csrView : Obligations.CsrView := by
  intro s
  refine ⟨rfl, ?_, zero_append_toNat 21 _, rows_toNat s, zero_append_toNat 22 _, zero_append_toNat 16 _,
    zero_append_toNat 4 _, rfl, fun reg v h => ?_, fun v u h => ?_, fun reg q h hz => step_of_csrRead h hz⟩
  · have hrun : s.run.toNat = if s.seqSt = .idle then 0 else 1 := by
      by_cases h : s.seqSt = .idle <;> simp [State.run, h]
    rw [← hrun]
    exact status_toNat s
  · exact csrWrite_of_not_start (h.imp_right .inl)
  · rw [csrWrite, csrWrite, h]

/-- Settles O47: the four conditions exclude each other in each state of the sequencer. -/
theorem atMostOneStepEnabled : Obligations.AtMostOneStepEnabled := fun _ h =>
  ⟨h.countP_enabled_le_one, fun hr => (choose_eq_tick_iff hr).trans zeroTimeEnabled_eq_false_iff_countP⟩

/-- Settles O19: each of these steps ends with `advancePc`, and none before it looks at `SEQ_PC`. -/
theorem advancePastEndIsFree : Obligations.AdvancePastEndIsFree := by
  intro s hpc
  refine ⟨fun hz => ?_, ?_, fun hq ha hs => ?_⟩
  · exact congrArg Host.Outcome.next (State.advancePc_of_eq (s.setTone hz) hpc)
  · exact congrArg Host.Outcome.next (State.advancePc_of_eq s.stopTone hpc)
  · have hown : ownStep s = .next (s.goto .rdy).advancePc := by
      rcases hs with ⟨hst, hd⟩ | ⟨hst, hd⟩
      · exact ownStep_of_dlyw_zero s hq.rst hst hd ha
      · exact ownStep_of_segw_done s hq.rst hst hd ha
    rw [step_of_no_move s hq.hostq, hown, State.advancePc_of_eq (s.goto .rdy) hpc]
    rfl

/-- Settles O24: the step is `Exec`, and waiting moves of the host do not change the word fetched. -/
theorem stepRunsDecodedInstr : Obligations.StepRunsDecodedInstr := by
  intro s i hd hr ⟨hs, ha, hi⟩
  refine ⟨?_, s.hostWait_of_nil⟩
  have hf : decode s.hostWait.fetch = .ok i := hi
  rw [step, hd]
  exact (ownStep_of_rdy s.hostWait hr hs ha).trans (fetchExec_of_decode hf)

/-- Settles O33: the write is due, so the step is `csrWrite`, which is START or is ignored. -/
theorem startBeginsTransmission : Obligations.StartBeginsTransmission := by
  refine ⟨fun s q v h hr ho hv hs => ?_, fun s q v h hs => ?_, fun s q v h hv => ?_⟩
  · exact (step_of_csrWrite h).trans (csrWrite_start hv hs hr ho)
  · exact (step_of_csrWrite h).trans (csrWrite_of_not_start (.inr (.inr hs)))
  · exact (step_of_csrWrite h).trans (csrWrite_of_not_start (.inr (.inl hv)))

end Sys2Proof.Machine
end

section
/-! What a step does to the image, the program ROM and the marks (20_memory R60, R61, R64, R78): nothing but a host
write of a pixel changes any of them. -/

namespace Sys2Proof.Machine

/-- The image, the program ROM and the marks are as before. -/
def SameMemories (s t : State) : Prop := t.pix = s.pix ∧ t.prom = s.prom ∧ t.pixDirty = s.pixDirty

theorem fire_sameMemories {s t : State} (h : fire s = .next t) : SameMemories s t := by
  obtain ⟨-, -, p, q, n, rfl⟩ := fire_next h
  simp [SameMemories]

/-- No operation writes a memory (R78). -/
theorem exec_sameMemories {i : Instr} {s t : State} (h : exec i s = .next t) : SameMemories s t := by
  rcases exec_next h with ⟨-, rfl⟩ | ⟨hz, -, rfl⟩ | ⟨us, -, rfl⟩ | ⟨-, rfl⟩ | ⟨k, a, b, -, -, -, -, -, rfl⟩ <;>
    simp [SameMemories]

/-- No step of the machine's own writes a memory (R78). -/
theorem ownStep_sameMemories {s t : State} (h : ownStep s = .next t) : SameMemories s t := by
  rcases ownStep_next h with ⟨-, rfl⟩ | ⟨-, -, -, hf⟩ | ⟨-, -, -, -, rfl⟩ | ⟨-, -, -, -, rfl⟩ | ⟨-, -, -, hx⟩ |
    ⟨-, -, rfl⟩
  · exact ⟨rfl, rfl, rfl⟩
  · exact fire_sameMemories hf
  · simp [SameMemories]
  · simp [SameMemories]
  · obtain ⟨i, -, he⟩ := fetchExec_next hx
    exact exec_sameMemories he
  · exact ⟨rfl, rfl, rfl⟩

/-- The state a host write of a pixel inside the image leaves (R64, assumption log 4). -/
def State.pixWritten (s : State) (xc yc : Nat) (p : Pixel) : State :=
  if s.seqSt = .idle then
    { s with pix := pixPut s.pix (pixNum xc yc) p, pixDirty := Marks.drop (pixNum xc yc) s.pixDirty }
  else { s with pixDirty := Marks.add (pixNum xc yc) s.pixDirty }

theorem State.pixWritten_of_idle {s : State} (h : s.seqSt = .idle) (xc yc : Nat) (p : Pixel) : s.pixWritten xc yc p =
    { s with pix := pixPut s.pix (pixNum xc yc) p, pixDirty := Marks.drop (pixNum xc yc) s.pixDirty } := if_pos h

theorem State.pixWritten_of_ne_idle {s : State} (h : s.seqSt ≠ .idle) (xc yc : Nat) (p : Pixel) :
    s.pixWritten xc yc p = { s with pixDirty := Marks.add (pixNum xc yc) s.pixDirty } := if_neg h

theorem State.pixWritten_prom (s : State) (xc yc : Nat) (p : Pixel) : (s.pixWritten xc yc p).prom = s.prom := by
  unfold State.pixWritten
  split <;> rfl

/-- A host write of a pixel inside the image is taken (R64, R253). -/
theorem hostAct_pixWrite (s : State) {xc yc : Nat} (p : Pixel) (hi : inImage xc yc = true) :
    hostAct (.pixWrite xc yc p) s = .next (s.pixWritten xc yc p) := by
  simp only [hostAct, pixWrite, hi, if_true, State.pixWritten]
  split <;> rfl

/-- All a move of the host can do to the memories. -/
theorem hostAct_memories {op : HostOp} {s t : State} (h : hostAct op s = .next t) :
    SameMemories s t ∨ ∃ xc yc p, op = .pixWrite xc yc p ∧ inImage xc yc = true ∧ t = s.pixWritten xc yc p := by
  rcases hostAct_next h with rfl | ⟨-, -, -, rfl⟩ | ⟨reg, -, rfl⟩ | ⟨xc, yc, p, ho, hi, hs, rfl⟩ |
    ⟨xc, yc, p, ho, hi, hs, rfl⟩ | rfl | rfl
  · exact .inl ⟨rfl, rfl, rfl⟩
  · exact .inl ⟨rfl, rfl, rfl⟩
  · exact .inl ⟨rfl, rfl, rfl⟩
  · exact .inr ⟨xc, yc, p, ho, hi, (State.pixWritten_of_idle hs xc yc p).symm⟩
  · exact .inr ⟨xc, yc, p, ho, hi, (State.pixWritten_of_ne_idle hs xc yc p).symm⟩
  · exact .inl ⟨rfl, rfl, rfl⟩
  · exact .inl ⟨rfl, rfl, rfl⟩

/-- All a step can do to the memories (R78). -/
theorem step_memories {s t : State} (h : step s = .next t) : SameMemories s t ∨
    ∃ xc yc p, hostDue s = some (.pixWrite xc yc p) ∧ inImage xc yc = true ∧ t = s.hostPop.pixWritten xc yc p := by
  rcases step_next h with ⟨op, hd, ha⟩ | ⟨-, ho⟩
  · rcases hostAct_memories ha with hm | ⟨xc, yc, p, rfl, hi, rfl⟩
    · exact .inl hm
    · exact .inr ⟨xc, yc, p, hd, hi, rfl⟩
  · exact .inl (ownStep_sameMemories (s := s.hostWait) ho)

namespace MemInv

variable {s t : State}

theorem congr (h : MemInv s) (hm : SameMemories s t) : MemInv t := by
  obtain ⟨hp, hr, hd⟩ := hm
  exact ⟨hp ▸ h.pix, hr ▸ h.prom, hd ▸ h.dirty⟩

/-- A host write of a pixel inside the image keeps the canonical form. -/
theorem pixWritten (h : MemInv s) {xc yc : Nat} (p : Pixel) (hi : inImage xc yc = true) :
    MemInv (s.pixWritten xc yc p) := by
  by_cases hs : s.seqSt = .idle
  · rw [State.pixWritten_of_idle hs]
    exact ⟨wf_pixPut _ _ p (pixNum_lt hi) h.pix, h.prom, Marks.wfFrom_drop _ _ _ h.dirty⟩
  · rw [State.pixWritten_of_ne_idle hs]
    exact { h with dirty := Marks.wfFrom_add _ (pixNum_lt hi) _ _ (Nat.zero_le _) h.dirty }

/-- Every step keeps the canonical form of the memories. -/
theorem step (h : MemInv s) (hs : Machine.step s = .next t) : MemInv t := by
  rcases step_memories hs with hm | ⟨xc, yc, p, -, hi, rfl⟩
  · exact h.congr hm
  · exact pixWritten (s := s.hostPop) { h with } p hi

end MemInv

/-! ### One pixel written by the host -/

theorem pixNum_ne {x y xc yc : Nat} (hx : x < 640) (hc : xc < 640) (h : (x, y) ≠ (xc, yc)) :
    pixNum x y ≠ pixNum xc yc := fun e => h (Prod.ext_iff.mpr (pixNum_inj hx hc e))

/-- The image after one of its pixels was written, read at any coordinate of a column of the image. -/
theorem pixel_pixPut (s : State) {xc x : Nat} (yc y : Nat) (p : Pixel) (d : List Nat) (hc : xc < 640) (hx : x < 640) :
    State.pixel { s with pix := pixPut s.pix (pixNum xc yc) p, pixDirty := d } x y =
      if (x, y) = (xc, yc) then p else s.pixel x y := by
  split
  · rename_i he
    cases he
    simp [State.pixel, State.pixByte, read_pixPut]
  · rename_i hne
    have hn : pixNum x y ≠ pixNum xc yc := pixNum_ne hx hc hne
    have hr : ∀ k, k / 3 = pixNum x y →
        Cells.read pixDefault (pixPut s.pix (pixNum xc yc) p) k = Cells.read pixDefault s.pix k := fun k hk => by
      rw [read_pixPut, if_neg (by omega), if_neg (by omega), if_neg (by omega)]
    simp only [State.pixel, State.pixByte]
    rw [hr _ (by omega), hr _ (by omega), hr _ (by omega)]

/-! ### Obligations -/

/-- Settles O43: a step leaves the memories as they are or is a host write of a pixel, which keeps their form. -/
theorem memoryCanonicalKept : Obligations.MemoryCanonicalKept := fun _ _ h => h.step

/-- Settles O48: what a step can do to the memories, read byte by byte. -/
theorem noWritePath : Obligations.NoWritePath := by
  intro s t h
  rcases step_memories h with ⟨hp, hr, -⟩ | ⟨xc, yc, p, hd, -, rfl⟩
  · exact ⟨fun k => by rw [State.promByte, hr, State.promByte], fun _ k => by rw [State.pixByte, hp, State.pixByte]⟩
  · refine ⟨fun k => ?_, fun hno => absurd hd (hno xc yc p)⟩
    rw [State.promByte, State.pixWritten_prom, State.hostPop_prom, State.promByte]

/-- Settles O39: the move is taken, and the image and the marks are read back pixel by pixel. -/
theorem hostWritesPixel : Obligations.HostWritesPixel := by
  refine ⟨fun s xc yc p hx hy hs => ?_, fun s xc yc p hx hy hs => ?_⟩
  · have ht := hostAct_pixWrite s p ((inImage_iff xc yc).mpr ⟨hx, hy⟩)
    rw [State.pixWritten_of_idle hs] at ht
    refine ⟨_, ht, ?_, by simp [Marks.mem_drop], fun x y hx' hne => ⟨?_, ?_⟩, rfl⟩
    · rw [pixel_pixPut s yc yc p _ hx hx, if_pos rfl]
    · rw [pixel_pixPut s yc y p _ hx hx', if_neg hne]
    · have hn : pixNum x y ≠ pixNum xc yc := pixNum_ne hx' hx hne
      simp [Marks.mem_drop, hn]
  · have ht := hostAct_pixWrite s p ((inImage_iff xc yc).mpr ⟨hx, hy⟩)
    rw [State.pixWritten_of_ne_idle hs] at ht
    exact ⟨_, ht, rfl, fun n => Marks.mem_add _ _ _⟩

/-- Settles O26, from the ROM read back after one of its words was made different. -/
theorem fetchReadsPlacedWord : Obligations.FetchReadsPlacedWord := by
  intro s w
  have hw : BitVec.ofNat 32 (w % 2 ^ 32) = BitVec.ofNat 32 w := BitVec.eq_of_toNat_eq (by simp)
  have hread : ∀ a, (s.withFetchWord 32 w).promWord a =
      if a = s.seqPc.toNat then BitVec.ofNat 32 w else s.promWord a := fun a =>
    hw ▸ promWord_promPut _ s.prom s.seqPc.toNat a _ rfl
  exact ⟨(hread _).trans (if_pos rfl), fun a ha => (hread a).trans (if_neg ha)⟩

end Sys2Proof.Machine
end

section
/-! The pixel reads of a callback (20_memory R62, R64, R67, U4) and of the program (R70). -/

namespace Sys2Proof.Machine

/-! ### Pixel reads -/

theorem andThen_assoc {α β γ : Type} (o : Out α) (f : α → Out β) (g : β → Out γ) :
    andThen (andThen o f) g = andThen o fun a => andThen (f a) g := by
  cases o <;> rfl

/-- A read of a pixel the host wrote during the transmission is a free value (R64, U4, assumption log 4). -/
theorem pixRead_marked (s : State) {xc yc : Nat} (hx : xc < 640) (hy : yc < 496) (hs : s.sourceOk = true)
    (hd : pixNum xc yc ∈ s.pixDirty) :
    pixRead s xc yc = .next (Config.freePixel s.freeCtr, { s with freeCtr := s.freeCtr + 1 }) := by
  have hi : inImage xc yc = true := (inImage_iff xc yc).mpr ⟨hx, hy⟩
  obtain ⟨h1, h2⟩ := (sourceOk_iff s).mp hs
  simp [pixRead, hi, hd, show xc < s.srcW by omega, show yc < s.srcH by omega]

/-- A pixel read inside the image completes, whether the pixel is marked or not. -/
theorem pixRead_completes (s : State) {xc yc : Nat} (hx : xc < 640) (hy : yc < 496) (hs : s.sourceOk = true) :
    ∃ p n, pixRead s xc yc = .next (p, { s with freeCtr := n }) := by
  by_cases hd : pixNum xc yc ∈ s.pixDirty
  · exact ⟨_, _, pixRead_marked s hx hy hs hd⟩
  · exact ⟨_, s.freeCtr, pixRead_clean s xc yc hx hy hs hd⟩

/-- Pixel reads inside the image complete. -/
theorem pixReads_completes (cs : List (Nat × Nat)) (s : State) (hc : ∀ c ∈ cs, c.1 < 640 ∧ c.2 < 496)
    (hs : s.sourceOk = true) : ∃ r, pixReads cs s = .next r := by
  induction cs generalizing s with
  | nil => exact ⟨_, rfl⟩
  | cons c cs ih =>
    obtain ⟨hx, hy⟩ := hc c List.mem_cons_self
    obtain ⟨p, n, hp⟩ := pixRead_completes s hx hy hs
    obtain ⟨r, hr⟩ := ih { s with freeCtr := n } (fun d hd => hc d (List.mem_cons_of_mem c hd)) hs
    exact ⟨(p :: r.1, r.2), by simp [pixReads, hp, hr]⟩

/-- A pixel read draws a free value exactly if the pixel is marked. -/
theorem pixRead_draws {s t : State} {xc yc : Nat} {p : Pixel} (h : pixRead s xc yc = .next (p, t)) :
    t.freeCtr = s.freeCtr + (if pixNum xc yc ∈ s.pixDirty then 1 else 0) ∧ t.pixDirty = s.pixDirty := by
  obtain ⟨-, ⟨hd, -, rfl⟩ | ⟨hd, -, rfl⟩⟩ := pixRead_next h <;> simp [hd]

/-- Pixel reads draw one free value for each marked pixel of the list (assumption log 4). -/
theorem pixReads_draws {cs : List (Nat × Nat)} {s t : State} {ps : List Pixel}
    (h : pixReads cs s = .next (ps, t)) :
    t.freeCtr = s.freeCtr + cs.countP fun c => decide (pixNum c.1 c.2 ∈ s.pixDirty) := by
  induction cs generalizing s ps with
  | nil => cases h; rfl
  | cons c cs ih =>
    obtain ⟨⟨p, s1⟩, h1, h2⟩ := andThen_eq_next.mp h
    obtain ⟨⟨qs, s2⟩, h3, h4⟩ := andThen_eq_next.mp h2
    cases h4
    obtain ⟨hc, hd⟩ := pixRead_draws h1
    rw [ih h3, hc, hd, List.countP_cons]
    simp only [decide_eq_true_eq]
    omega

/-! ### The reads of a callback (R67) -/

/-- Row A, and row B for the two kinds of difference segment. -/
theorem mem_readCoords {k : SegKind} {x : Nat} {a b : BitVec 12} {c : Nat × Nat} : c ∈ readCoords k x a b ↔
    k ≠ .none ∧ c.1 = x ∧ (c.2 = a.toNat ∨ k ≠ .luma ∧ c.2 = b.toNat) := by
  obtain ⟨x', y⟩ := c
  cases k <;> simp [readCoords, and_or_left]

/-- A callback is its pixel reads and then the frequency of the first and the last pixel read (R128, R137 to R139). -/
theorem callbackFreq_eq_pixReads (s : State) (hk : s.segKind ≠ .none) :
    callbackFreq s = andThen (pixReads (readCoords s.segKind s.pixIdx.toNat s.rowA s.rowB) s) fun r =>
      .next (kindFreq s.segKind (r.1.headD default) (r.1.getLastD default), r.2) := by
  unfold callbackFreq
  cases h : s.segKind with
  | none => exact absurd h hk
  | luma => simp [readCoords, pixReads, andThen_assoc]
  | rdiff => simp [readCoords, pixReads, andThen_assoc]
  | bdiff => simp [readCoords, pixReads, andThen_assoc]

/-- A callback whose column and rows are inside the image completes, whatever the marks. -/
theorem fire_completes (s : State) (hk : s.segKind ≠ .none) (hx : s.pixIdx.toNat < 640) (ha : s.rowA.toNat < 496)
    (hb : s.rowB.toNat < 496) (hs : s.sourceOk = true) : ∃ t, fire s = .next t := by
  have hc : ∀ c ∈ readCoords s.segKind s.pixIdx.toNat s.rowA s.rowB, c.1 < 640 ∧ c.2 < 496 := fun c hm => by
    obtain ⟨-, h1, h2⟩ := mem_readCoords.mp hm
    omega
  obtain ⟨r, hr⟩ := pixReads_completes _ s hc hs
  exact ⟨_, by rw [fire, callbackFreq_eq_pixReads s hk, hr, andThen_next, andThen_next]⟩

/-- The frequency of a column is a function of the pixels a callback reads there (R67, R128). -/
theorem imageFreq_congr {s t : State} {k : SegKind} {x : Nat} {a b : BitVec 12}
    (h : ∀ c ∈ readCoords k x a b, s.pixel c.1 c.2 = t.pixel c.1 c.2) : s.imageFreq k x a b = t.imageFreq k x a b := by
  have hA : k ≠ .none → s.pixel x a.toNat = t.pixel x a.toNat := fun hk =>
    h (x, a.toNat) (mem_readCoords.mpr ⟨hk, rfl, .inl rfl⟩)
  have hB : k ≠ .none → k ≠ .luma → s.pixel x b.toNat = t.pixel x b.toNat := fun hk hl =>
    h (x, b.toNat) (mem_readCoords.mpr ⟨hk, rfl, .inr ⟨hl, rfl⟩⟩)
  cases k with
  | none => rfl
  | luma => simp only [State.imageFreq, kindFreq, hA (by decide)]
  | rdiff => simp only [State.imageFreq, hA (by decide), hB (by decide) (by decide)]
  | bdiff => simp only [State.imageFreq, hA (by decide), hB (by decide) (by decide)]

/-! ### The reads of the program (R70) -/

/-- The reads of a scan operation: those of its 640 columns, in order. -/
theorem opReads_of_scanOf {i : Instr} {k : SegKind} {a b : BitVec 12} (h : scanOf i = some (k, a, b)) :
    opReads i = (List.range Config.width).flatMap fun x => readCoords k x a b := by
  rw [opReads, h]

theorem length_readCoords (k : SegKind) (x : Nat) (a b : BitVec 12) :
    (readCoords k x a b).length = if k = .none then 0 else if k = .luma then 1 else 2 := by
  cases k <;> rfl

theorem length_opReads {i : Instr} {k : SegKind} {a b : BitVec 12} (h : scanOf i = some (k, a, b)) :
    (opReads i).length = Config.width * if k = .none then 0 else if k = .luma then 1 else 2 := by
  rw [opReads_of_scanOf h, List.length_flatMap]
  simp only [length_readCoords, List.map_const', List.sum_replicate, List.length_range, smul_eq_mul]

theorem mem_opReads {i : Instr} {k : SegKind} {a b : BitVec 12} (h : scanOf i = some (k, a, b)) {c : Nat × Nat}
    (hc : c ∈ opReads i) : c.1 < 640 ∧ (c.2 = a.toNat ∨ k ≠ .luma ∧ c.2 = b.toNat) := by
  rw [opReads_of_scanOf h] at hc
  obtain ⟨x, hx, hc⟩ := List.mem_flatMap.mp hc
  obtain ⟨-, rfl, hy⟩ := mem_readCoords.mp hc
  exact ⟨List.mem_range.mp hx, hy⟩

/-- A scan operation reads a pixel as often as the callback of its column does. -/
theorem count_opReads {i : Instr} {k : SegKind} {a b : BitVec 12} (h : scanOf i = some (k, a, b)) {x : Nat}
    (hx : x < 640) (y : Nat) : (opReads i).count (x, y) = (readCoords k x a b).count (x, y) := by
  have hother : ∀ j, j ≠ x → (readCoords k j a b).count (x, y) = 0 := fun j hj =>
    List.count_eq_zero.mpr fun hm => hj (mem_readCoords.mp hm).2.1.symm
  have hone : (List.range Config.width).count x = 1 :=
    List.count_eq_one_of_mem List.nodup_range (List.mem_range.mpr hx)
  rw [opReads_of_scanOf h, List.count_flatMap]
  refine (List.sum_map_eq_nsmul_single x _ fun j hj _ => hother j hj).trans ?_
  rw [hone, one_smul]

/-- Tones read no pixel. -/
theorem flatMap_opReads_tone (hz : BitVec 16) (us : BitVec 28) : (tone hz us).flatMap opReads = [] := rfl

theorem flatMap_opReads_header : header.flatMap opReads = [] := by
  rw [header, List.flatMap_assoc]
  simp [flatMap_opReads_tone]

/-- The reads of a pair are those of its four segments. -/
theorem flatMap_opReads_linePair (p : Nat) : (linePair p).flatMap opReads = (pairScans p).flatMap opReads := by
  simp [linePair, sync, porch, flatMap_opReads_tone]

/-- A pair reads 640 pixels in each luminance segment and twice as many in each difference segment (R70). -/
theorem length_flatMap_opReads_linePair (p : Nat) : ((linePair p).flatMap opReads).length = 3840 := by
  rw [flatMap_opReads_linePair, List.length_flatMap]
  simp only [pairScans, List.map_cons, List.map_nil, length_opReads (i := .scany _) rfl,
    length_opReads (i := .scanry _ _) rfl, length_opReads (i := .scanby _ _) rfl]
  rfl

theorem length_flatMap_opReads_txImage : (txImage.flatMap opReads).length = 952320 := by
  have hend : [Instr.end_].flatMap opReads = [] := rfl
  have hstop : [Instr.stop].flatMap opReads = [] := rfl
  rw [txImage, image, List.flatMap_append, List.flatMap_append, List.flatMap_append, flatMap_opReads_header, hend,
    hstop, List.append_nil, List.append_nil, List.nil_append, List.flatMap_assoc, List.length_flatMap]
  simp only [length_flatMap_opReads_linePair, List.map_const', List.sum_replicate, List.length_range]
  rfl

/-- Pair `p` reads the rows `2p` and `2p + 1` of the image only. -/
theorem mem_flatMap_opReads_linePair {p : Nat} (hp : p < 248) {c : Nat × Nat}
    (hc : c ∈ (linePair p).flatMap opReads) : c.1 < 640 ∧ (c.2 = 2 * p ∨ c.2 = 2 * p + 1) := by
  have h1 := firstRow_toNat p hp
  have h2 := secondRow_toNat p hp
  rw [flatMap_opReads_linePair] at hc
  obtain ⟨i, hi, hc⟩ := List.mem_flatMap.mp hc
  simp only [pairScans, List.mem_cons, List.not_mem_nil, or_false] at hi
  rcases hi with rfl | rfl | rfl | rfl <;>
    · obtain ⟨hx, hy⟩ := mem_opReads rfl hc
      grind

/-- How often each segment of a pair reads a pixel of the pair. -/
theorem count_opReads_pairScans {p x y : Nat} (hp : p < 248) (hx : x < 640) (hy : y = 2 * p ∨ y = 2 * p + 1) :
    ((pairScans p).map fun i => (opReads i).count (x, y)) = if y = 2 * p then [1, 1, 1, 0] else [0, 1, 1, 1] := by
  have h1 := firstRow_toNat p hp
  have h2 := secondRow_toNat p hp
  simp only [pairScans, List.map_cons, List.map_nil, count_opReads (i := .scany _) rfl hx,
    count_opReads (i := .scanry _ _) rfl hx, count_opReads (i := .scanby _ _) rfl hx, readCoords, h1, h2]
  rcases hy with rfl | rfl <;> simp

/-! ### Obligations -/

/-- Settles O55: the callback as its list of reads, the draws counted along the list, and the reads of the program
counted segment by segment. -/
theorem pixelReadCounts : Obligations.PixelReadCounts := by
  refine ⟨callbackFreq_eq_pixReads, fun s t f h => ?_, length_flatMap_opReads_txImage, flatMap_opReads_header,
    fun p hp => ⟨fun c => mem_flatMap_opReads_linePair hp, fun xc y => count_opReads_pairScans hp⟩⟩
  rw [callbackFreq_eq_pixReads s (callbackFreq_next h).1] at h
  obtain ⟨⟨ps, u⟩, hr, he⟩ := andThen_eq_next.mp h
  cases he
  exact pixReads_draws hr

/-- Settles O31: under the invariants a callback's reads are inside the image, and such reads complete. -/
theorem callbackAlwaysCompletes : Obligations.CallbackAlwaysCompletes := by
  refine ⟨fun s h ha hs => ?_, fun s xc yc hs hx hy => ⟨pixRead_marked s hx hy hs, pixRead_clean s xc yc hx hy hs⟩⟩
  obtain ⟨-, -, hx, -⟩ := h.armed_wait ha
  exact fire_completes s (h.armed_kind ha) hx h.rows.1 h.rows.2 hs

/-- Settles O32: a callback on a steady image computes the frequency of its column, which depends on those pixels. -/
theorem callbackReadsItsPixels : Obligations.CallbackReadsItsPixels := by
  intro s t hs ht hk hx ha hb ek ex ea eb hp
  refine ⟨_, callbackFreq_clean s hk hx ha hb hs.source hs.clean, ?_⟩
  rw [imageFreq_congr hp, ← ek, ← ex, ← ea, ← eb]
  exact callbackFreq_clean t (ek ▸ hk) (ex ▸ hx) (ea ▸ ha) (eb ▸ hb) ht.source ht.clean

end Sys2Proof.Machine
end

section
/-! A START that is refused, and a CSR read that waits (20_memory R66, R72). -/

namespace Sys2Proof.Machine

/-- START with a pixel source smaller than 640 by 496 (R66, R234). -/
theorem csrWrite_start_short {s : State} {v : BitVec 32} (hv : v.getLsbD 0 = true) (hs : s.seqSt = .idle)
    (hr : s.rst = false) (ho : s.sourceOk = false) : csrWrite s 0#3 v = .refused .geometryMismatch := by
  rw [csrWrite, if_pos ⟨rfl, hv, hs, hr⟩, start, if_neg (Bool.eq_false_iff.mp ho)]

/-- A due CSR read that waits for a zero-time step leaves the host's pending moves as they are (R72). -/
theorem step_of_csrRead_waiting {s : State} {q : List HostMove} {reg : BitVec 3} (h : s.hostq = ⟨0, .csrRead reg⟩ :: q)
    (hr : s.rst = false) (hz : s.zeroTimeEnabled = true) : step s = ownStep s := by
  have hq : hostCount s.hostq = s.hostq := by rw [h]; rfl
  have hw : s.hostWait = s := by rw [State.hostWait, hq]
  simp [step, hostDue, hostReady, h, hr, hz, hw]

/-- Settles O34: the write is due, so the step is `csrWrite`, which is START. -/
theorem startRefusesShortImage : Obligations.StartRefusesShortImage := by
  intro s q v h hr hv hs hshort
  have ho : s.sourceOk = false := Bool.eq_false_iff.mpr fun he => by
    have := (sourceOk_iff s).mp he
    omega
  exact (step_of_csrWrite h).trans (csrWrite_start_short hv hs hr ho)

/-- Settles O38: the read is one update of what the host has seen, and it is not due before a zero-time step. -/
theorem csrReadIsPure : Obligations.CsrReadIsPure :=
  ⟨fun _ _ => rfl, fun _ _ _ h hr hz => step_of_csrRead_waiting h hr hz⟩

end Sys2Proof.Machine
end

section
/-! What the decoder answers on each word, by its opcode (30_encoding R84 to R87, R89), and that it is the inverse of
the encoder (R90). -/

namespace Sys2Proof

/-- Format S with two rows: what each answer of `decodePair` says of the word. -/
theorem decodePair_eq_iff {w : OpWord} {op : BitVec 12 → BitVec 12 → Instr} {r : Except DecodeError Instr} :
    decodePair w op = r ↔
      (w.toNat / 2 ^ 24 % 2 ^ 4 = 0 ∧ (w.toNat % 2 ^ 12 < 496 ∧ w.toNat / 2 ^ 12 % 2 ^ 12 < 496) ∧
        .ok (op (fieldRowA w) (fieldRowB w)) = r) ∨
      (w.toNat / 2 ^ 24 % 2 ^ 4 = 0 ∧ (496 ≤ w.toNat % 2 ^ 12 ∨ 496 ≤ w.toNat / 2 ^ 12 % 2 ^ 12) ∧
        .error .rowOutOfRange = r) ∨
      (w.toNat / 2 ^ 24 % 2 ^ 4 ≠ 0 ∧ .error .reservedField = r) := by
  simp only [decodePair_toNat, ite_eq_iff, not_and_or, not_lt, and_or_left, or_assoc, ne_eq]

/-- `SCANY`: what each answer of `decodeScany` says of the word. -/
theorem decodeScany_eq_iff {w : OpWord} {r : Except DecodeError Instr} : decodeScany w = r ↔
    (w.toNat / 2 ^ 12 % 2 ^ 16 = 0 ∧ w.toNat % 2 ^ 12 < 496 ∧ .ok (.scany (fieldRowA w)) = r) ∨
    (w.toNat / 2 ^ 12 % 2 ^ 16 = 0 ∧ 496 ≤ w.toNat % 2 ^ 12 ∧ .error .rowOutOfRange = r) ∨
    (w.toNat / 2 ^ 12 % 2 ^ 16 ≠ 0 ∧ .error .reservedField = r) := by
  have hz : (w.toNat / 2 ^ 24 % 2 ^ 4 = 0 ∧ w.toNat / 2 ^ 12 % 2 ^ 12 = 0) ↔ w.toNat / 2 ^ 12 % 2 ^ 16 = 0 := by omega
  simp only [decodeScany_toNat, hz, ite_eq_iff, not_lt, and_or_left, or_assoc, ne_eq]

/-- The decoder by opcode (R84, R89): a word gives the answer `r` exactly if the row of its opcode does. -/
theorem decode_eq_iff {w : OpWord} {r : Except DecodeError Instr} : decode w = r ↔
    (w.toNat / 2 ^ 28 = 0 ∧ (if w.toNat % 2 ^ 28 = 0 then .ok .end_ else .error .reservedField) = r) ∨
    (w.toNat / 2 ^ 28 = 1 ∧
      (if w.toNat / 2 ^ 16 % 2 ^ 12 = 0 then .ok (.setf (fieldHz w)) else .error .reservedField) = r) ∨
    (w.toNat / 2 ^ 28 = 2 ∧ .ok (.wait (fieldUs w)) = r) ∨
    (w.toNat / 2 ^ 28 = 3 ∧ (if w.toNat % 2 ^ 28 = 0 then .ok .stop else .error .reservedField) = r) ∨
    (w.toNat / 2 ^ 28 = 5 ∧ decodeScany w = r) ∨
    (w.toNat / 2 ^ 28 = 6 ∧ decodePair w .scanry = r) ∨
    (w.toNat / 2 ^ 28 = 7 ∧ decodePair w .scanby = r) ∨
    ((w.toNat / 2 ^ 28 = 4 ∨ 8 ≤ w.toNat / 2 ^ 28) ∧ .error .reservedOpcode = r) := by
  simp only [decode, fieldOpc_eq_iff, fieldZ_eq_zero, fieldZeroF_eq_zero]
  generalize w.toNat / 2 ^ 28 = o
  have ho : (o = 4 ∨ 8 ≤ o) ∨ o = 0 ∨ o = 1 ∨ o = 2 ∨ o = 3 ∨ o = 5 ∨ o = 6 ∨ o = 7 := by omega
  rcases ho with ho | rfl | rfl | rfl | rfl | rfl | rfl | rfl
  · have hn : o ≠ 0 ∧ o ≠ 1 ∧ o ≠ 2 ∧ o ≠ 3 ∧ o ≠ 5 ∧ o ≠ 6 ∧ o ≠ 7 := by omega
    simp [ho, hn]
  all_goals simp

/-- Which words decode, and to which operation (R84, R85). -/
theorem decode_eq_ok_iff {w : OpWord} {i : Instr} : decode w = .ok i ↔
    (w.toNat / 2 ^ 28 = 0 ∧ w.toNat % 2 ^ 28 = 0 ∧ .end_ = i) ∨
    (w.toNat / 2 ^ 28 = 1 ∧ w.toNat / 2 ^ 16 % 2 ^ 12 = 0 ∧ .setf (fieldHz w) = i) ∨
    (w.toNat / 2 ^ 28 = 2 ∧ .wait (fieldUs w) = i) ∨
    (w.toNat / 2 ^ 28 = 3 ∧ w.toNat % 2 ^ 28 = 0 ∧ .stop = i) ∨
    (w.toNat / 2 ^ 28 = 5 ∧ w.toNat / 2 ^ 12 % 2 ^ 16 = 0 ∧ w.toNat % 2 ^ 12 < 496 ∧ .scany (fieldRowA w) = i) ∨
    (w.toNat / 2 ^ 28 = 6 ∧ w.toNat / 2 ^ 24 % 2 ^ 4 = 0 ∧
      (w.toNat % 2 ^ 12 < 496 ∧ w.toNat / 2 ^ 12 % 2 ^ 12 < 496) ∧ .scanry (fieldRowA w) (fieldRowB w) = i) ∨
    (w.toNat / 2 ^ 28 = 7 ∧ w.toNat / 2 ^ 24 % 2 ^ 4 = 0 ∧
      (w.toNat % 2 ^ 12 < 496 ∧ w.toNat / 2 ^ 12 % 2 ^ 12 < 496) ∧ .scanby (fieldRowA w) (fieldRowB w) = i) := by
  simp only [decode_eq_iff, decodePair_eq_iff, decodeScany_eq_iff, ite_eq_iff, Except.ok.injEq, reduceCtorEq,
    and_false, or_false]

theorem decode_eq_reservedOpcode_iff {w : OpWord} : decode w = .error .reservedOpcode ↔
    w.toNat / 2 ^ 28 = 4 ∨ 8 ≤ w.toNat / 2 ^ 28 := by
  simp only [decode_eq_iff, decodePair_eq_iff, decodeScany_eq_iff, ite_eq_iff, Except.error.injEq, reduceCtorEq,
    and_false, or_false, false_or, and_true]

theorem decode_eq_reservedField_iff {w : OpWord} : decode w = .error .reservedField ↔
    (w.toNat / 2 ^ 28 = 0 ∧ w.toNat % 2 ^ 28 ≠ 0) ∨
    (w.toNat / 2 ^ 28 = 1 ∧ w.toNat / 2 ^ 16 % 2 ^ 12 ≠ 0) ∨
    (w.toNat / 2 ^ 28 = 3 ∧ w.toNat % 2 ^ 28 ≠ 0) ∨
    (w.toNat / 2 ^ 28 = 5 ∧ w.toNat / 2 ^ 12 % 2 ^ 16 ≠ 0) ∨
    ((w.toNat / 2 ^ 28 = 6 ∨ w.toNat / 2 ^ 28 = 7) ∧ w.toNat / 2 ^ 24 % 2 ^ 4 ≠ 0) := by
  simp only [decode_eq_iff, decodePair_eq_iff, decodeScany_eq_iff, ite_eq_iff, Except.error.injEq, reduceCtorEq,
    and_false, or_false, false_or, and_true, or_and_right, ne_eq]

theorem decode_eq_rowOutOfRange_iff {w : OpWord} : decode w = .error .rowOutOfRange ↔
    (w.toNat / 2 ^ 28 = 5 ∧ w.toNat / 2 ^ 12 % 2 ^ 16 = 0 ∧ 496 ≤ w.toNat % 2 ^ 12) ∨
    ((w.toNat / 2 ^ 28 = 6 ∨ w.toNat / 2 ^ 28 = 7) ∧ w.toNat / 2 ^ 24 % 2 ^ 4 = 0 ∧
      (496 ≤ w.toNat % 2 ^ 12 ∨ 496 ≤ w.toNat / 2 ^ 12 % 2 ^ 12)) := by
  simp only [decode_eq_iff, decodePair_eq_iff, decodeScany_eq_iff, ite_eq_iff, Except.error.injEq, reduceCtorEq,
    and_false, or_false, false_or, and_true, or_and_right]

/-! ### The words of the operations as numbers (R90) -/

theorem encode_end_toNat : (encode .end_).toNat = 0x00000000 := rfl

theorem encode_setf_toNat (hz : BitVec 16) : (encode (.setf hz)).toNat = 0x10000000 + hz.toNat := by
  rw [encode_toNat, operandBits_setf]; simp [opcOf]

theorem encode_wait_toNat (us : BitVec 28) : (encode (.wait us)).toNat = 0x20000000 + us.toNat := by
  rw [encode_toNat]; simp [opcOf, operandBits]

theorem encode_stop_toNat : (encode .stop).toNat = 0x30000000 := rfl

theorem encode_scany_toNat (a : BitVec 12) : (encode (.scany a)).toNat = 0x50000000 + a.toNat := by
  rw [encode_toNat, operandBits_scany]; simp [opcOf]

theorem encode_scanry_toNat (a b : BitVec 12) :
    (encode (.scanry a b)).toNat = 0x60000000 + b.toNat * 4096 + a.toNat := by
  rw [encode_toNat, operandBits_scanry, ← Nat.add_assoc]; simp [opcOf]

theorem encode_scanby_toNat (a b : BitVec 12) :
    (encode (.scanby a b)).toNat = 0x70000000 + b.toNat * 4096 + a.toNat := by
  rw [encode_toNat, operandBits_scanby, ← Nat.add_assoc]; simp [opcOf]

/-! ### The encoder after the decoder (R90) -/

/-- A word that decodes is the word of the operation it decodes to (R90). -/
theorem encode_of_decode {w : OpWord} {i : Instr} (h : decode w = .ok i) : encode i = w := by
  apply BitVec.eq_of_toNat_eq
  rcases decode_eq_ok_iff.mp h with ⟨ho, hz, rfl⟩ | ⟨ho, hz, rfl⟩ | ⟨ho, rfl⟩ | ⟨ho, hz, rfl⟩ | ⟨ho, hz, -, rfl⟩ |
    ⟨ho, hz, -, rfl⟩ | ⟨ho, hz, -, rfl⟩
  · rw [encode_end_toNat]; omega
  · rw [encode_setf_toNat, fieldHz_toNat]; omega
  · rw [encode_wait_toNat, fieldUs_toNat]; omega
  · rw [encode_stop_toNat]; omega
  · rw [encode_scany_toNat, fieldRowA_toNat]; omega
  · rw [encode_scanry_toNat, fieldRowA_toNat, fieldRowB_toNat]; omega
  · rw [encode_scanby_toNat, fieldRowA_toNat, fieldRowB_toNat]; omega

/-- A word that decodes gives a legal operation (R85). -/
theorem wellFormed_of_decode {w : OpWord} {i : Instr} (h : decode w = .ok i) : i.wellFormed = true := by
  rcases decode_eq_ok_iff.mp h with ⟨-, -, rfl⟩ | ⟨-, -, rfl⟩ | ⟨-, rfl⟩ | ⟨-, -, rfl⟩ | ⟨-, -, ha, rfl⟩ |
    ⟨-, -, hr, rfl⟩ | ⟨-, -, hr, rfl⟩
  case inl | inr.inl | inr.inr.inl | inr.inr.inr.inl => rfl
  all_goals simpa [Instr.wellFormed, rowOk_field, fieldRowA_toNat, fieldRowB_toNat]

/-! ### Masks (R84) -/

/-- A mask that keeps the bits from `k` up leaves `m` exactly if `w` and `m` agree as numbers from there. -/
theorem and_highMask_eq_iff (k : Nat) (w m : OpWord) :
    w &&& BitVec.allOnes 32 <<< k = m ↔ w.toNat / 2 ^ k * 2 ^ k = m.toNat := by
  have hlt : w.toNat / 2 ^ k * 2 ^ k < 2 ^ 32 := (Nat.div_mul_le_self _ _).trans_lt w.isLt
  rw [← BitVec.shiftLeft_ushiftRight, ← BitVec.toNat_inj, BitVec.toNat_shiftLeft, BitVec.toNat_ushiftRight,
    Nat.shiftLeft_eq, Nat.shiftRight_eq_div_pow, Nat.mod_eq_of_lt hlt]

/-! ### Obligations -/

/-- Settles O1: `decode_encode` one way; the other way the fields of a word that decodes add up to it. -/
theorem decodeEncodeRoundTrip : Obligations.DecodeEncodeRoundTrip :=
  ⟨fun _ => decode_encode, fun _ _ h => ⟨encode_of_decode h, wellFormed_of_decode h⟩, encode_end_toNat,
    encode_setf_toNat, encode_wait_toNat, encode_stop_toNat, encode_scany_toNat, encode_scanry_toNat,
    encode_scanby_toNat⟩

/-- Settles O2: `decode_eq_ok_iff` row by row, with each mask as a condition on the word as a number. -/
theorem wordsOfTheOpcodeMap : Obligations.WordsOfTheOpcodeMap := by
  intro w
  have h0 : w &&& 0xFFFFFFFF#32 = 0x00000000#32 ↔ _ := and_highMask_eq_iff 0 w _
  have h1 : w &&& 0xFFFF0000#32 = 0x10000000#32 ↔ _ := and_highMask_eq_iff 16 w _
  have h2 : w &&& 0xF0000000#32 = 0x20000000#32 ↔ _ := and_highMask_eq_iff 28 w _
  have h3 : w &&& 0xFFFFFFFF#32 = 0x30000000#32 ↔ _ := and_highMask_eq_iff 0 w _
  have h5 : w &&& 0xFFFFF000#32 = 0x50000000#32 ↔ _ := and_highMask_eq_iff 12 w _
  have h6 : w &&& 0xFF000000#32 = 0x60000000#32 ↔ _ := and_highMask_eq_iff 24 w _
  have h7 : w &&& 0xFF000000#32 = 0x70000000#32 ↔ _ := and_highMask_eq_iff 24 w _
  simp only [h0, h1, h2, h3, h5, h6, h7, BitVec.toNat_ofNat, decode_eq_ok_iff, reduceCtorEq, and_false, or_false,
    false_or, and_true, exists_and_left, exists_eq', Instr.setf.injEq, Instr.wait.injEq, Instr.scany.injEq,
    Instr.scanry.injEq, Instr.scanby.injEq]
  omega

/-- Settles O3: the words of each refusal, and the ROM holds words of legal operations. -/
theorem illegalWordsRefusedByName : Obligations.IllegalWordsRefusedByName :=
  ⟨fun _ => ⟨decode_eq_reservedOpcode_iff, decode_eq_reservedField_iff, decode_eq_rowOutOfRange_iff⟩,
    fun a _ => ⟨_, decode_encode (Machine.romInstr_wellFormed a)⟩⟩

/-- Settles O4: closed words, decoded by evaluation. -/
theorem decodesSampleWords : Obligations.DecodesSampleWords := by
  unfold Obligations.DecodesSampleWords
  decide

end Sys2Proof
end

section
/-! The pseudo-operations `IMAGE` and `TXIMAGE` (30_encoding R97) in the program ROM (44_image_sequence R202), and the
step on a word that is no operation (30_encoding R86, R87). -/

namespace Sys2Proof.Machine

theorem image_length : image.length = 1985 := by
  rw [image, List.length_append, (pairs_getElem? _).1]; rfl

theorem txImage_length : txImage.length = 2012 := by
  simp [txImage, header_length, image_length]

/-- The operations of the pairs stand in the program after the header. -/
theorem linePair_getElem?_eq_romInstr {n : Nat} (h : n < 1984) :
    (linePair (n / 8))[n % 8]? = some (romInstr (26 + n)) := by
  have hl : n % 8 < (linePair (n / 8)).length := by rw [linePair_length]; omega
  have hr := romInstr_pair (n / 8) (n % 8) (by omega) (by omega)
  rw [Nat.add_assoc, Nat.div_add_mod] at hr
  rw [hr, List.getD_eq_getElem _ _ hl, List.getElem?_eq_getElem hl]

/-- `IMAGE` stands in the program after the header. -/
theorem image_getElem? {n : Nat} (h : n < 1985) : image[n]? = some (romInstr (26 + n)) := by
  obtain ⟨hlen, hget⟩ := pairs_getElem? Config.numPairs
  have hp : 8 * Config.numPairs = 1984 := rfl
  rw [image]
  by_cases hn : n < 1984
  · rw [List.getElem?_append_left (by omega), hget n (by omega), linePair_getElem?_eq_romInstr hn]
  · obtain rfl : n = 1984 := by omega
    rw [List.getElem?_append_right (by omega), hlen, hp, romInstr_stop]; rfl

/-- `TXIMAGE` stands in the program from address 0 on (R97). -/
theorem txImage_getElem? {a : Nat} (h : a < 2012) : txImage[a]? = some (romInstr a) := by
  have hh := header_length
  have hi := image_length
  rw [txImage, List.append_assoc]
  by_cases ha : a < 26
  · have hl : a < header.length := by omega
    rw [List.getElem?_append_left hl, romInstr_header a ha, List.getD_eq_getElem _ _ hl, List.getElem?_eq_getElem hl]
  · rw [List.getElem?_append_right (by omega), hh]
    by_cases hn : a < 2011
    · rw [List.getElem?_append_left (by omega), image_getElem? (by omega), Nat.add_sub_cancel' (by omega)]
    · obtain rfl : a = 2011 := by omega
      rw [List.getElem?_append_right (by omega), hi, romInstr_end 2011 le_rfl]; rfl

/-- From address 2012 on the fixed ROM holds 0 (R71, R202). -/
theorem romWord_eq_zero {a : Nat} (h : 2012 ≤ a) : romWord a = 0#32 := by
  rw [romWord, romInstr_end a (by omega)]; rfl

/-- Settles O5: the operations of `TXIMAGE` are those of the ROM's table, one by one. -/
theorem romHoldsTxImage : Obligations.RomHoldsTxImage :=
  ⟨rfl, rfl, image_length, txImage_length, fun s hs =>
    ⟨fun a ha => ⟨txImage_getElem? ha, promWord_fixed s a hs⟩,
      fun a ha _ => (promWord_fixed s a hs).trans (romWord_eq_zero ha)⟩⟩

/-! ### A word that is no operation (R86, R87, U8) -/

/-- `Exec` of a word that is no operation refuses with the decoder's name (R86, R87, U8). -/
theorem step_of_decode_error {s : State} {e : DecodeError} (hd : hostDue s = none) (hr : s.rst = false)
    (hs : s.seqSt = .rdy) (ha : s.armed = false) (he : decode s.fetch = .error e) :
    step s = .refused (refusalOf e) := by
  have hf : decode s.hostWait.fetch = .error e := he
  rw [step, hd]
  exact (ownStep_of_rdy s.hostWait hr hs ha).trans (by rw [fetchExec, hf])

/-- Settles O25: the step is `Exec`, and `refusalOf` keeps the name. -/
theorem stepRefusesIllegalWord : Obligations.StepRefusesIllegalWord := fun _ hd hr hs ha =>
  ⟨step_of_decode_error hd hr hs ha, step_of_decode_error hd hr hs ha, step_of_decode_error hd hr hs ha⟩

end Sys2Proof.Machine
end

section
/-! The exact integer functions of the colour converter and the frequency mapper, the rational ones they stand for, and
the frequency of a callback (40_colour_and_frequency R111 to R128). -/

namespace Sys2Proof.Machine

/-! ### The integer colour components are the rational ones, scaled (R111 to R113, R120, R121) -/

theorem y1000_eq_lumaQ (p : Pixel) : (y1000 p : ℚ) = 1000 * lumaQ p := by
  simp only [y1000, lumaQ]
  push_cast
  ring

theorem ryn_eq_redDiffQ (p : Pixel) : (ryn p : ℚ) = 1000000 * redDiffQ p := by
  simp only [ryn, redDiffQ]
  push_cast [y1000_eq_lumaQ]
  ring

theorem byn_eq_blueDiffQ (p : Pixel) : (byn p : ℚ) = 1000000 * blueDiffQ p := by
  simp only [byn, blueDiffQ]
  push_cast [y1000_eq_lumaQ]
  ring

/-- The other form of R121, from the components alone. -/
theorem ryn_eq_components (p : Pixel) :
    ryn p = 713 * (701 * (p.r.toNat : Int) - 587 * (p.g.toNat : Int) - 114 * (p.b.toNat : Int)) := by
  simp only [ryn, y1000]
  omega

theorem byn_eq_components (p : Pixel) :
    byn p = 564 * (886 * (p.b.toNat : Int) - 299 * (p.r.toNat : Int) - 587 * (p.g.toNat : Int)) := by
  simp only [byn, y1000]
  omega

/-! ### The one floor of the mapping is the integer division (R116 to R119, R122) -/

theorem lumFreq_eq_mapLuminance (p : Pixel) : (lumFreq p : Int) = mapLuminance (lumaQ p) := by
  have hq : lumaQ p / 255 * 800 = ((4 * y1000 p : ℕ) : ℚ) / ((1275 : ℕ) : ℚ) := by
    push_cast [y1000_eq_lumaQ]
    ring
  rw [mapLuminance, hq, Rat.floor_natCast_div_natCast]
  rfl

/-- `S` is the sum of two rows' differences times a million, so two million times their mean. -/
theorem diffFreq_eq_mapDifference {s : Int} {d : ℚ} (h : (s : ℚ) = 2000000 * d) : diffFreq s = mapDifference d := by
  have hq : (d + 128) / 255 * 800 = ((s + 256000000 : Int) : ℚ) / ((637500 : ℕ) : ℚ) := by
    push_cast [h]
    ring
  rw [mapDifference, hq, Rat.floor_intCast_div_natCast]
  rfl

theorem diffFreq_ryn_eq_mapDifference (p q : Pixel) :
    diffFreq (ryn p + ryn q) = mapDifference (meanQ (redDiffQ p) (redDiffQ q)) :=
  diffFreq_eq_mapDifference (by rw [meanQ]; push_cast [ryn_eq_redDiffQ]; ring)

theorem diffFreq_byn_eq_mapDifference (p q : Pixel) :
    diffFreq (byn p + byn q) = mapDifference (meanQ (blueDiffQ p) (blueDiffQ q)) :=
  diffFreq_eq_mapDifference (by rw [meanQ]; push_cast [byn_eq_blueDiffQ]; ring)

/-! ### The mappings are monotone, with their step points (R125) -/

theorem lumFreq_le_of_y1000_le {p q : Pixel} (h : y1000 p ≤ y1000 q) : lumFreq p ≤ lumFreq q :=
  Nat.add_le_add_left (Nat.div_le_div_right (Nat.mul_le_mul_left 4 h)) _

theorem diffFreq_mono : Monotone diffFreq := fun _ _ h =>
  Int.add_le_add_left (Int.ediv_le_ediv (by decide) (Int.add_le_add_right h _)) _

theorem lumFreq_eq_iff (p : Pixel) (k : Nat) :
    lumFreq p = 1500 + k ↔ 1275 * k ≤ 4 * y1000 p ∧ 4 * y1000 p < 1275 * (k + 1) := by
  simp only [lumFreq, Config.blackHz]
  omega

theorem diffFreq_eq_iff (s k : Int) :
    diffFreq s = 1500 + k ↔ 637500 * k ≤ s + 256000000 ∧ s + 256000000 < 637500 * (k + 1) := by
  simp only [diffFreq, Config.blackHz]
  omega

theorem diffFreq_eq_1901_iff (s : Int) : diffFreq s = 1901 ↔ -362500 ≤ s ∧ s ≤ 274999 := by
  have := diffFreq_eq_iff s 401
  omega

/-- Where the frequency of a pair leaves the passband (R123). -/
theorem diffFreq_eq_2301_iff {s : Int} (h : s ≤ 254904630) : diffFreq s = 2301 ↔ 254637500 ≤ s := by
  have := diffFreq_eq_iff s 801
  omega

/-! ### The extreme pixels (R123) -/

theorem pixel_eq_iff {p : Pixel} {r g b : Byte} :
    p = ⟨r, g, b⟩ ↔ p.r.toNat = r.toNat ∧ p.g.toNat = g.toNat ∧ p.b.toNat = b.toNat := by
  cases p
  simp [BitVec.toNat_inj]

theorem diffFreq_ryn_eq_2301_iff (p : Pixel) :
    diffFreq (ryn p + ryn p) = 2301 ↔ p = ⟨255#8, 0#8, 0#8⟩ ∨ p = ⟨255#8, 0#8, 1#8⟩ := by
  have hb := ryn_bounds p
  have hr := p.r.isLt
  rw [diffFreq_eq_2301_iff (by omega), ryn_eq_components]
  simp only [pixel_eq_iff, BitVec.toNat_ofNat]
  omega

theorem diffFreq_byn_eq_2301_iff (p : Pixel) :
    diffFreq (byn p + byn p) = 2301 ↔ p = ⟨0#8, 0#8, 255#8⟩ := by
  have hb := byn_bounds p
  have hB := p.b.isLt
  rw [diffFreq_eq_2301_iff (by omega), byn_eq_components]
  simp only [pixel_eq_iff, BitVec.toNat_ofNat]
  omega

/-! ### The frequency of a segment kind (R128) -/

theorem pair_sum_bounds {p q : Pixel} {s : Int} (h : s = ryn p + ryn q ∨ s = byn p + byn q) :
    -254904630 ≤ s ∧ s ≤ 254904630 := by
  rcases h with rfl | rfl
  · have := ryn_bounds p
    have := ryn_bounds q
    omega
  · have := byn_bounds p
    have := byn_bounds q
    omega

/-- The luminance frequency fits `TONE_FREQ`, so the width loses nothing (R123). -/
theorem kindFreq_luma_toNat (p q : Pixel) : (kindFreq .luma p q).toNat = lumFreq p := by
  have := lumFreq_bounds p
  rw [kindFreq, BitVec.toNat_ofNat]
  omega

theorem kindFreq_rdiff_toNat (p q : Pixel) : ((kindFreq .rdiff p q).toNat : Int) = diffFreq (ryn p + ryn q) :=
  have ⟨h1, h2⟩ := pair_sum_bounds (p := p) (q := q) (.inl rfl)
  toNat_ofInt_diffFreq h1 h2

theorem kindFreq_bdiff_toNat (p q : Pixel) : ((kindFreq .bdiff p q).toNat : Int) = diffFreq (byn p + byn q) :=
  have ⟨h1, h2⟩ := pair_sum_bounds (p := p) (q := q) (.inr rfl)
  toNat_ofInt_diffFreq h1 h2

/-! ### Differences that cancel (R127) -/

theorem ryn_grey (v : Byte) : ryn ⟨v, v, v⟩ = 0 := by
  simp only [ryn_eq_components]
  omega

theorem byn_grey (v : Byte) : byn ⟨v, v, v⟩ = 0 := by
  simp only [byn_eq_components]
  omega

theorem kindFreq_rdiff_of_cancel {p q : Pixel} (h : ryn p + ryn q = 0) : kindFreq .rdiff p q = 1901#16 := by
  rw [kindFreq, h]
  rfl

theorem kindFreq_bdiff_of_cancel {p q : Pixel} (h : byn p + byn q = 0) : kindFreq .bdiff p q = 1901#16 := by
  rw [kindFreq, h]
  rfl

/-! ### Obligations -/

/-- Settles O8: the rational luminance is `Y1000 / 1000`, so one floor of the mapping is the integer division. -/
theorem luminanceIsExact : Obligations.LuminanceIsExact := fun p =>
  ⟨rfl, y1000_le p, y1000_eq_lumaQ p, lumFreq_eq_mapLuminance p, rfl⟩

/-- Settles O9: the rational differences are the integer ones over a million, and the mean of two rows is their sum over
two million. -/
theorem differenceIsExact : Obligations.DifferenceIsExact := by
  refine ⟨fun p => ?_, fun p q => ⟨diffFreq_ryn_eq_mapDifference p q, diffFreq_byn_eq_mapDifference p q⟩, fun _ => rfl⟩
  obtain ⟨hr1, hr2⟩ := ryn_bounds p
  obtain ⟨hb1, hb2⟩ := byn_bounds p
  exact ⟨ryn_eq_components p, byn_eq_components p, rfl, rfl, ryn_eq_redDiffQ p, byn_eq_blueDiffQ p, hr1, hr2, hb1, hb2⟩

/-- Settles O10: the ranges of one pixel bound the sum of a pair, and a frequency of 2301 is one of the step points. -/
theorem frequencyRanges : Obligations.FrequencyRanges := by
  refine ⟨fun p => ?_, fun p q s hs => ?_, fun p => ⟨diffFreq_ryn_eq_2301_iff p, diffFreq_byn_eq_2301_iff p⟩,
    fun p q => ⟨kindFreq_luma_toNat p q, kindFreq_rdiff_toNat p q, kindFreq_bdiff_toNat p q⟩⟩
  · have hy := y1000_le p
    have hb := byn_bounds p
    exact ⟨by omega, abs_le.mpr (ryn_bounds p), abs_le.mpr ⟨by omega, by omega⟩, lumFreq_bounds p⟩
  · obtain ⟨h1, h2⟩ := pair_sum_bounds hs
    obtain ⟨hf1, hf2⟩ := diffFreq_bounds h1 h2
    exact ⟨abs_le.mpr ⟨h1, h2⟩, by omega, by omega, Int.tdiv_eq_ediv_of_nonneg (by omega), hf1, hf2,
      diffFreq_eq_2301_iff h2⟩

/-- Settles O11: division by a positive number is monotone, and its step points are the multiples of the divisor. -/
theorem frequencyMapsAreMonotone : Obligations.FrequencyMapsAreMonotone :=
  ⟨fun _ _ => lumFreq_le_of_y1000_le, fun _ _ h => diffFreq_mono h, lumFreq_eq_iff, diffFreq_eq_iff,
    diffFreq_eq_1901_iff⟩

/-- Settles O12: the differences of a grey pixel are 0, and any sum of 0 gives 1901, also that of red over cyan. -/
theorem greyGives1901 : Obligations.GreyGives1901 := by
  refine ⟨fun v w => ?_, fun p q => ⟨kindFreq_rdiff_of_cancel, kindFreq_bdiff_of_cancel⟩,
    kindFreq_rdiff_of_cancel (by decide)⟩
  have hr : ryn ⟨v, v, v⟩ + ryn ⟨w, w, w⟩ = 0 := by rw [ryn_grey, ryn_grey, add_zero]
  have hb : byn ⟨v, v, v⟩ + byn ⟨w, w, w⟩ = 0 := by rw [byn_grey, byn_grey, add_zero]
  exact ⟨kindFreq_rdiff_of_cancel hr, kindFreq_bdiff_of_cancel hb, hr, hb⟩

/-- Settles O30: on a steady image the callback computes `imageFreq` and changes nothing, whatever the kind; the kind
says which function of the two pixels that is. -/
theorem callbackFrequencies : Obligations.CallbackFrequencies := by
  refine ⟨fun s hs hx ha hb => ?_, fun s h hf => h.armed_kind (Bool.and_eq_true_iff.mp hf).1⟩
  have run : ∀ k, s.segKind = k → k ≠ .none →
      callbackFreq s = .next (s.imageFreq k s.pixIdx.toNat s.rowA s.rowB, s) := by
    rintro k rfl hk
    exact callbackFreq_clean s hk hx ha hb hs.source hs.clean
  refine ⟨fun hk => ⟨_, run _ hk (by simp), ?_⟩, fun hk => ⟨_, run _ hk (by simp), ?_⟩,
    fun hk => ⟨_, run _ hk (by simp), ?_⟩⟩
  · have h := kindFreq_luma_toNat (s.pixel s.pixIdx.toNat s.rowA.toNat) (s.pixel s.pixIdx.toNat s.rowB.toNat)
    exact ⟨h, (congrArg Nat.cast h).trans (lumFreq_eq_mapLuminance _)⟩
  · exact ⟨kindFreq_rdiff_toNat _ _, (kindFreq_rdiff_toNat _ _).trans (diffFreq_ryn_eq_mapDifference _ _)⟩
  · exact ⟨kindFreq_bdiff_toNat _ _, (kindFreq_bdiff_toNat _ _).trans (diffFreq_byn_eq_mapDifference _ _)⟩

end Sys2Proof.Machine
end

section
/-! Runs of many steps, and runs in which only time passes (10_state R38, R46). -/

namespace Sys2Proof.Machine

/-! ### Runs -/

theorem runSteps_trans {m n : Nat} {s t u : State} (h₁ : runSteps m s = .next t) (h₂ : runSteps n t = .next u) :
    runSteps (m + n) s = .next u := by
  rw [runSteps_add, h₁, andThen_next, h₂]

theorem runSteps_one (s : State) : runSteps 1 s = step s := by
  rw [runSteps_succ]
  cases step s <;> rfl

theorem SeqInv.runSteps {n : Nat} {s t : State} (h : SeqInv s) (hr : Machine.runSteps n s = .next t) : SeqInv t := by
  induction n generalizing s with
  | zero => cases hr; exact h
  | succ n ih =>
    obtain ⟨u, hu, hr⟩ := andThen_eq_next.mp hr
    exact ih (h.step hu) hr

/-! ### Time passing -/

theorem hostQuiet_congr {s t : State} (h : t.dropNco = s.dropNco) (hq : HostQuiet s) : HostQuiet t :=
  ⟨(congrArg State.rst h).trans hq.rst, (congrArg State.hostq h).trans hq.hostq⟩

theorem zeroTimeEnabled_congr {s t : State} (h : t.dropNco = s.dropNco) : t.zeroTimeEnabled = s.zeroTimeEnabled :=
  (congrArg State.zeroTimeEnabled h :)

/-- `n` microseconds later, the synthesizer apart. -/
def State.ticked (s : State) (n : Nat) : State :=
  { s with
    time := s.time + n
    dly := if s.seqSt = .dlyw then s.dly - BitVec.ofNat 28 n else s.dly
    pixt := if s.armed then s.pixt - BitVec.ofNat 8 n else s.pixt }

theorem State.tick_ticked (s : State) (n : Nat) : (s.ticked n).tick = s.ticked (n + 1) := by
  have hd : s.dly - BitVec.ofNat 28 n - 1#28 = s.dly - BitVec.ofNat 28 (n + 1) := by bv_omega
  have hp : s.pixt - BitVec.ofNat 8 n - 1#8 = s.pixt - BitVec.ofNat 8 (n + 1) := by bv_omega
  by_cases hs : s.seqSt = .dlyw <;> by_cases ha : s.armed = true <;>
    simp [State.ticked, State.tick, hs, ha, hd, hp, Nat.add_assoc]

theorem dropNco_ticked (s : State) (n : Nat) : (s.ticked n).dropNco = s.dropNco.ticked n := rfl

theorem dropNco_iterate_passTime (n : Nat) (s : State) : (State.passTime^[n] s).dropNco = (s.ticked n).dropNco := by
  induction n with
  | zero => simp [State.ticked]
  | succ n ih =>
    have htick : ∀ u : State, u.tick.dropNco = u.dropNco.tick := fun _ => rfl
    rw [Function.iterate_succ_apply', dropNco_passTime, htick, ih, ← htick, State.tick_ticked]

/-- As long as no zero-time step is enabled, a run is time passing (R46). -/
theorem runSteps_of_quiet {n : Nat} {s : State} (hq : HostQuiet s)
    (hz : ∀ m < n, (s.ticked m).zeroTimeEnabled = false) : runSteps n s = .next (State.passTime^[n] s) := by
  induction n with
  | zero => rfl
  | succ n ih =>
    refine runSteps_trans (ih fun m hm => hz m (Nat.lt_succ_of_lt hm)) ?_
    have he := dropNco_iterate_passTime n s
    have hzn := (zeroTimeEnabled_congr he).trans (hz n (Nat.lt_succ_self n))
    rw [Function.iterate_succ_apply', runSteps_one]
    exact step_of_quiet (hostQuiet_congr he ⟨hq.rst, hq.hostq⟩) hzn

end Sys2Proof.Machine
end

section
/-! The issue of a scan operation, its busy-wait and its callbacks, and its run to the end (41_scan_ops R130 to
R149). -/

namespace Sys2Proof.Machine

/-! ### The issue (R131 to R134) and the end of the segment (R143) -/

/-- A scan operation that is well formed is issued, and any other is refused (R134, R149, assumption log 15). -/
theorem exec_of_scanOf {i : Instr} {k : SegKind} {a b : BitVec 12} (h : scanOf i = some (k, a, b)) (s : State) :
    exec i s = if i.wellFormed then .next (s.issueScan k a b) else .refused .rowOutOfRange := by
  cases i <;> cases h <;> rfl

theorem kind_ne_none_of_scanOf {i : Instr} {k : SegKind} {a b : BitVec 12} (h : scanOf i = some (k, a, b)) :
    k ≠ .none := by
  cases i <;> cases h <;> decide

/-- A scan operation is legal if both its rows are; the row 0 that `SCANY` writes to `ROW_B` is (R85, R131). -/
theorem wellFormed_iff_of_scanOf {i : Instr} {k : SegKind} {a b : BitVec 12} (h : scanOf i = some (k, a, b)) :
    i.wellFormed = true ↔ a.toNat < 496 ∧ b.toNat < 496 := by
  cases i <;> cases h <;> simp [Instr.wellFormed, rowOk_iff]

/-- The issue of a scan operation (R134). -/
theorem exec_issues {i : Instr} {k : SegKind} {a b : BitVec 12} (h : scanOf i = some (k, a, b)) (s : State)
    (ha : a.toNat < 496) (hb : b.toNat < 496) : exec i s = .next (s.issueScan k a b) := by
  rw [exec_of_scanOf h, if_pos ((wellFormed_iff_of_scanOf h).mpr ⟨ha, hb⟩)]

/-- A row outside the image (R149, assumption log 15). -/
theorem exec_refuses {i : Instr} {k : SegKind} {a b : BitVec 12} (h : scanOf i = some (k, a, b)) (s : State)
    (hr : 496 ≤ a.toNat ∨ 496 ≤ b.toNat) : exec i s = .refused .rowOutOfRange := by
  rw [exec_of_scanOf h, if_neg]
  rw [wellFormed_iff_of_scanOf h]
  omega

/-- SEGW with the flag set: the step is `SegEnd`, the sequencer going on behind the scan operation (R143). -/
theorem step_of_segw_done {s : State} (hq : HostQuiet s) (hs : s.seqSt = .segw) (hd : s.done = true)
    (ha : s.armed = false) (hpc : s.seqPc ≠ 2047#11) :
    step s = .next { s with seqSt := .rdy, seqPc := s.seqPc + 1#11 } := by
  rw [step_of_no_move s hq.hostq, ownStep_of_segw_done s hq.rst hs hd ha, State.segEnd,
    State.advancePc_of_ne (s.goto .rdy) hpc]
  rfl

/-! ### The callback (R136) -/

theorem pixIdx_add_one_eq_640_iff {x : BitVec 10} : x + 1#10 = 640#10 ↔ x.toNat + 1 = 640 := by
  bv_omega

/-- With a pending fire and no pending move, the step is the callback (R38). -/
theorem step_of_fire {s : State} (hq : HostQuiet s) (ha : s.armed = true) (hp : s.pixt = 0#8) : step s = fire s := by
  rw [step_of_no_move s hq.hostq, ownStep_of_fire s hq.rst ha hp]

/-- How many of the reads at a list of coordinates are of marked pixels, and so draw a free value (assumption log 4). -/
def State.draws (s : State) (cs : List (Nat × Nat)) : Nat :=
  cs.countP fun c => decide (pixNum c.1 c.2 ∈ s.pixDirty)

/-- The draws of the reads of a callback (R67). -/
def State.columnDraws (s : State) : Nat := s.draws (readCoords s.segKind s.pixIdx.toNat s.rowA s.rowB)

/-- The callback of a column that took `f`, with the draws of its reads (R136). -/
def State.fired (s : State) (f : BitVec 16) : State :=
  ({ s with freeCtr := s.freeCtr + s.columnDraws }.setTone f).bumpIndex

theorem dropNco_fired (s : State) (f : BitVec 16) : (s.fired f).dropNco = s.dropNco.fired f := dropNco_bumpIndex _

theorem State.fired_last (s : State) (f : BitVec 16) (h : s.pixIdx.toNat + 1 = 640) :
    s.fired f = { s with
      toneEn := true, toneFreq := f, trace := s.trace ++ [.setFreq s.time f], freeCtr := s.freeCtr + s.columnDraws
      pixIdx := 640#10, armed := false, done := true } :=
  State.bumpIndex_last _ (pixIdx_add_one_eq_640_iff.mpr h)

theorem State.fired_more (s : State) (f : BitVec 16) (h : s.pixIdx.toNat + 1 ≠ 640) :
    s.fired f = { s with
      toneEn := true, toneFreq := f, trace := s.trace ++ [.setFreq s.time f], freeCtr := s.freeCtr + s.columnDraws
      pixIdx := s.pixIdx + 1#10, pixt := 190#8 } :=
  State.bumpIndex_more _ (mt pixIdx_add_one_eq_640_iff.mp h)

/-- An image without marks draws nothing. -/
theorem State.draws_of_clean {s : State} (h : s.pixDirty = []) (cs : List (Nat × Nat)) : s.draws cs = 0 := by
  simp [State.draws, h]

/-- The frequency of the column a callback is for (R128). -/
def State.columnFreq (s : State) : BitVec 16 := s.imageFreq s.segKind s.pixIdx.toNat s.rowA s.rowB

/-- A callback under the invariants; on an image without marks the frequency is that of the column (R128, R136). -/
theorem fire_eq_fired {s : State} (h : SeqInv s) (ha : s.armed = true) (hs : s.sourceOk = true) :
    ∃ f, fire s = .next (s.fired f) ∧ (s.pixDirty = [] → f = s.columnFreq) := by
  obtain ⟨-, -, hx, -⟩ := h.armed_wait ha
  obtain ⟨hA, hB⟩ := h.rows
  have hk := h.armed_kind ha
  obtain ⟨t, ht⟩ := fire_completes s hk hx hA hB hs
  obtain ⟨⟨f, u⟩, hf, -⟩ := andThen_eq_next.mp ht
  obtain ⟨-, -, -, n, rfl⟩ := callbackFreq_next hf
  obtain ⟨-, hdraws, -⟩ := pixelReadCounts
  refine ⟨f, ?_, fun hd => ?_⟩
  · rw [State.fired, State.columnDraws, State.draws, ← hdraws s _ f hf, fire, hf]
    rfl
  · have := hf.symm.trans (callbackFreq_clean s hk hx hA hB hs hd)
    simp_all [State.columnFreq]

/-! ### What a callback will do does not change while time passes, and does not rest on the synthesizer -/

theorem columnFreq_congr {s t : State} (h : t.dropNco = s.dropNco) : t.columnFreq = s.columnFreq :=
  (congrArg State.columnFreq h :)

theorem sourceOk_congr {s t : State} (h : t.dropNco = s.dropNco) : t.sourceOk = s.sourceOk :=
  (congrArg State.sourceOk h :)

theorem State.columnFreq_ticked (s : State) (n : Nat) : (s.ticked n).columnFreq = s.columnFreq := rfl

theorem State.columnDraws_ticked (s : State) (n : Nat) : (s.ticked n).columnDraws = s.columnDraws := rfl

theorem State.sourceOk_ticked (s : State) (n : Nat) : (s.ticked n).sourceOk = s.sourceOk := rfl

/-! ### One pixel, and the pixels of a segment (R135, R141) -/

/-- While the timer counts down in SEGW no zero-time step is enabled (R46). -/
theorem quiet_of_pixt {s : State} (h : SeqInv s) (ha : s.armed = true) {m : Nat} (hm : m < s.pixt.toNat) :
    (s.ticked m).zeroTimeEnabled = false := by
  obtain ⟨hseg, hdone, -, -⟩ := h.armed_wait ha
  have hne : s.pixt - BitVec.ofNat 8 m ≠ 0#8 := by bv_omega
  rw [zeroTimeEnabled_eq_false_iff]
  simp [State.ticked, hseg, hdone, ha, hne]

/-- The timer runs out and the callback follows (R135, R136). -/
theorem runSteps_pixel {s : State} (h : SeqInv s) (hq : HostQuiet s) (ha : s.armed = true) (hs : s.sourceOk = true) :
    ∃ f t, runSteps (s.pixt.toNat + 1) s = .next t ∧ t.dropNco = ((s.ticked s.pixt.toNat).fired f).dropNco ∧
      (s.pixDirty = [] → f = s.columnFreq) := by
  have hrun := runSteps_of_quiet hq fun m hm => quiet_of_pixt h ha hm
  have hu := dropNco_iterate_passTime s.pixt.toNat s
  generalize State.passTime^[s.pixt.toNat] s = u at hrun hu
  have hau : u.armed = true := (congrArg State.armed hu).trans ha
  have hpu : u.pixt = 0#8 := (congrArg State.pixt hu).trans (by simp [State.ticked, ha])
  have hqu := hostQuiet_congr hu ⟨hq.rst, hq.hostq⟩
  obtain ⟨f, hf, himg⟩ := fire_eq_fired (h.runSteps hrun) hau (by rw [sourceOk_congr hu, State.sourceOk_ticked, hs])
  refine ⟨f, u.fired f, runSteps_trans hrun ?_, ?_, fun hd => ?_⟩
  · rw [runSteps_one, step_of_fire hqu hau hpu, hf]
  · rw [dropNco_fired, hu, ← dropNco_fired]
  · rw [himg ((congrArg State.pixDirty hu).trans hd), columnFreq_congr hu, State.columnFreq_ticked]

/-- A scan operation after the callbacks whose frequencies are `fs`, one for each column so far (R135, R136, R141). -/
def State.inScan (s : State) (k : SegKind) (a b : BitVec 12) (fs : List (BitVec 16)) : State :=
  { s with
    seqSt := .segw
    segKind := k
    rowA := a
    rowB := b
    pixIdx := BitVec.ofNat 10 fs.length
    done := decide (fs.length = 640)
    armed := !decide (fs.length = 640)
    pixt := if fs.length = 640 then 0#8 else 190#8
    toneEn := s.toneEn || !fs.isEmpty
    toneFreq := fs.getLastD s.toneFreq
    time := s.time + 190 * fs.length
    trace := s.trace ++ fs.mapIdx fun j f => .setFreq (s.time + 190 * (j + 1)) f
    freeCtr := s.freeCtr + s.draws ((List.range fs.length).flatMap fun x => readCoords k x a b) }

theorem State.inScan_nil (s : State) (k : SegKind) (a b : BitVec 12) : s.inScan k a b [] = s.issueScan k a b := by
  simp [State.inScan, State.draws, State.issueScan, State.setSegment, State.clearDone, State.arm, State.goto,
    Config.pixDur]

theorem State.sourceOk_inScan (s : State) (k : SegKind) (a b : BitVec 12) (fs : List (BitVec 16)) :
    (s.inScan k a b fs).sourceOk = s.sourceOk := rfl

/-- The draws of one column more. -/
theorem State.draws_columns_succ (s : State) (k : SegKind) (a b : BitVec 12) (n : Nat) :
    s.draws ((List.range (n + 1)).flatMap fun x => readCoords k x a b) =
      s.draws ((List.range n).flatMap fun x => readCoords k x a b) + s.draws (readCoords k n a b) := by
  simp [State.draws, List.range_succ]

section

variable (s : State) (k : SegKind) (a b : BitVec 12) {fs : List (BitVec 16)}

theorem State.pixIdx_inScan_toNat (h : fs.length ≤ 640) : (s.inScan k a b fs).pixIdx.toNat = fs.length := by
  rw [State.inScan, BitVec.toNat_ofNat]
  omega

theorem State.columnFreq_inScan (h : fs.length ≤ 640) :
    (s.inScan k a b fs).columnFreq = s.imageFreq k fs.length a b := by
  rw [State.columnFreq, s.pixIdx_inScan_toNat k a b h]
  rfl

theorem State.columnDraws_inScan (h : fs.length ≤ 640) :
    (s.inScan k a b fs).columnDraws = s.draws (readCoords k fs.length a b) := by
  rw [State.columnDraws, s.pixIdx_inScan_toNat k a b h]
  rfl

/-- One column more. -/
theorem State.fired_ticked_inScan (h : fs.length < 640) (f : BitVec 16) :
    ((s.inScan k a b fs).ticked 190).fired f = s.inScan k a b (fs ++ [f]) := by
  have hx : ((s.inScan k a b fs).ticked 190).pixIdx.toNat = fs.length := s.pixIdx_inScan_toNat k a b h.le
  have hsucc : BitVec.ofNat 10 fs.length + 1#10 = BitVec.ofNat 10 (fs.length + 1) := by bv_omega
  by_cases hl : fs.length + 1 = 640
  · rw [State.fired_last _ f (hx ▸ hl), State.columnDraws_ticked, State.columnDraws_inScan s k a b h.le]
    have hd := s.draws_columns_succ k a b fs.length
    rw [hl] at hd
    simp [State.inScan, State.ticked, hd, Nat.add_assoc, h.ne, hl]
    omega
  · rw [State.fired_more _ f (hx ▸ hl), State.columnDraws_ticked, State.columnDraws_inScan s k a b h.le]
    simp [State.inScan, State.ticked, State.draws_columns_succ, hsucc, Nat.add_assoc, h.ne, hl]
    omega

end

/-- From the issue of a scan operation, `n` columns at 190 ticks and a callback each. -/
theorem runSteps_columns {s : State} {k : SegKind} {a b : BitVec 12} (h : SeqInv (s.issueScan k a b)) (hq : HostQuiet s)
    (hs : s.sourceOk = true) (n : Nat) (hn : n ≤ 640) :
    ∃ fs t, fs.length = n ∧ runSteps (191 * n) (s.issueScan k a b) = .next t ∧
      t.dropNco = (s.inScan k a b fs).dropNco ∧
      (s.pixDirty = [] → fs = (List.range n).map fun j => s.imageFreq k j a b) := by
  induction n with
  | zero => exact ⟨[], _, rfl, rfl, by rw [State.inScan_nil], fun _ => rfl⟩
  | succ n ih =>
    obtain ⟨fs, t, rfl, hrun, ht, himg⟩ := ih (Nat.le_of_succ_le hn)
    have hne : fs.length ≠ 640 := by omega
    have hat : t.armed = true := (congrArg State.armed ht).trans (by simp [State.inScan, hne])
    have hpt : t.pixt = 190#8 := (congrArg State.pixt ht).trans (by simp [State.inScan, hne])
    have hst : t.sourceOk = true := by rw [sourceOk_congr ht, State.sourceOk_inScan, hs]
    obtain ⟨f, u, hpix, hu, hf⟩ :=
      runSteps_pixel (h.runSteps hrun) (hostQuiet_congr ht ⟨hq.rst, hq.hostq⟩) hat hst
    rw [hpt] at hpix hu
    refine ⟨fs ++ [f], u, by simp, runSteps_trans hrun hpix, ?_, fun hd => ?_⟩
    · calc u.dropNco = ((t.ticked 190).fired f).dropNco := hu
        _ = (((s.inScan k a b fs).ticked 190).fired f).dropNco := by
          rw [dropNco_fired, dropNco_ticked, ht, ← dropNco_ticked, ← dropNco_fired]
        _ = (s.inScan k a b (fs ++ [f])).dropNco := by rw [State.fired_ticked_inScan s k a b hn f]
    · rw [hf ((congrArg State.pixDirty ht).trans hd), columnFreq_congr ht,
        State.columnFreq_inScan s k a b (Nat.le_of_succ_le hn), List.range_succ, List.map_append, ← himg hd]
      rfl

/-- The state behind a scan operation whose columns took the frequencies `fs` (R144). -/
def State.behindScan (s : State) (i : Instr) (k : SegKind) (a b : BitVec 12) (fs : List (BitVec 16)) : State :=
  { s with
    seqPc := s.seqPc + 1#11
    segKind := k
    rowA := a
    rowB := b
    pixIdx := 640#10
    done := true
    armed := false
    pixt := 0#8
    toneEn := true
    toneFreq := fs.getLastD s.toneFreq
    time := s.time + 121600
    trace := s.trace ++ fs.mapIdx fun j f => .setFreq (s.time + 190 * (j + 1)) f
    freeCtr := s.freeCtr + s.draws (opReads i) }

/-- `SegEnd` after the last column. -/
theorem State.segEnd_inScan {s : State} {i : Instr} {k : SegKind} {a b : BitVec 12} (hi : scanOf i = some (k, a, b))
    (hs : s.seqSt = .rdy) {fs : List (BitVec 16)} (hl : fs.length = 640) :
    { s.inScan k a b fs with seqSt := .rdy, seqPc := s.seqPc + 1#11 } = s.behindScan i k a b fs := by
  have hne : fs ≠ [] := List.ne_nil_of_length_pos (by omega)
  rw [State.behindScan, opReads_of_scanOf hi, Config.width, hs]
  simp [State.inScan, hl, hne]

/-- A scan operation from its issue to behind its end (R144): the issue, 640 columns and `SegEnd`. -/
theorem runSteps_scan {s : State} {i : Instr} {k : SegKind} {a b : BitVec 12} (hi : scanOf i = some (k, a, b))
    (h : SeqInv s) (hq : HostQuiet s) (hs : s.sourceOk = true) (hat : AtInstr s i) (hpc : s.seqPc ≠ 2047#11) :
    ∃ fs t, runSteps 122242 s = .next t ∧ t.dropNco = (s.behindScan i k a b fs).dropNco ∧
      (s.pixDirty = [] → fs = (List.range 640).map fun j => s.imageFreq k j a b) := by
  have hexec : exec i s = .next (s.issueScan k a b) := by
    rw [exec_of_scanOf hi, if_pos (wellFormed_of_decode hat.fetched)]
  have hissue : runSteps 1 s = .next (s.issueScan k a b) := by
    rw [runSteps_one, step_of_no_move s hq.hostq, ownStep_of_rdy s hq.rst hat.rdy hat.unarmed,
      fetchExec_of_decode hat.fetched, hexec]
  obtain ⟨fs, t, hl, hrun, ht, himg⟩ := runSteps_columns (h.exec hat.rdy hexec) hq hs 640 le_rfl
  have hqt := hostQuiet_congr ht ⟨hq.rst, hq.hostq⟩
  have hdt : t.done = true := (congrArg State.done ht).trans (by simp [State.inScan, hl])
  have hut : t.armed = false := (congrArg State.armed ht).trans (by simp [State.inScan, hl])
  have hend := step_of_segw_done hqt (congrArg State.seqSt ht) hdt hut ((congrArg State.seqPc ht).trans_ne hpc)
  refine ⟨fs, _, runSteps_trans (runSteps_trans hissue hrun) ((runSteps_one t).trans hend), ?_, himg⟩
  rw [← State.segEnd_inScan hi hat.rdy hl]
  obtain ⟨ph, fr, rfl⟩ := (dropNco_eq_iff _ _).mp ht.symm
  rfl

theorem mapIdx_map_range {α β : Type} (g : Nat → α) (f : Nat → α → β) (n : Nat) :
    ((List.range n).map g).mapIdx f = (List.range n).map fun j => f j (g j) := by
  apply List.ext_getElem <;> simp

theorem getLastD_map_range_succ {α : Type} (g : Nat → α) (n : Nat) (d : α) :
    ((List.range (n + 1)).map g).getLastD d = g n := by
  simp [List.range_succ]

/-! ### Obligations -/

/-- Settles O17: the issue of each of the three operations as one update of the state. -/
theorem scanIssueArmsTimer : Obligations.ScanIssueArmsTimer := by
  refine ⟨fun a s ha => exec_issues rfl s ha (by decide), fun _ _ s => exec_issues rfl s,
    fun _ _ s => exec_issues rfl s, fun i k a b hi => ?_⟩
  cases i <;> cases hi <;> simp [opcOf, kindCode]

/-- Settles O18: such an operation is not well formed. -/
theorem scanRefusesRowOutOfRange : Obligations.ScanRefusesRowOutOfRange :=
  ⟨fun _ s ha => exec_refuses rfl s (.inl ha), fun _ _ s hr => ⟨exec_refuses rfl s hr, exec_refuses rfl s hr⟩⟩

/-- Settles O22: an issue that goes on is `issueScan`, whatever the operation. -/
theorem scanIssueFrame : Obligations.ScanIssueFrame := by
  intro i k a b s t hi ht
  rw [exec_of_scanOf hi] at ht
  split at ht
  · cases ht
    simp [State.pixByte, State.promByte]
  · cases ht

/-- Settles O27: in SEGW only `SegEnd` can be enabled for the sequencer, and it is exactly if the flag is set. -/
theorem segmentEndsAtDone : Obligations.SegmentEndsAtDone := by
  refine ⟨fun s hs hd => ?_, fun s hq hs hd ha hpc => step_of_segw_done hq hs hd ha hpc⟩
  simp [State.execEnabled, State.waitEndEnabled, State.segEndEnabled, hs, hd]

/-- Settles O23: a callback that goes on drives the tone and moves the index, at the last column or before it. -/
theorem callbackFrame : Obligations.CallbackFrame := by
  intro s t h
  obtain ⟨-, -, p, q, n, rfl⟩ := fire_next h
  by_cases hl : s.pixIdx + 1#10 = 640#10
  · rw [State.bumpIndex_last _ (by exact hl)]
    simp [State.pixByte, State.promByte, hl]
  · rw [State.bumpIndex_more _ (by exact hl)]
    simp [State.pixByte, State.promByte, hl]

/-- Settles O29: the step is the callback, which on a steady image takes the frequency of its column and draws
nothing. -/
theorem fireDrivesTone : Obligations.FireDrivesTone := by
  intro s hq hi h ha hp
  obtain ⟨f, hf, himg⟩ := fire_eq_fired h ha hi.source
  obtain rfl := himg hi.clean
  have hd : s.columnDraws = 0 := State.draws_of_clean hi.clean _
  rw [step_of_fire hq ha hp, hf]
  split
  next hl => rw [State.fired_last s _ hl, hd]; rfl
  next hl => rw [State.fired_more s _ hl, hd]; rfl

/-- Settles O52, from the run of a scan operation: its frequencies are those of the image where no pixel is marked. -/
theorem scanRunsToCompletion : Obligations.ScanRunsToCompletion := by
  refine ⟨fun s i k a b hq himg h hat hi hpc => ?_, fun s i hq hs h hat hi hpc => ?_⟩
  · have hk := kind_ne_none_of_scanOf hi
    obtain ⟨fs, t, hrun, ht, hfs⟩ := runSteps_scan hi h hq himg.source hat hpc
    refine ⟨?_, t, hrun, ?_⟩
    · rw [length_opReads hi, if_neg hk]
      split <;> rfl
    · have hdly : s.dly = 0#28 := h.dly_zero (by simp [hat.rdy])
      rw [ht, State.behindScan, hfs himg.clean, mapIdx_map_range, getLastD_map_range_succ _ 639,
        State.draws_of_clean himg.clean, Nat.add_zero, ← hdly]
      rfl
  · obtain ⟨⟨k, a, b⟩, hi⟩ := Option.ne_none_iff_exists'.mp hi
    obtain ⟨fs, t, hrun, ht, -⟩ := runSteps_scan hi h hq hs hat hpc
    exact ⟨t, hrun, congrArg State.pixIdx ht, congrArg State.done ht, congrArg State.seqPc ht, congrArg State.time ht,
      congrArg State.freeCtr ht⟩

end Sys2Proof.Machine
end

section
/-! The operations on the tone and the delay: `SETF`, `WAIT`, `STOP` and `END` (42_tone_and_delay_ops R160 to R166). -/

namespace Sys2Proof.Machine

/-! ### What each of them answers -/

/-- `SETF hz` (R161). -/
theorem exec_setf {s : State} (hz : BitVec 16) (hpc : s.seqPc ≠ 2047#11) : exec (.setf hz) s = .next { s with
    toneEn := true, toneFreq := hz, trace := s.trace ++ [.setFreq s.time hz], seqPc := s.seqPc + 1#11 } :=
  congrArg Host.Outcome.next (State.advancePc_of_ne (s.setTone hz) hpc)

/-- `STOP` (R163, R223). -/
theorem exec_stop {s : State} (hpc : s.seqPc ≠ 2047#11) : exec .stop s = .next { s with
    toneEn := false, toneFreq := 0#16, ncoPhase := 0#32, trace := s.trace ++ [.stop s.time]
    seqPc := s.seqPc + 1#11 } :=
  congrArg Host.Outcome.next (State.advancePc_of_ne s.stopTone hpc)

/-- The issue of `WAIT us` (R162). -/
theorem exec_wait (us : BitVec 28) (s : State) : exec (.wait us) s = .next { s with dly := us, seqSt := .dlyw } := rfl

/-- `END` (R164). -/
theorem exec_end (s : State) : exec .end_ s = .next { s with seqSt := .idle } := rfl

/-- No operation changes a byte of the image or of the program ROM (R78). -/
theorem exec_keeps_bytes {i : Instr} {s t : State} (h : exec i s = .next t) :
    (∀ k, t.pixByte k = s.pixByte k) ∧ ∀ k, t.promByte k = s.promByte k := by
  obtain ⟨hpix, hprom, -⟩ := exec_sameMemories h
  simp [State.pixByte, State.promByte, hpix, hprom]

/-! ### The steps of a wait (R38, R46, R162) -/

/-- Undisturbed and about to execute `i`, the machine's step is `i` (R38). -/
theorem step_of_atInstr {s : State} {i : Instr} (hq : HostQuiet s) (hat : AtInstr s i) : step s = exec i s := by
  rw [step_of_no_move s hq.hostq, ownStep_of_rdy s hq.rst hat.rdy hat.unarmed, fetchExec_of_decode hat.fetched]

/-- DLYW at `DLY` = 0: the step is `WaitEnd`, the sequencer going on behind the wait (R162). -/
theorem step_of_dlyw_zero {s : State} (hq : HostQuiet s) (hs : s.seqSt = .dlyw) (hd : s.dly = 0#28)
    (ha : s.armed = false) (hpc : s.seqPc ≠ 2047#11) :
    step s = .next { s with seqSt := .rdy, seqPc := s.seqPc + 1#11 } := by
  rw [step_of_no_move s hq.hostq, ownStep_of_dlyw_zero s hq.rst hs hd ha, State.waitEnd,
    State.advancePc_of_ne (s.goto .rdy) hpc]
  rfl

/-- While `DLY` counts down in DLYW no zero-time step is enabled (R46). -/
theorem quiet_of_dly {s : State} (hs : s.seqSt = .dlyw) (ha : s.armed = false) {m : Nat} (hm : m < s.dly.toNat) :
    (s.ticked m).zeroTimeEnabled = false := by
  have hne : s.dly - BitVec.ofNat 28 m ≠ 0#28 := by bv_omega
  rw [zeroTimeEnabled_eq_false_iff]
  simp [State.ticked, hs, ha, hne]

/-- In DLYW, `DLY` microseconds later `DLY` is 0 and only the time has moved on (R46, R162). -/
theorem State.ticked_dly {s : State} (hs : s.seqSt = .dlyw) (ha : s.armed = false) :
    s.ticked s.dly.toNat = { s with time := s.time + s.dly.toNat, dly := 0#28 } := by
  simp [State.ticked, hs, ha]

/-- From DLYW, `DLY` ticks and `WaitEnd` (R162). -/
theorem runSteps_dlyw {s : State} (hq : HostQuiet s) (hs : s.seqSt = .dlyw) (ha : s.armed = false)
    (hpc : s.seqPc ≠ 2047#11) : ∃ t, runSteps (s.dly.toNat + 1) s = .next t ∧ t.dropNco = ({ s with
      seqSt := .rdy, seqPc := s.seqPc + 1#11, dly := 0#28, time := s.time + s.dly.toNat } : State).dropNco := by
  have hrun := runSteps_of_quiet hq fun m hm => quiet_of_dly hs ha hm
  have hu := dropNco_iterate_passTime s.dly.toNat s
  rw [State.ticked_dly hs ha] at hu
  obtain ⟨ph, fr, hu⟩ := (dropNco_eq_iff _ _).mp hu.symm
  rw [hu] at hrun
  have hend := step_of_dlyw_zero (s := { s with
    time := s.time + s.dly.toNat, dly := 0#28, ncoPhase := ph, ncoFrac := fr }) ⟨hq.rst, hq.hostq⟩ hs rfl ha hpc
  exact ⟨_, runSteps_trans hrun ((runSteps_one _).trans hend), rfl⟩

/-- `WAIT us` from its issue to behind its end (R162): the issue, `us` ticks and `WaitEnd`. -/
theorem runSteps_wait {s : State} {us : BitVec 28} (hq : HostQuiet s) (hat : AtInstr s (.wait us))
    (hpc : s.seqPc ≠ 2047#11) : ∃ t, runSteps (us.toNat + 2) s = .next t ∧ t.dropNco = ({ s with
      seqPc := s.seqPc + 1#11, dly := 0#28, time := s.time + us.toNat } : State).dropNco := by
  obtain ⟨t, hrun, ht⟩ :=
    runSteps_dlyw (s := { s with dly := us, seqSt := .dlyw }) ⟨hq.rst, hq.hostq⟩ rfl hat.unarmed hpc
  refine ⟨t, ?_, ?_⟩
  · rw [runSteps_succ, step_of_atInstr hq hat, exec_wait, andThen_next, hrun]
  · rw [ht, ← hat.rdy]

/-- The pulse `TONE hz, us` (R92, R166): `SETF hz` and then the wait. -/
theorem runSteps_pulse {s : State} {hz : BitVec 16} {us : BitVec 28} (hq : HostQuiet s) (hat : AtInstr s (.setf hz))
    (hpc : s.seqPc.toNat < 2046) (hw : decode (s.promWord (s.seqPc.toNat + 1)) = .ok (.wait us)) :
    ∃ t, runSteps (us.toNat + 3) s = .next t ∧ t.dropNco = ({ s with
      seqPc := s.seqPc + 2#11, dly := 0#28, time := s.time + us.toNat, toneEn := true, toneFreq := hz
      trace := s.trace ++ [.setFreq s.time hz] } : State).dropNco := by
  have hnext : (s.seqPc + 1#11).toNat = s.seqPc.toNat + 1 := by bv_omega
  have htwo : s.seqPc + 1#11 + 1#11 = s.seqPc + 2#11 := by bv_omega
  have hpc₀ : s.seqPc ≠ 2047#11 := by bv_omega
  have hpc₁ : s.seqPc + 1#11 ≠ 2047#11 := by bv_omega
  have hsetf := (step_of_atInstr hq hat).trans (exec_setf hz hpc₀)
  obtain ⟨t, hrun, ht⟩ := runSteps_wait (us := us) (s := { s with
      toneEn := true, toneFreq := hz, trace := s.trace ++ [.setFreq s.time hz], seqPc := s.seqPc + 1#11 })
    ⟨hq.rst, hq.hostq⟩ ⟨hat.rdy, hat.unarmed, (congrArg (fun a => decode (s.promWord a)) hnext).trans hw⟩ hpc₁
  refine ⟨t, ?_, ?_⟩
  · rw [runSteps_succ, hsetf, andThen_next, hrun]
  · rw [ht, ← htwo]

/-! ### Obligations -/

/-- Settles O50, from the run of a wait: its issue, a tick for each microsecond and its end. -/
theorem waitLastsExactly : Obligations.WaitLastsExactly := fun _ us hq hat hpc =>
  ⟨encode_wait_toNat us, runSteps_wait hq hat hpc⟩

/-- Settles O51, from the run of a wait behind the step that sounds the tone. -/
theorem pulseRuns : Obligations.PulseRuns := fun _ _ _ hq hat hpc hw => runSteps_pulse hq hat hpc hw

/-- Settles O13: the word as a number, and the operation as one update of the state. -/
theorem setfSoundsTone : Obligations.SetfSoundsTone := fun hz _ hpc => ⟨encode_setf_toNat hz, exec_setf hz hpc⟩

/-- Settles O14: the word as a number, and the operation as one update of the state. -/
theorem stopSilencesTone : Obligations.StopSilencesTone := fun _ hpc => ⟨encode_stop_toNat, exec_stop hpc⟩

/-- Settles O15: IDLE is none of the states in which a step of the sequencer is enabled. -/
theorem endReturnsToIdle : Obligations.EndReturnsToIdle := by
  refine ⟨encode_end_toNat, fun s => ⟨exec_end s, rfl, rfl, rfl, rfl, fun ha hr => ?_⟩⟩
  refine (choose_eq_tick_iff (s := { s with seqSt := .idle }) hr).mpr (zeroTimeEnabled_eq_false_iff.mpr ?_)
  simp [ha]

/-- Settles O16: the issue of a wait as one update of the state. -/
theorem waitLoadsDelay : Obligations.WaitLoadsDelay := exec_wait

/-- Settles O20: each of the two changes the tone registers and the trace and then advances `SEQ_PC`. -/
theorem toneOpsFrame : Obligations.ToneOpsFrame := by
  intro i s t hi ht
  have hb := exec_keeps_bytes ht
  obtain ⟨hz, rfl⟩ | rfl := hi
  · obtain rfl : (s.setTone hz).advancePc = t := Host.Outcome.next.inj ht
    simp [hb]
  · obtain rfl : s.stopTone.advancePc = t := Host.Outcome.next.inj ht
    simp [hb]

/-- Settles O21: each of the two is one update of the state, of `SEQ_ST` and for `WAIT` of `DLY`. -/
theorem waitEndFrame : Obligations.WaitEndFrame := by
  intro i s t hi ht
  have hb := exec_keeps_bytes ht
  obtain ⟨us, rfl⟩ | rfl := hi
  · obtain rfl := Host.Outcome.next.inj ((exec_wait us s).symm.trans ht)
    simp [hb]
  · obtain rfl := Host.Outcome.next.inj ((exec_end s).symm.trans ht)
    simp [hb]

end Sys2Proof.Machine
end

section
/-! Timed pulses one after the other, and the calibration header (43_calibration_header R180 to R189). -/

namespace Sys2Proof.Machine

/-! ### Runs of pulses -/

/-- Behind the pulse `TONE hz, us` (R92, R166). -/
def State.pulsed (s : State) (p : BitVec 16 × BitVec 28) : State :=
  { s with
    seqPc := s.seqPc + 2#11, dly := 0#28, time := s.time + p.2.toNat, toneEn := true, toneFreq := p.1
    trace := s.trace ++ [.setFreq s.time p.1] }

theorem dropNco_foldl_pulsed (ps : List (BitVec 16 × BitVec 28)) (s : State) :
    (ps.foldl State.pulsed s).dropNco = ps.foldl State.pulsed s.dropNco :=
  (List.foldl_hom State.dropNco fun _ _ => rfl).symm

/-- With the fixed ROM, the word at any address is the operation R202 lists there. -/
theorem decode_promWord_fixed (s : State) (a : Nat) (h : s.prom = []) : decode (s.promWord a) = .ok (romInstr a) := by
  rw [promWord_fixed s a h]
  exact decode_encode (romInstr_wellFormed a)

/-- Pulses that stand in the fixed ROM from `SEQ_PC` on run one after the other: each is its `SETF`, the issue of its
`WAIT`, a tick for each microsecond and `WaitEnd` (R166). -/
theorem runSteps_pulses {ps : List (BitVec 16 × BitVec 28)} {s : State} (hq : HostQuiet s) (hs : s.seqSt = .rdy)
    (ha : s.armed = false) (hp : s.prom = []) (hpc : s.seqPc.toNat + 2 * ps.length < 2048)
    (hrom : (List.range' s.seqPc.toNat (2 * ps.length)).map romInstr = ps.flatMap fun p => tone p.1 p.2) :
    ∃ t, runSteps (ps.map fun p => p.2.toNat + 3).sum s = .next t ∧ t.dropNco = (ps.foldl State.pulsed s).dropNco := by
  induction ps generalizing s with
  | nil => exact ⟨s, rfl, rfl⟩
  | cons p ps ih =>
    rw [List.length_cons] at hpc
    have hnext : (s.seqPc + 2#11).toNat = s.seqPc.toNat + 2 := by bv_omega
    obtain ⟨hsetf, hwait, hrest⟩ : romInstr s.seqPc.toNat = .setf p.1 ∧ romInstr (s.seqPc.toNat + 1) = .wait p.2 ∧
        (List.range' (s.seqPc.toNat + 2) (2 * ps.length)).map romInstr = ps.flatMap fun p => tone p.1 p.2 := by
      simpa [Nat.mul_succ, List.range'_succ, tone] using hrom
    obtain ⟨u, hfirst, hu⟩ := runSteps_pulse hq ⟨hs, ha, hsetf ▸ decode_fetch_fixed s hp⟩ (by omega)
      (hwait ▸ decode_promWord_fixed s _ hp)
    obtain ⟨ph, fr, rfl⟩ := (dropNco_eq_iff (s.pulsed p) u).mp hu.symm
    obtain ⟨t, hlater, ht⟩ := ih (s := { s.pulsed p with ncoPhase := ph, ncoFrac := fr }) ⟨hq.rst, hq.hostq⟩ hs ha hp
      (hnext ▸ by omega) (hnext ▸ hrest)
    refine ⟨t, runSteps_trans hfirst hlater, ?_⟩
    rw [ht, List.foldl_cons, dropNco_foldl_pulsed, dropNco_foldl_pulsed]
    rfl

/-! ### The header -/

/-- The 13 pulses of the header (R187). -/
theorem headerPulses_vis : headerPulses Config.vis =
    [(1900#16, 300000#28), (1200#16, 10000#28), (1900#16, 300000#28), (1200#16, 30000#28), (1100#16, 30000#28),
     (1100#16, 30000#28), (1100#16, 30000#28), (1100#16, 30000#28), (1100#16, 30000#28), (1300#16, 30000#28),
     (1100#16, 30000#28), (1300#16, 30000#28), (1200#16, 30000#28)] := rfl

/-- The header stands at the start of the fixed ROM (R187, R202). -/
theorem romInstr_range_header : (List.range' 0 26).map romInstr = header := by decide

/-- How many steps the header takes: 910000 ticks, and three more for each of the 13 pulses (R188). -/
theorem headerPulses_steps : ((headerPulses Config.vis).map fun p => p.2.toNat + 3).sum = 910039 := by
  rw [headerPulses_vis]
  decide

/-- Behind the header: the fields that a pulse writes, each of them its last value or a sum over the pulses. -/
theorem foldl_pulsed_headerPulses {s : State} (hpc : s.seqPc = 0#11) (ht : s.time = 0) (htr : s.trace = []) :
    (headerPulses Config.vis).foldl State.pulsed s = { s with
      seqPc := 26#11, dly := 0#28, toneEn := true, toneFreq := 1200#16, time := 910000
      trace := pulseEvents 0 (headerPulses Config.vis) } := by
  simp [headerPulses_vis, State.pulsed, pulseEvents, hpc, ht, htr]

/-! ### Obligations -/

/-- Settles O7, by the values of the 13 pulses. -/
theorem headerDecodesTo95 : Obligations.HeaderDecodesTo95 := by
  unfold Obligations.HeaderDecodesTo95
  rw [headerPulses_vis]
  decide

/-- Settles O53, from the run of the pulses that stand at the start of the fixed ROM. -/
theorem headerRuns : Obligations.HeaderRuns := by
  intro s hq hs ha hpc hp ht htr
  obtain ⟨t, hrun, hdrop⟩ := runSteps_pulses (ps := headerPulses Config.vis) hq hs ha hp (by rw [hpc]; decide)
    (by rw [hpc]; exact romInstr_range_header)
  rw [foldl_pulsed_headerPulses hpc ht htr] at hdrop
  rw [headerPulses_steps] at hrun
  exact ⟨t, hrun, hdrop⟩

end Sys2Proof.Machine
end

section
/-! The contents of the program ROM, word by word (44_image_sequence R202). -/

namespace Sys2Proof.Machine

/-- The words of pair `p` are those of its operations. -/
theorem romWord_pair {p j : Nat} (hp : p < 248) (hj : j < 8) :
    romWord (26 + 8 * p + j) = encode ((linePair p).getD j .end_) := by
  rw [romWord, romInstr_pair p j hp hj]

/-- Settles O6: the header and the last words by their values, a pair by the words of its operations. -/
theorem romContents : Obligations.RomContents := by
  intro s hs
  have hw : s.promWord = romWord := funext fun a => promWord_fixed s a hs
  rw [hw]
  refine ⟨by decide, fun p hp => ?_, rfl, rfl, fun a ha _ => romWord_eq_zero ha⟩
  have hfirst := firstRow_toNat p hp
  have hsecond := secondRow_toNat p hp
  refine ⟨?_, ?_, ?_, ?_, ?_, ?_, ?_, ?_⟩
  · exact (romWord_pair (j := 0) hp (by decide)).trans (show encode (.setf Config.syncHz) = _ by decide)
  · exact (romWord_pair (j := 1) hp (by decide)).trans (show encode (.wait Config.syncUs) = _ by decide)
  · exact (romWord_pair (j := 2) hp (by decide)).trans (show encode (.setf Config.porchHz) = _ by decide)
  · exact (romWord_pair (j := 3) hp (by decide)).trans (show encode (.wait Config.porchUs) = _ by decide)
  · rw [romWord_pair hp (by decide), ← hfirst]
    exact encode_scany_toNat _
  · rw [romWord_pair hp (by decide), ← hsecond, ← hfirst]
    exact encode_scanry_toNat _ _
  · rw [romWord_pair hp (by decide), ← hsecond, ← hfirst]
    exact encode_scanby_toNat _ _
  · rw [romWord_pair hp (by decide), Nat.add_assoc, ← hsecond]
    exact encode_scany_toNat _

end Sys2Proof.Machine
end

section
/-! The fixed program's scan operations one after the other, and the run of a line pair (44_image_sequence R197 to
R199, R202). -/

namespace Sys2Proof.Machine

/-! ### Where a run of the fixed program stands -/

/-- Undisturbed on a steady image, the sequencer is about to execute word `a` of the fixed program. -/
structure AtWord (s : State) (a : Nat) : Prop where
  quiet : HostQuiet s
  steady : ImageSteady s
  rdy : s.seqSt = .rdy
  fixed : s.prom = []
  pc : s.seqPc.toNat = a

namespace AtWord

variable {s t : State} {a : Nat}

theorem congr (h : AtWord s a) (ht : t.dropNco = s.dropNco) : AtWord t a where
  quiet := hostQuiet_congr ht h.quiet
  steady := ⟨(sourceOk_congr ht).trans h.steady.source, (congrArg State.pixDirty ht).trans h.steady.clean⟩
  rdy := (congrArg State.seqSt ht).trans h.rdy
  fixed := (congrArg State.prom ht).trans h.fixed
  pc := (congrArg (fun s => s.seqPc.toNat) ht).trans h.pc

theorem unarmed (h : AtWord s a) (hi : SeqInv s) : s.armed = false := hi.unarmed (.inr h.rdy)

theorem atInstr (h : AtWord s a) (hi : SeqInv s) : AtInstr s (romInstr a) :=
  ⟨h.rdy, h.unarmed hi, h.pc ▸ decode_fetch_fixed s h.fixed⟩

theorem pc_ne_last (h : AtWord s a) (ha : a < 2047) : s.seqPc ≠ 2047#11 := by
  have := h.pc
  bv_omega

/-- A pulse takes two words (R92). -/
theorem pulsed (h : AtWord s a) (q : BitVec 16 × BitVec 28) (ha : a + 2 < 2048) : AtWord (s.pulsed q) (a + 2) where
  quiet := ⟨h.quiet.rst, h.quiet.hostq⟩
  steady := ⟨h.steady.source, h.steady.clean⟩
  rdy := h.rdy
  fixed := h.fixed
  pc := by rw [← h.pc, State.pulsed, BitVec.toNat_add, Nat.mod_eq_of_lt] <;> simp [h.pc, ha]

end AtWord

/-- `n` words and `d` microseconds later, behind segments of which `c` is the last and with the events `es` emitted
(R144). -/
def State.behind (s : State) (n d : Nat) (c : SegKind × BitVec 12 × BitVec 12) (es : List Event) : State :=
  { s with
    seqPc := s.seqPc + BitVec.ofNat 11 n, segKind := c.1, rowA := c.2.1, rowB := c.2.2, pixIdx := 640#10, done := true
    armed := false, pixt := 0#8, dly := 0#28, toneEn := true, toneFreq := s.imageFreq c.1 639 c.2.1 c.2.2
    time := s.time + d, trace := s.trace ++ es }

section

variable (s : State) (n d : Nat) (c : SegKind × BitVec 12 × BitVec 12) (es : List Event)

theorem State.dropNco_behind : (s.behind n d c es).dropNco = s.dropNco.behind n d c es := rfl

theorem State.behind_behind (n' d' : Nat) (c' : SegKind × BitVec 12 × BitVec 12) (es' : List Event) :
    (s.behind n d c es).behind n' d' c' es' = s.behind (n + n') (d + d') c' (es ++ es') := by
  have hpc : s.seqPc + BitVec.ofNat 11 n + BitVec.ofNat 11 n' = s.seqPc + BitVec.ofNat 11 (n + n') := by bv_omega
  simp only [State.behind, hpc, Nat.add_assoc, List.append_assoc]
  rfl

variable {s n} in
theorem AtWord.behind {a : Nat} (h : AtWord s a) (ha : a + n < 2048) : AtWord (s.behind n d c es) (a + n) where
  quiet := ⟨h.quiet.rst, h.quiet.hostq⟩
  steady := ⟨h.steady.source, h.steady.clean⟩
  rdy := h.rdy
  fixed := h.fixed
  pc := by
    rw [← h.pc] at ha ⊢
    rw [State.behind, BitVec.toNat_add, BitVec.toNat_ofNat, Nat.add_mod_mod, Nat.mod_eq_of_lt ha]

end

/-! ### Scan operations one after the other -/

/-- Behind the scan operation of a segment variant and its rows, on an image without marks (R144). -/
def State.scanned (s : State) (c : SegKind × BitVec 12 × BitVec 12) : State :=
  s.behind 1 121600 c (s.segmentEvents s.time c.1 c.2.1 c.2.2)

theorem dropNco_foldl_scanned (cs : List (SegKind × BitVec 12 × BitVec 12)) (s : State) :
    (cs.foldl State.scanned s).dropNco = cs.foldl State.scanned s.dropNco :=
  (List.foldl_hom State.dropNco fun _ _ => rfl).symm

/-- Scan operations that stand in the fixed ROM from word `a` on run one after the other (R144, R199). -/
theorem runSteps_scans {cs : List (SegKind × BitVec 12 × BitVec 12)} {s : State} {a : Nat} (h : AtWord s a)
    (hi : SeqInv s) (ha : a + cs.length < 2048)
    (hrom : (List.range' a cs.length).map (fun b => scanOf (romInstr b)) = cs.map some) :
    ∃ t, runSteps (122242 * cs.length) s = .next t ∧ t.dropNco = (cs.foldl State.scanned s).dropNco := by
  induction cs generalizing s a with
  | nil => exact ⟨s, rfl, rfl⟩
  | cons c cs ih =>
    rw [List.length_cons] at ha
    obtain ⟨hscan, hrest⟩ : scanOf (romInstr a) = some c ∧
        (List.range' (a + 1) cs.length).map (fun b => scanOf (romInstr b)) = cs.map some := by
      simpa [List.range'_succ] using hrom
    obtain ⟨hruns, -⟩ := scanRunsToCompletion
    obtain ⟨-, u, hfirst, hu⟩ := hruns s _ c.1 c.2.1 c.2.2 h.quiet h.steady hi (h.atInstr hi) hscan
      (h.pc_ne_last (by omega))
    obtain ⟨t, hlater, ht⟩ := ih ((h.behind _ c _ (by omega)).congr hu) (hi.runSteps hfirst) (by omega) hrest
    refine ⟨t, ?_, ?_⟩
    · rw [List.length_cons, Nat.mul_succ, Nat.add_comm]
      exact runSteps_trans hfirst hlater
    · rw [ht, dropNco_foldl_scanned, hu, List.foldl_cons, dropNco_foldl_scanned]
      rfl

/-! ### A line pair (R197 to R199) -/

/-- The two pulses of a pair: sync and porch (R95, R197). -/
def pairPulses : List (BitVec 16 × BitVec 28) :=
  [(Config.syncHz, Config.syncUs), (Config.porchHz, Config.porchUs)]

/-- The last segment of a pair: the luminance of its second row (R197). -/
def lastSegment (p : Nat) : SegKind × BitVec 12 × BitVec 12 := (.luma, secondRow p, 0#12)

/-- The four segments of pair `p`, each with the rows it reads (R197, R199). -/
def pairSegments (p : Nat) : List (SegKind × BitVec 12 × BitVec 12) :=
  [(.luma, firstRow p, 0#12), (.rdiff, firstRow p, secondRow p), (.bdiff, firstRow p, secondRow p),
   lastSegment p]

theorem linePair_eq (p : Nat) : linePair p = (pairPulses.flatMap fun q => tone q.1 q.2) ++ pairScans p := rfl

theorem map_scanOf_pairScans (p : Nat) : (pairScans p).map scanOf = (pairSegments p).map some := rfl

/-- The operations of pair `p`, from its first address on. -/
theorem romInstr_range_linePair {p : Nat} (hp : p < 248) :
    (List.range' (26 + 8 * p) 8).map romInstr = linePair p := by
  refine List.ext_getElem (by simp [linePair_length]) fun j hj hl => ?_
  rw [linePair_length] at hl
  rw [List.getElem_map, List.getElem_range', Nat.one_mul, romInstr_pair p j hp hl, List.getD_eq_getElem]

/-- Where the pulses of pair `p` stand in the program, and its scan operations behind them (R202). -/
theorem romInstr_range_pair {p : Nat} (hp : p < 248) :
    (List.range' (26 + 8 * p) 4).map romInstr = (pairPulses.flatMap fun q => tone q.1 q.2) ∧
    (List.range' (26 + 8 * p + 4) 4).map romInstr = pairScans p := by
  have h := romInstr_range_linePair hp
  rw [linePair_eq, ← List.range'_append_1 (m := 4) (n := 4), List.map_append] at h
  exact List.append_inj h rfl

/-- How many steps a pair takes: 22086 for its two pulses, 122242 for each of its four scan operations. -/
theorem pair_steps (p : Nat) :
    (pairPulses.map fun q => q.2.toNat + 3).sum + 122242 * (pairSegments p).length = 511054 := by
  simp [pairPulses, pairSegments, Config.syncUs, Config.porchUs]

/-- Behind the pulses of a pair. -/
theorem foldl_pulsed_pairPulses (s : State) : pairPulses.foldl State.pulsed s = { s with
    seqPc := s.seqPc + 4#11, dly := 0#28, toneEn := true, toneFreq := Config.porchHz, time := s.time + 22080
    trace := s.trace ++ [.setFreq s.time Config.syncHz, .setFreq (s.time + 20000) Config.porchHz] } := by
  simp [pairPulses, State.pulsed, BitVec.add_assoc, Nat.add_assoc, Config.syncUs, Config.porchUs]

/-- The first segment of a pair, behind the two pulses. -/
theorem scanned_pairPulses (s : State) (c : SegKind × BitVec 12 × BitVec 12) :
    (pairPulses.foldl State.pulsed s).scanned c = s.behind 5 143680 c
      ([.setFreq s.time Config.syncHz, .setFreq (s.time + 20000) Config.porchHz] ++
        s.segmentEvents (s.time + 22080) c.1 c.2.1 c.2.2) := by
  have hpc : s.seqPc + 4#11 + BitVec.ofNat 11 1 = s.seqPc + BitVec.ofNat 11 5 := by bv_omega
  simp only [foldl_pulsed_pairPulses, State.scanned, State.behind, hpc, Nat.add_assoc, List.append_assoc]
  rfl

/-- One more segment. -/
theorem scanned_behind (s : State) (n d : Nat) (c c' : SegKind × BitVec 12 × BitVec 12) (es : List Event) :
    (s.behind n d c es).scanned c' =
      s.behind (n + 1) (d + 121600) c' (es ++ s.segmentEvents (s.time + d) c'.1 c'.2.1 c'.2.2) :=
  s.behind_behind ..

/-- The pulses and the segments of a pair together (R198, R205). -/
theorem foldl_pair (s : State) (p : Nat) :
    (pairSegments p).foldl State.scanned (pairPulses.foldl State.pulsed s) =
      s.behind 8 508480 (lastSegment p) (s.pairEvents s.time p) := by
  simp only [pairSegments, List.foldl_cons, List.foldl_nil, scanned_pairPulses, scanned_behind]
  rfl

/-- A line pair: its two pulses and then its four scan operations. -/
theorem runSteps_pair {s : State} {p : Nat} (hp : p < 248) (h : AtWord s (26 + 8 * p)) (hi : SeqInv s) :
    ∃ t, runSteps 511054 s = .next t ∧
      t.dropNco = (s.behind 8 508480 (lastSegment p) (s.pairEvents s.time p)).dropNco := by
  obtain ⟨hpulses, hscans⟩ := romInstr_range_pair hp
  obtain ⟨u, hfirst, hu⟩ := runSteps_pulses (ps := pairPulses) h.quiet h.rdy (h.unarmed hi) h.fixed
    (by rw [h.pc]; simp [pairPulses]; omega) (h.pc ▸ hpulses)
  have hau : AtWord u (26 + 8 * p + 4) := ((h.pulsed _ (by omega)).pulsed _ (by omega)).congr hu
  obtain ⟨t, hlater, ht⟩ := runSteps_scans (cs := pairSegments p) hau (hi.runSteps hfirst)
    (by simp [pairSegments]; omega) (by rw [← map_scanOf_pairScans, ← hscans, List.map_map]; rfl)
  refine ⟨t, pair_steps p ▸ runSteps_trans hfirst hlater, ?_⟩
  rw [ht, dropNco_foldl_scanned, hu, ← dropNco_foldl_scanned, foldl_pair]

/-! ### Obligations -/

/-- Settles O54, from the run of a pair: what `State.behind` writes besides has that value already (R48 b, e, f). -/
theorem linePairRuns : Obligations.LinePairRuns := by
  intro s p hp hq himg hi hs hrom hpc
  obtain ⟨t, hrun, ht⟩ := runSteps_pair hp ⟨hq, himg, hs, hrom, hpc⟩ hi
  have ha : s.armed = false := hi.unarmed (.inr hs)
  have hd : s.dly = 0#28 := hi.dly_zero (by simp [hs])
  refine ⟨t, hrun, ht.trans (congrArg State.dropNco ?_)⟩
  simp [State.behind, lastSegment, ha, hd, hi.pixt_zero ha]

end Sys2Proof.Machine
end

section
/-! The whole transmission: its run from START to `END`, and its trace (44_image_sequence R204 to R209). -/

namespace Sys2Proof.Machine

/-! ### The run -/

/-- Behind START and the header (R35, R188). -/
def State.behindHeader (s : State) : State :=
  { s with
    seqSt := .rdy, seqPc := 26#11, dly := 0#28, toneEn := true, toneFreq := 1200#16, time := 910000
    trace := pulseEvents 0 (headerPulses Config.vis), hostq := [] }

/-- From IDLE, START and the header. -/
theorem runSteps_start_header {s : State} {v : BitVec 32} (hr : s.rst = false) (ho : s.sourceOk = true)
    (hi : SeqInv s) (hp : s.prom = []) (hs : s.seqSt = .idle) (hq : s.hostq = [⟨0, .csrWrite 0#3 v⟩])
    (hv : v.getLsbD 0 = true) :
    ∃ t, runSteps 910040 s = .next t ∧ t.dropNco = s.behindHeader.dropNco := by
  have ha : s.armed = false := hi.armed_eq_false (by simp [hs])
  have hstart := (step_of_csrWrite hq).trans (csrWrite_start hv hs hr ho)
  obtain ⟨t, hrun, ht⟩ := headerRuns { s with hostq := [], seqSt := .rdy, seqPc := 0#11, time := 0, trace := [] }
    ⟨hr, rfl⟩ rfl ha rfl hp rfl rfl
  exact ⟨t, by rw [runSteps_succ, hstart, andThen_next, hrun], ht⟩

/-- The events of the pairs 0 to `n`, the first of which starts at `t` (R205). -/
def State.pairsEvents (s : State) (t n : Nat) : List Event :=
  (List.range (n + 1)).flatMap fun p => s.pairEvents (t + 508480 * p) p

theorem pairsEvents_succ (s : State) (t n : Nat) : s.pairsEvents t (n + 1) =
    s.pairsEvents t n ++ s.pairEvents (t + 508480 * (n + 1)) (n + 1) := by
  rw [State.pairsEvents, List.range_succ, List.flatMap_append, List.flatMap_singleton]
  rfl

/-- The pairs 0 to `n` of the fixed program run one after the other (R195). -/
theorem runSteps_pairs {s : State} (h : AtWord s 26) (hi : SeqInv s) {n : Nat} (hn : n < 248) :
    ∃ t, runSteps (511054 * (n + 1)) s = .next t ∧ t.dropNco =
      (s.behind (8 * (n + 1)) (508480 * (n + 1)) (lastSegment n) (s.pairsEvents s.time n)).dropNco := by
  induction n with
  | zero => simpa [State.pairsEvents] using runSteps_pair hn h hi
  | succ n ih =>
    obtain ⟨t, hfirst, ht⟩ := ih (by omega)
    have hat := (h.behind _ _ _ (by omega)).congr ht
    obtain ⟨u, hlater, hu⟩ := runSteps_pair hn hat (hi.runSteps hfirst)
    refine ⟨u, runSteps_trans hfirst hlater, ?_⟩
    have hev : t.pairEvents t.time = s.pairEvents (s.time + 508480 * (n + 1)) :=
      (congrArg (fun s => s.pairEvents s.time) ht :)
    rw [hu, State.dropNco_behind, ht, ← State.dropNco_behind, State.behind_behind, hev, ← pairsEvents_succ]
    rfl

/-- The end of the program, `STOP` and `END` (R200, R207). -/
theorem runSteps_stop_end {s : State} (h : AtWord s 2010) (hi : SeqInv s) : runSteps 2 s = .next { s with
    seqSt := .idle, seqPc := 2011#11, toneEn := false, toneFreq := 0#16, ncoPhase := 0#32
    trace := s.trace ++ [.stop s.time] } := by
  have hpc : s.seqPc + 1#11 = 2011#11 := by have := h.pc; bv_omega
  have hstop := (step_of_atInstr h.quiet (h.atInstr hi)).trans (exec_stop (h.pc_ne_last (by decide)))
  rw [hpc] at hstop
  have hat : AtWord { s with
      toneEn := false, toneFreq := 0#16, ncoPhase := 0#32, trace := s.trace ++ [.stop s.time]
      seqPc := 2011#11 } 2011 :=
    ⟨⟨h.quiet.rst, h.quiet.hostq⟩, ⟨h.steady.source, h.steady.clean⟩, h.rdy, h.fixed, rfl⟩
  have hend := step_of_atInstr hat.quiet (hat.atInstr (hi.step hstop))
  rw [romInstr_end 2011 le_rfl, exec_end] at hend
  exact runSteps_trans (m := 1) (n := 1) ((runSteps_one _).trans hstop) ((runSteps_one _).trans hend)

/-! ### The trace (R205, R206) -/

theorem pulseEvents_length (t : Nat) (ps : List (BitVec 16 × BitVec 28)) : (pulseEvents t ps).length = ps.length := by
  induction ps generalizing t with
  | nil => rfl
  | cons p ps ih => simp [pulseEvents, ih]

theorem segmentEvents_length (s : State) (t : Nat) (k : SegKind) (a b : BitVec 12) :
    (s.segmentEvents t k a b).length = 640 := by
  simp [State.segmentEvents, Config.width]

theorem pairEvents_length (s : State) (t p : Nat) : (s.pairEvents t p).length = 2562 := by
  simp [State.pairEvents, segmentEvents_length]

/-- 13 pulses, 2562 events in each of the 248 pairs, and the stop (R206). -/
theorem transmissionEvents_length (s : State) : s.transmissionEvents.length = 635390 := by
  have hpairs (n : Nat) : ((List.range n).flatMap fun p => s.pairEvents (pairStart p) p).length = 2562 * n := by
    simp [List.length_flatMap, pairEvents_length, Nat.mul_comm]
  rw [State.transmissionEvents, List.length_append, List.length_append, pulseEvents_length, hpairs, headerPulses_vis]
  rfl

/-- The last event of a segment, 121600 microseconds after its issue. -/
theorem segmentEvents_eq_concat (s : State) (t : Nat) (k : SegKind) (a b : BitVec 12) :
    ∃ pre, s.segmentEvents t k a b = pre ++ [.setFreq (t + 121600) (s.imageFreq k 639 a b)] := by
  rw [State.segmentEvents, Config.width, List.range_succ, List.map_append]
  exact ⟨_, rfl⟩

/-- The last event of a pair, at its end. -/
theorem pairEvents_eq_concat (s : State) (t p : Nat) :
    ∃ pre, s.pairEvents t p = pre ++ [.setFreq (t + 508480) (s.imageFreq .luma 639 (secondRow p) 0#12)] := by
  obtain ⟨pre, h⟩ := segmentEvents_eq_concat s (t + 386880) .luma (secondRow p) 0#12
  rw [Nat.add_assoc] at h
  exact ⟨_, by rw [State.pairEvents, h, ← List.append_assoc]⟩

/-- The last two events, at one time (R206, R207). -/
theorem transmissionEvents_eq_concat (s : State) : ∃ pre, s.transmissionEvents =
    pre ++ [.setFreq 127013040 (s.imageFreq .luma 639 495#12 0#12), .stop 127013040] := by
  obtain ⟨pre, h⟩ := pairEvents_eq_concat s (pairStart 247) 247
  refine ⟨pulseEvents 0 (headerPulses Config.vis) ++
    (List.range 247).flatMap (fun p => s.pairEvents (pairStart p) p) ++ pre, ?_⟩
  rw [State.transmissionEvents, Config.numPairs, List.range_succ, List.flatMap_append, List.flatMap_singleton, h]
  simp [pairStart, transmissionUs, secondRow]

/-! ### Obligations -/

/-- Settles O56: START and the header, the 248 pairs, `STOP` and `END`, one run after the other. -/
theorem wholeTransmission : Obligations.WholeTransmission := by
  intro s v hr himg hi hp hs hq hv
  refine ⟨?_, transmissionEvents_length s, transmissionEvents_eq_concat s⟩
  obtain ⟨t, hheader, ht⟩ := runSteps_start_header hr himg.source hi hp hs hq hv
  have hah : AtWord s.behindHeader 26 := ⟨⟨hr, rfl⟩, ⟨himg.source, himg.clean⟩, rfl, hp, rfl⟩
  have hat := hah.congr ht
  obtain ⟨u, hpairs, hu⟩ := runSteps_pairs hat (hi.runSteps hheader) (n := 247) (by decide)
  have hev : t.pairsEvents t.time = s.pairsEvents 910000 := (congrArg (fun s => s.pairsEvents s.time) ht :)
  rw [State.dropNco_behind, ht, ← State.dropNco_behind, hev] at hu
  have hrun := runSteps_trans hheader hpairs
  have hau : AtWord u 2010 := (hah.behind (n := 8 * 248) _ _ _ (by decide)).congr hu
  have hend := runSteps_stop_end hau (hi.runSteps hrun)
  have htime : u.time = 910000 + 508480 * 248 := congrArg State.time hu
  have hn : 127651434 = 910040 + 511054 * (247 + 1) + 2 := by norm_num
  refine ⟨_, hn ▸ runSteps_trans hrun hend, ?_⟩
  rw [htime]
  obtain ⟨ph, fr, rfl⟩ := (dropNco_eq_iff _ _).mp hu.symm
  rfl

end Sys2Proof.Machine
end

section
/-! The times along the trace (45_tone_generator R218): an event is emitted at the present, so they never decrease. -/

namespace Sys2Proof.Machine.TraceInv

variable {s t : State}

/-- The order of the trace survives whatever leaves the trace as it is and does not turn time back. -/
theorem of_trace_eq (h : TraceInv s) (htrace : t.trace = s.trace) (htime : s.time ≤ t.time) : TraceInv t where
  sorted := htrace ▸ h.sorted
  past e he := (h.past e (htrace ▸ he)).trans htime

/-- The order of the trace survives an event of the present (R12, R218). -/
theorem of_trace_append (h : TraceInv s) {e : Event} (he : e.at = s.time) (htrace : t.trace = s.trace ++ [e])
    (htime : t.time = s.time) : TraceInv t where
  sorted := by
    rw [htrace, List.map_append, List.pairwise_append]
    refine ⟨h.sorted, List.pairwise_singleton _ _, fun a ha b hb => ?_⟩
    obtain ⟨d, hd, rfl⟩ := List.mem_map.mp ha
    rw [List.mem_singleton.mp hb, he]
    exact h.past d hd
  past d hd := by
    rw [htrace, List.mem_append, List.mem_singleton] at hd
    rw [htime]
    rcases hd with hd | rfl
    · exact h.past d hd
    · exact he.le

theorem fire (h : TraceInv s) (hf : Machine.fire s = .next t) : TraceInv t := by
  obtain ⟨-, -, p, q, n, rfl⟩ := fire_next hf
  exact h.of_trace_append (e := .setFreq s.time (kindFreq s.segKind p q)) rfl (by simp) (by simp)

/-- `SETF` and `STOP` emit one event each, the other operations none (R161, R163). -/
theorem exec (h : TraceInv s) {i : Instr} (he : Machine.exec i s = .next t) : TraceInv t := by
  rcases exec_next he with ⟨-, rfl⟩ | ⟨hz, -, rfl⟩ | ⟨us, -, rfl⟩ | ⟨-, rfl⟩ | ⟨k, a, b, -, -, -, -, -, rfl⟩
  · exact h.of_trace_eq rfl le_rfl
  · exact h.of_trace_append (e := .setFreq s.time hz) rfl (by simp) (by simp)
  · exact h.of_trace_eq rfl le_rfl
  · exact h.of_trace_append (e := .stop s.time) rfl (by simp) (by simp)
  · exact h.of_trace_eq rfl le_rfl

theorem ownStep (h : TraceInv s) (ho : Machine.ownStep s = .next t) : TraceInv t := by
  rcases ownStep_next ho with ⟨-, rfl⟩ | ⟨-, -, -, hf⟩ | ⟨-, -, -, -, rfl⟩ | ⟨-, -, -, -, rfl⟩ |
    ⟨-, -, -, hx⟩ | ⟨-, -, rfl⟩
  · exact h.of_trace_eq rfl (Nat.le_succ _)
  · exact h.fire hf
  · exact h.of_trace_eq (by simp) (by simp)
  · exact h.of_trace_eq (by simp) (by simp)
  · obtain ⟨i, -, he⟩ := fetchExec_next hx
    exact h.exec he
  · exact h.of_trace_eq rfl (Nat.le_succ _)

/-- START is the one step that turns time back, and it empties the trace (R32, R35). -/
theorem hostAct (h : TraceInv s) {op : HostOp} (ha : Machine.hostAct op s = .next t) : TraceInv t := by
  rcases hostAct_next ha with rfl | ⟨-, -, -, rfl⟩ | ⟨reg, -, rfl⟩ | ⟨xc, yc, p, -, -, -, rfl⟩ |
    ⟨xc, yc, p, -, -, -, rfl⟩ | rfl | rfl
  · exact h
  · exact ⟨by simp, by simp⟩
  · exact h.of_trace_eq rfl le_rfl
  · exact h.of_trace_eq rfl le_rfl
  · exact h.of_trace_eq rfl le_rfl
  · exact h.of_trace_eq rfl le_rfl
  · exact h.of_trace_eq rfl le_rfl

/-- Every step keeps the order of the trace, whatever the program. -/
theorem step (h : TraceInv s) (hs : Machine.step s = .next t) : TraceInv t :=
  step_establishes (P := TraceInv) (fun _ _ h => h.of_trace_eq rfl le_rfl) (fun _ _ _ h => h.hostAct)
    (fun _ _ h => h.ownStep) h hs

end Sys2Proof.Machine.TraceInv

namespace Sys2Proof.Machine

/-- Settles O44: an event is emitted at the present, after every event so far. -/
theorem traceOrderKept : Obligations.TraceOrderKept := fun _ _ h => h.step

end Sys2Proof.Machine
end

section
/-! The synthesizer takes no part in any other rule (45_tone_generator R224): each operation answers the same with it
left out, so each step does. -/

namespace Sys2Proof.Machine

/-- An outcome seen without the NCO. -/
def withoutNco (o : Out State) : Out State := andThen o fun s => .next s.dropNco

theorem sameButNco_iff {a b : Out State} : SameButNco a b ↔ withoutNco a = withoutNco b := by
  cases a <;> cases b <;> simp [SameButNco, withoutNco, andThen]

/-- What an operation answers does not rest on the NCO (R224). -/
def IgnoresNco (f : State → Out State) : Prop := ∀ s, withoutNco (f s.dropNco) = withoutNco (f s)

/-- An operation that always goes on, if what it does to the state apart from the NCO does not rest on the NCO. -/
theorem ignoresNco_next {f : State → State} (h : ∀ s, (f s.dropNco).dropNco = (f s).dropNco) :
    IgnoresNco fun s => .next (f s) := fun s => congrArg Host.Outcome.next (h s)

theorem ignoresNco_advancePc {f : State → State} (h : ∀ s, (f s.dropNco).dropNco = (f s).dropNco) :
    IgnoresNco fun s => .next (f s).advancePc :=
  ignoresNco_next fun s => by rw [dropNco_advancePc, h, ← dropNco_advancePc]

/-- A choice between two operations by a condition that does not look at the NCO. -/
theorem ignoresNco_ite {c : State → Prop} [∀ s, Decidable (c s)] {f g : State → Out State}
    (hc : ∀ s, c s.dropNco ↔ c s) (hf : IgnoresNco f) (hg : IgnoresNco g) :
    IgnoresNco fun s => if c s then f s else g s := fun s => by
  by_cases h : c s
  · simpa only [if_pos h, if_pos ((hc s).mpr h)] using hf s
  · simpa only [if_neg h, if_neg (mt (hc s).mp h)] using hg s

/-! ### The callback -/

theorem pixReads_dropNco (cs : List (Nat × Nat)) (s : State) :
    pixReads cs s.dropNco = andThen (pixReads cs s) fun r => .next (r.1, r.2.dropNco) := by
  induction cs generalizing s with
  | nil => rfl
  | cons c cs ih =>
    have hread : pixRead s.dropNco c.1 c.2 = andThen (pixRead s c.1 c.2) fun r => .next (r.1, r.2.dropNco) :=
      pixRead_nco s 0#32 0 c.1 c.2
    simp only [pixReads, hread, andThen_assoc, andThen_next, ih]

/-- The reads and the frequency of a callback do not look at the synthesizer. -/
theorem callbackFreq_dropNco (s : State) :
    callbackFreq s.dropNco = andThen (callbackFreq s) fun r => .next (r.1, r.2.dropNco) := by
  by_cases hk : s.segKind = .none
  · simp [callbackFreq, hk, andThen]
  · rw [callbackFreq_eq_pixReads s hk, callbackFreq_eq_pixReads s.dropNco hk]
    simp [pixReads_dropNco, andThen_assoc]

theorem ignoresNco_fire : IgnoresNco fire := fun s => by
  have hdrive (f : BitVec 16) (u : State) :
      (u.dropNco.setTone f).bumpIndex.dropNco = (u.setTone f).bumpIndex.dropNco := by
    rw [dropNco_bumpIndex, dropNco_bumpIndex]
    rfl
  simp only [withoutNco, fire, callbackFreq_dropNco, andThen_assoc, andThen_next, hdrive]

/-! ### The operations and the machine's own step -/

theorem ignoresNco_exec_scan {i : Instr} {k : SegKind} {a b : BitVec 12} (h : scanOf i = some (k, a, b)) :
    IgnoresNco (exec i) := by
  rw [show exec i = _ from funext (exec_of_scanOf h)]
  exact ignoresNco_ite (fun _ => .rfl) (ignoresNco_next fun _ => rfl) fun _ => rfl

theorem ignoresNco_exec (i : Instr) : IgnoresNco (exec i) := by
  cases i with
  | end_ => exact ignoresNco_next fun _ => rfl
  | setf hz => exact ignoresNco_advancePc (f := (·.setTone hz)) fun _ => rfl
  | wait us => exact ignoresNco_next fun _ => rfl
  | stop => exact ignoresNco_advancePc (f := State.stopTone) fun _ => rfl
  | scany a => exact ignoresNco_exec_scan rfl
  | scanry a b => exact ignoresNco_exec_scan rfl
  | scanby a b => exact ignoresNco_exec_scan rfl

theorem ignoresNco_fetchExec : IgnoresNco fetchExec := fun s => by
  have hfetch : s.dropNco.fetch = s.fetch := rfl
  rw [fetchExec, fetchExec, hfetch]
  cases decode s.fetch with
  | ok i => exact ignoresNco_exec i s
  | error e => rfl

theorem ignoresNco_ownStep : IgnoresNco ownStep := fun s => by
  have hchoose : s.dropNco.choose = s.choose := rfl
  rw [ownStep, ownStep, hchoose]
  cases s.choose with
  | held => rfl
  | fire => exact ignoresNco_fire s
  | waitEnd => exact ignoresNco_advancePc (f := (·.goto .rdy)) (fun _ => rfl) s
  | segEnd => exact ignoresNco_advancePc (f := (·.goto .rdy)) (fun _ => rfl) s
  | exec => exact ignoresNco_fetchExec s
  | tick => rfl

/-! ### The moves of the host -/

theorem ignoresNco_start : IgnoresNco start :=
  ignoresNco_ite (fun _ => .rfl) (ignoresNco_next fun _ => rfl) fun _ => rfl

theorem ignoresNco_csrWrite (reg : BitVec 3) (v : BitVec 32) : IgnoresNco fun s => csrWrite s reg v :=
  ignoresNco_ite (fun _ => .rfl) ignoresNco_start (ignoresNco_next fun _ => rfl)

theorem ignoresNco_pixWrite (xc yc : Nat) (p : Pixel) : IgnoresNco fun s => pixWrite s xc yc p :=
  ignoresNco_ite (fun _ => .rfl)
    (ignoresNco_ite (fun _ => .rfl) (ignoresNco_next fun _ => rfl) (ignoresNco_next fun _ => rfl)) fun _ => rfl

theorem ignoresNco_hostAct (op : HostOp) : IgnoresNco (hostAct op) := by
  cases op with
  | csrWrite reg v => exact ignoresNco_csrWrite reg v
  | csrRead reg => exact ignoresNco_next fun _ => rfl
  | pixWrite xc yc p => exact ignoresNco_pixWrite xc yc p
  | rst level => cases level <;> exact ignoresNco_next fun _ => rfl

/-! ### The step -/

theorem ignoresNco_step : IgnoresNco step := fun s => by
  have hdue : hostDue s.dropNco = hostDue s := rfl
  rw [step, step, hdue]
  cases hostDue s with
  | some op => exact ignoresNco_hostAct op s.hostPop
  | none => exact ignoresNco_ownStep s.hostWait

/-- Settles O49: each of the two steps is, the NCO apart, the step of the state both come to without it. -/
theorem ncoTakesNoPart : Obligations.NcoTakesNoPart := fun s t h =>
  sameButNco_iff.mpr <| calc
    withoutNco (step s) = withoutNco (step s.dropNco) := (ignoresNco_step s).symm
    _ = withoutNco (step t.dropNco) := by rw [h]
    _ = withoutNco (step t) := ignoresNco_step t

end Sys2Proof.Machine
end

section
/-! The waveform of a trace (45_tone_generator R219): what a write of the frequency already sounding adds to it. -/

namespace Sys2Proof.Machine

/-- When the first event of a trace is, or its end if it has none. -/
def startTime (tEnd : Nat) (tr : List Event) : Nat := (tr.map Event.at).headD tEnd

theorem runLength_cons (tEnd : Nat) (e : Event) (tr : List Event) :
    runLength tEnd (e :: tr) = (e.level, startTime tEnd tr - e.at) :: runLength tEnd tr := by
  cases tr <;> rfl

/-- The run-length form up to the first event of `tr'`, and then that of `tr'`. -/
theorem runLength_append (tEnd : Nat) (tr tr' : List Event) :
    runLength tEnd (tr ++ tr') = runLength (startTime tEnd tr') tr ++ runLength tEnd tr' := by
  induction tr with
  | nil => rfl
  | cons e tr ih =>
    have hnext : startTime tEnd (tr ++ tr') = startTime (startTime tEnd tr') tr := by cases tr <;> rfl
    rw [List.cons_append, runLength_cons, runLength_cons, ih, hnext, List.cons_append]

theorem mergeRuns_append_congr {l l' : List (Option (BitVec 16) × Nat)} (p : List (Option (BitVec 16) × Nat))
    (h : mergeRuns l = mergeRuns l') : mergeRuns (p ++ l) = mergeRuns (p ++ l') := by
  induction p with
  | nil => exact h
  | cons a p ih => rw [List.cons_append, List.cons_append, mergeRuns, mergeRuns, ih]

/-- Two neighbours of equal level merge to one. -/
theorem mergeRuns_cons_cons (v : Option (BitVec 16)) (n m : Nat) (l : List (Option (BitVec 16) × Nat)) :
    mergeRuns ((v, n) :: (v, m) :: l) = mergeRuns ((v, n + m) :: l) := by
  rw [mergeRuns, mergeRuns, mergeRuns]
  rcases mergeRuns l with _ | ⟨⟨u, k⟩, l⟩
  · simp
  · by_cases h : v = u <;> simp [h, Nat.add_assoc]

/-- What sounds for `n` and goes on for `m` gives the same waveform as one run, if either of them lasts no time too. -/
theorem mergeRuns_filter_cons_cons (v : Option (BitVec 16)) (n m : Nat) (l : List (Option (BitVec 16) × Nat)) :
    mergeRuns (((v, n) :: (v, m) :: l).filter fun p => !decide (p.2 = 0)) =
      mergeRuns (((v, n + m) :: l).filter fun p => !decide (p.2 = 0)) := by
  rcases n.eq_zero_or_pos with rfl | hn
  · simp
  rcases m.eq_zero_or_pos with rfl | hm
  · simp [List.filter_cons]
  · simp [hn.ne', hm.ne', mergeRuns_cons_cons]

theorem le_startTime {u tEnd : Nat} {tr : List Event} (htr : ∀ e ∈ tr, u ≤ e.at) (hend : u ≤ tEnd) :
    u ≤ startTime tEnd tr := by
  cases tr with
  | nil => exact hend
  | cons e tr => exact htr e List.mem_cons_self

/-- Settles O57: the run of the first write and that of the second follow each other at one level, and together last as
long as the run of the first does without the second. -/
theorem equalWriteKeepsWaveform : Obligations.EqualWriteKeepsWaveform := by
  intro tr rest t u tEnd hz hsorted hpast
  rw [List.append_assoc, List.map_append] at hsorted
  obtain ⟨htail, hrest⟩ := List.pairwise_cons.mp (List.pairwise_append.mp hsorted).2.1
  have htu : t ≤ u := htail u List.mem_cons_self
  have hnext : u ≤ startTime tEnd rest :=
    le_startTime (fun e he => (List.pairwise_cons.mp hrest).1 _ (List.mem_map_of_mem he))
      (hpast (.setFreq u hz) (by simp))
  have hsum : startTime tEnd rest - t = (u - t) + (startTime tEnd rest - u) := by omega
  have hfirst : runLength tEnd (.setFreq t hz :: .setFreq u hz :: rest) =
      (some hz, u - t) :: (some hz, startTime tEnd rest - u) :: runLength tEnd rest := by
    rw [runLength_cons, runLength_cons]
    rfl
  have hwithout : runLength tEnd (.setFreq t hz :: rest) =
      (some hz, (u - t) + (startTime tEnd rest - u)) :: runLength tEnd rest := by
    rw [runLength_cons, ← hsum]
    rfl
  have hstart (l : List Event) : startTime tEnd (.setFreq t hz :: l) = t := rfl
  simp only [waveform, List.append_assoc, List.cons_append, List.nil_append, runLength_append, hstart, hfirst,
    hwithout, List.filter_append]
  exact mergeRuns_append_congr _ (mergeRuns_filter_cons_cons _ _ _ _)

end Sys2Proof.Machine
end

section
/-! The synthesizer (45_tone_generator R220 to R222): its tuning word, its updates, its output and its rate. -/

namespace Sys2Proof.Machine

/-! ### The tuning word and one update -/

/-- Only the tuning word modulo `2^32` takes effect. -/
theorem nextPhase_tone_toNat (rate : Nat) (hz : BitVec 16) (ph : BitVec 32) :
    (nextPhase rate true hz ph).toNat = (ph.toNat + tuningWord rate hz) % 2 ^ 32 := BitVec.toNat_ofNat _ _

theorem two_mul_2301_lt_fNco : 2 * 2301 < Config.fNco := by
  unfold Config.fNco
  omega

/-- Settles O59, from the division with remainder that the tuning word is. -/
theorem tuningWordBound : Obligations.TuningWordBound := by
  refine ⟨fun rate hz hrate => ⟨Nat.div_mul_le_self _ _, Nat.lt_div_mul_add hrate, fun hlt => ?_, fun ph => ?_⟩,
    fun rate => by simp [tuningWord], two_mul_2301_lt_fNco⟩
  · exact Nat.div_lt_of_lt_mul (Nat.mul_lt_mul_of_pos_right hlt (by decide))
  · rw [nextPhase_tone_toNat, Nat.add_mod_mod]

/-- Settles O58: the output is the conjunction of the tone flag and the comparison with the threshold. -/
theorem ncoUpdateAndOutput : Obligations.NcoUpdateAndOutput := by
  refine ⟨fun rate hz ph => ⟨nextPhase_tone_toNat rate hz ph, rfl⟩, fun thr ph => ⟨?_, rfl⟩, fun s => ?_⟩
  · simp [audioLevel]
  · simp [State.audioOut, audioLevel]

/-! ### The updates of many microseconds (assumption log 9) -/

/-- What a microsecond leaves over goes into the next one's updates, so none is lost (R220). -/
theorem updates_succ (rate x : Nat) :
    (x + rate) / Config.usPerSecond = x / Config.usPerSecond + updatesIn rate (x % Config.usPerSecond) := by
  simp only [updatesIn, Config.usPerSecond]
  omega

theorem toneEn_iterate_passTime (n : Nat) (s : State) : (State.passTime^[n] s).toneEn = s.toneEn :=
  (congrArg State.toneEn (dropNco_iterate_passTime n s) :)

theorem toneFreq_iterate_passTime (n : Nat) (s : State) : (State.passTime^[n] s).toneFreq = s.toneFreq :=
  (congrArg State.toneFreq (dropNco_iterate_passTime n s) :)

theorem ncoFrac_iterate_passTime (n : Nat) {s : State} (h : s.ncoFrac < Config.usPerSecond) :
    (State.passTime^[n] s).ncoFrac = (s.ncoFrac + n * Config.fNco) % Config.usPerSecond := by
  induction n with
  | zero => simp [Nat.mod_eq_of_lt h]
  | succ n ih =>
    rw [Function.iterate_succ_apply', State.passTime_ncoFrac, ih, Nat.mod_add_mod, Nat.add_assoc, ← Nat.succ_mul]

/-- After `n` microseconds the phase has made the updates that `n` microseconds of `F_NCO` come to (R220). -/
theorem ncoPhase_iterate_passTime (n : Nat) {s : State} (h : s.ncoFrac < Config.usPerSecond) :
    (State.passTime^[n] s).ncoPhase = phaseAfter Config.fNco s.toneEn s.toneFreq
      ((s.ncoFrac + n * Config.fNco) / Config.usPerSecond) s.ncoPhase := by
  induction n with
  | zero => simp [Nat.div_eq_of_lt h, phaseAfter]
  | succ n ih =>
    rw [Function.iterate_succ_apply', State.passTime_ncoPhase, ih, toneEn_iterate_passTime,
      toneFreq_iterate_passTime, ncoFrac_iterate_passTime n h, ← phaseAfter_add, ← updates_succ, Nat.add_assoc,
      ← Nat.succ_mul]

/-! ### When a run is time passing -/

/-- In IDLE no zero-time step is enabled (R46). -/
theorem quiet_of_idle {s : State} (hs : s.seqSt = .idle) (ha : s.armed = false) (m : Nat) :
    (s.ticked m).zeroTimeEnabled = false := by
  rw [zeroTimeEnabled_eq_false_iff]
  simp [State.ticked, hs, ha]

/-- While the timer counts down before the end of a segment no zero-time step is enabled, whatever else holds (R46). -/
theorem quiet_of_segw {s : State} (hs : s.seqSt = .segw) (hd : s.done = false) (ha : s.armed = true) {m : Nat}
    (hm : m < s.pixt.toNat) : (s.ticked m).zeroTimeEnabled = false := by
  have hne : s.pixt - BitVec.ofNat 8 m ≠ 0#8 := by bv_omega
  rw [zeroTimeEnabled_eq_false_iff]
  simp [State.ticked, hs, hd, ha, hne]

/-- Settles O60: a tick is a microsecond for the synthesizer, and so is each step of a run in which only time passes. -/
theorem ncoRunsAtItsRate : Obligations.NcoRunsAtItsRate := by
  refine ⟨fun s hdue htick => ⟨s.hostWait.passTime, ?_, rfl, rfl, rfl, rfl⟩, fun s n hq hfrac hst => ?_⟩
  · have htick' : s.hostWait.choose = .tick := htick
    simp only [step, hdue, ownStep, htick']
  · have hquiet : ∀ m < n, (s.ticked m).zeroTimeEnabled = false := fun m hm => by
      rcases hst with ⟨hs, ha⟩ | ⟨hs, ha, hn⟩ | ⟨hs, hd, ha, hn⟩
      · exact quiet_of_idle hs ha m
      · exact quiet_of_dly hs ha (hm.trans_le hn)
      · exact quiet_of_segw hs hd ha (hm.trans_le hn)
    exact ⟨_, runSteps_of_quiet hq hquiet, (congrArg State.time (dropNco_iterate_passTime n s) :),
      ncoFrac_iterate_passTime n hfrac, ncoPhase_iterate_passTime n hfrac⟩

end Sys2Proof.Machine
end

section
/-! No step of the fixed program faults or refuses (20_memory R66, 60_exceptions R230): each step answers a next state,
and leaves the source and what the host has yet to write as they were. -/

namespace Sys2Proof.Machine

/-! ### What a step does to the source and to the host's pending moves -/

/-- The size of the source and the host's pending moves are as before. -/
def SameSurroundings (s t : State) : Prop := t.srcW = s.srcW ∧ t.srcH = s.srcH ∧ t.hostq = s.hostq

theorem fire_sameSurroundings {s t : State} (h : fire s = .next t) : SameSurroundings s t := by
  obtain ⟨-, -, p, q, n, rfl⟩ := fire_next h
  simp [SameSurroundings]

theorem exec_sameSurroundings {i : Instr} {s t : State} (h : exec i s = .next t) : SameSurroundings s t := by
  rcases exec_next h with ⟨-, rfl⟩ | ⟨hz, -, rfl⟩ | ⟨us, -, rfl⟩ | ⟨-, rfl⟩ | ⟨k, a, b, -, -, -, -, -, rfl⟩ <;>
    simp [SameSurroundings]

theorem ownStep_sameSurroundings {s t : State} (h : ownStep s = .next t) : SameSurroundings s t := by
  rcases ownStep_next h with ⟨-, rfl⟩ | ⟨-, -, -, hf⟩ | ⟨-, -, -, -, rfl⟩ | ⟨-, -, -, -, rfl⟩ | ⟨-, -, -, hx⟩ |
    ⟨-, -, rfl⟩
  · exact ⟨rfl, rfl, rfl⟩
  · exact fire_sameSurroundings hf
  · simp [SameSurroundings]
  · simp [SameSurroundings]
  · obtain ⟨i, -, he⟩ := fetchExec_next hx
    exact exec_sameSurroundings he
  · exact ⟨rfl, rfl, rfl⟩

theorem hostAct_sameSurroundings {op : HostOp} {s t : State} (h : hostAct op s = .next t) : SameSurroundings s t := by
  rcases hostAct_next h with rfl | ⟨-, -, -, rfl⟩ | ⟨reg, -, rfl⟩ | ⟨xc, yc, p, -, -, -, rfl⟩ |
    ⟨xc, yc, p, -, -, -, rfl⟩ | rfl | rfl <;>
    exact ⟨rfl, rfl, rfl⟩

/-- Counting a step for the host's first pending move leaves every move what it is (R253). -/
theorem map_op_hostCount (q : List HostMove) : (hostCount q).map HostMove.op = q.map HostMove.op := by
  cases q <;> rfl

/-- A step leaves the source as it is and gives the host nothing more to do (R253). -/
theorem step_surroundings {s t : State} (h : step s = .next t) :
    t.srcW = s.srcW ∧ t.srcH = s.srcH ∧ t.hostq.map HostMove.op ⊆ s.hostq.map HostMove.op := by
  rcases step_next h with ⟨op, -, ha⟩ | ⟨-, ho⟩
  · obtain ⟨hw, hh, hq⟩ := hostAct_sameSurroundings ha
    exact ⟨hw, hh, hq ▸ List.map_subset _ (List.tail_subset _)⟩
  · obtain ⟨hw, hh, hq⟩ := ownStep_sameSurroundings ho
    refine ⟨hw, hh, ?_⟩
    rw [hq, State.hostWait_hostq, map_op_hostCount]
    exact List.Subset.refl _

theorem hostInImage_iff {s : State} : HostInImage s ↔
    ∀ xc yc p, .pixWrite xc yc p ∈ s.hostq.map HostMove.op → xc < 640 ∧ yc < 496 := by
  simp only [HostInImage, List.mem_map, forall_exists_index, and_imp]
  exact ⟨fun h xc yc p m hm e => h m hm xc yc p e, fun h m hm xc yc p e => h xc yc p m hm e⟩

/-! ### Each operation and each move answers a next state -/

/-- A legal operation is not stopped (R85). -/
theorem exec_completes {i : Instr} (hi : i.wellFormed = true) (s : State) : ∃ t, exec i s = .next t := by
  cases i with
  | end_ => exact ⟨_, rfl⟩
  | setf hz => exact ⟨_, rfl⟩
  | wait us => exact ⟨_, rfl⟩
  | stop => exact ⟨_, rfl⟩
  | scany a => exact ⟨_, (exec_of_scanOf rfl s).trans (if_pos hi)⟩
  | scanry a b => exact ⟨_, (exec_of_scanOf rfl s).trans (if_pos hi)⟩
  | scanby a b => exact ⟨_, (exec_of_scanOf rfl s).trans (if_pos hi)⟩

/-- Every word of the fixed program is a legal operation, so `Exec` is not stopped (R86, R87, R202). -/
theorem fetchExec_completes {s : State} (hp : s.prom = []) : ∃ t, fetchExec s = .next t := by
  rw [fetchExec_of_decode (decode_fetch_fixed s hp)]
  exact exec_completes (romInstr_wellFormed _) s

theorem armed_of_choose_fire {s : State} (h : s.choose = .fire) : s.armed = true := by
  unfold State.choose at h
  split_ifs at h with _ hf
  exact (Bool.and_eq_true_iff.mp hf).1

/-- Of the machine's own steps only the callback and `Exec` can stop, and here they do not (R66, R230). -/
theorem ownStep_completes {s : State} (h : SeqInv s) (hp : s.prom = []) (ho : s.sourceOk = true) :
    ∃ t, ownStep s = .next t := by
  unfold ownStep
  cases hc : s.choose with
  | held => exact ⟨_, rfl⟩
  | fire => exact callbackAlwaysCompletes.1 s h (armed_of_choose_fire hc) ho
  | waitEnd => exact ⟨_, rfl⟩
  | segEnd => exact ⟨_, rfl⟩
  | exec => exact fetchExec_completes hp
  | tick => exact ⟨_, rfl⟩

/-- With a whole source START is not refused, and no other write of a CSR is (R35, R66). -/
theorem csrWrite_completes {s : State} (ho : s.sourceOk = true) (reg : BitVec 3) (v : BitVec 32) :
    ∃ t, csrWrite s reg v = .next t := by
  by_cases hc : reg = 0#3 ∧ v.getLsbD 0 = true ∧ s.seqSt = .idle ∧ s.rst = false
  · obtain ⟨rfl, hv, hs, hr⟩ := hc
    exact ⟨_, csrWrite_start hv hs hr ho⟩
  · exact ⟨s, if_neg hc⟩

/-- With a whole source a move of the host is taken, a write of a pixel if it is inside the image (R253, log 6). -/
theorem hostAct_completes {s : State} {op : HostOp} (ho : s.sourceOk = true)
    (hi : ∀ xc yc p, op = .pixWrite xc yc p → inImage xc yc = true) : ∃ t, hostAct op s = .next t := by
  cases op with
  | csrWrite reg v => exact csrWrite_completes ho reg v
  | csrRead reg => exact ⟨_, rfl⟩
  | pixWrite xc yc p => exact ⟨_, hostAct_pixWrite s p (hi xc yc p rfl)⟩
  | rst level => exact ⟨_, rfl⟩

/-- A move that is due is one of those pending. -/
theorem mem_hostq_of_hostDue {s : State} {op : HostOp} (h : hostDue s = some op) : op ∈ s.hostq.map HostMove.op := by
  unfold hostDue at h
  split at h
  · cases h
  · next m q hq =>
    obtain ⟨-, he⟩ := Option.ite_none_right_eq_some.mp h
    simp [hq, Option.some.inj he]

theorem step_completes {s : State} (h : SeqInv s) (hp : s.prom = []) (ho : s.sourceOk = true) (hi : HostInImage s) :
    ∃ t, step s = .next t := by
  unfold step
  cases hd : hostDue s with
  | none => exact ownStep_completes (h.with_hostq _) hp ho
  | some op =>
    refine hostAct_completes ho fun xc yc p e => (inImage_iff xc yc).mpr ?_
    exact hostInImage_iff.mp hi xc yc p (e ▸ mem_hostq_of_hostDue hd)

/-! ### Obligations -/

/-- Settles O45: the step answers a next state, with the source as it was and no pending write that was not there. -/
theorem fixedProgramNeverStops : Obligations.FixedProgramNeverStops := by
  intro s hs hr ho hi
  obtain ⟨t, ht⟩ := step_completes hs hr.fixed ho hi
  obtain ⟨hw, hh, hq⟩ := step_surroundings ht
  have hsrc : t.sourceOk = true := by rwa [sourceOk_iff, hw, hh, ← sourceOk_iff]
  exact ⟨t, ht, hsrc, hostInImage_iff.mpr fun xc yc p hm => hostInImage_iff.mp hi xc yc p (hq hm)⟩

end Sys2Proof.Machine
end

section
/-! The reset input (70_reset_and_hazards R260 to R262): what reset leaves, what asserting and releasing it do, and that
every step under it leaves every element at its reset value. -/

namespace Sys2Proof.Machine

/-- A move of the reset input that is due is taken (R260). -/
theorem step_of_rst {s : State} {q : List HostMove} {level : Bool} (h : s.hostq = ⟨0, .rst level⟩ :: q) :
    step s = .next ({ s with hostq := q }.setRst level) := by
  simp [step, hostDue, hostReady, h, State.hostPop, hostAct]

/-- Held in reset, the block keeps its reset values while time passes (R260, log 7). -/
theorem ownStep_of_held {s : State} (hr : s.rst = true) : ownStep s = .next s.resetRegs.passTime := by
  simp [ownStep, State.choose, hr]

/-- Under reset every write of a CSR is ignored, START too (R260, log 7). -/
theorem csrWrite_of_rst {s : State} {reg : BitVec 3} {v : BitVec 32} (hr : s.rst = true) :
    csrWrite s reg v = .next s := by
  rw [csrWrite, if_neg]
  rintro ⟨-, -, -, hr'⟩
  exact Bool.false_ne_true (hr'.symm.trans hr)

theorem fire_rst {s t : State} (h : fire s = .next t) : t.rst = s.rst := by
  obtain ⟨-, -, p, q, n, rfl⟩ := fire_next h
  simp

theorem exec_rst {i : Instr} {s t : State} (h : exec i s = .next t) : t.rst = s.rst := by
  rcases exec_next h with ⟨-, rfl⟩ | ⟨hz, -, rfl⟩ | ⟨us, -, rfl⟩ | ⟨-, rfl⟩ | ⟨k, a, b, -, -, -, -, -, rfl⟩ <;> simp

/-- The level of the reset input is the host's: the machine's own step leaves it as it is (R260, R253). -/
theorem ownStep_rst {s t : State} (h : ownStep s = .next t) : t.rst = s.rst := by
  rcases ownStep_next h with ⟨-, rfl⟩ | ⟨-, -, -, hf⟩ | ⟨-, -, -, -, rfl⟩ | ⟨-, -, -, -, rfl⟩ | ⟨-, -, -, hx⟩ |
    ⟨-, -, rfl⟩
  · rfl
  · exact fire_rst hf
  · simp
  · simp
  · obtain ⟨i, -, he⟩ := fetchExec_next hx
    exact exec_rst he
  · rfl

/-- The machine's own step ends under reset only if it began under it, and then it resets. -/
theorem ownStep_atReset {s t : State} (h : ownStep s = .next t) (hr : s.rst = true ∨ t.rst = true) : AtReset t := by
  rw [ownStep_rst h, or_self] at hr
  cases (ownStep_of_held hr).symm.trans h
  exact atReset_resetRegs_passTime s

/-- A move of the host that is made under reset, or that asserts it, leaves every element at its reset value. -/
theorem hostAct_atReset {op : HostOp} {s t : State} (hs : s.rst = true → AtReset s) (h : hostAct op s = .next t)
    (hr : s.rst = true ∨ t.rst = true) : AtReset t := by
  rcases hostAct_next h with rfl | ⟨-, hr', -, rfl⟩ | ⟨reg, -, rfl⟩ | ⟨xc, yc, p, -, -, -, rfl⟩ |
    ⟨xc, yc, p, -, -, -, rfl⟩ | rfl | rfl
  · exact hs (or_self_iff.mp hr)
  · simp [hr'] at hr
  · exact { hs (or_self_iff.mp hr) with }
  · exact { hs (or_self_iff.mp hr) with }
  · exact { hs (or_self_iff.mp hr) with }
  · exact { atReset_resetRegs s with }
  · exact { hs (hr.resolve_right Bool.false_ne_true) with }

/-- A step that begins or ends under reset leaves every element at its reset value (R260, R262). -/
theorem step_atReset {s t : State} (hs : s.rst = true → AtReset s) (h : step s = .next t)
    (hr : s.rst = true ∨ t.rst = true) : AtReset t := by
  rcases step_next h with ⟨op, -, ha⟩ | ⟨-, ho⟩
  · exact hostAct_atReset (s := s.hostPop) (fun e => { hs e with }) ha hr
  · exact ownStep_atReset (s := s.hostWait) ho hr

/-- With every element at its reset value `STATUS` reads 0 (R261). -/
theorem AtReset.status_eq_zero {s : State} (h : AtReset s) : s.csrValue 1#3 = 0#32 := by
  change s.status = 0#32
  rw [State.status, State.run, h.seqSt, h.segKind, h.toneEn, h.done, h.armed]
  rfl

/-! ### Obligations -/

/-- Settles O35: a due move of `rst` is one update, and a step that begins or ends under reset ends at reset. -/
theorem resetHasPriority : Obligations.ResetHasPriority := by
  refine ⟨fun s q h => step_of_rst h, fun s t hs h => ?_, fun s q v h hr => ?_, fun s hr hd => ?_,
    fun s q h => step_of_rst h⟩
  · exact ⟨fun hr => step_atReset hs h (.inr hr), fun hr => step_atReset hs h (.inl hr)⟩
  · exact (step_of_csrWrite h).trans (csrWrite_of_rst hr)
  · refine ⟨s.hostWait.resetRegs.passTime, ?_, atReset_resetRegs_passTime _, hr⟩
    rw [step, hd]
    exact ownStep_of_held (s := s.hostWait) hr

/-- Settles O36: the state after reset has every element at its reset value. -/
theorem resetValues : Obligations.ResetValues :=
  have h := atReset_reset
  ⟨h.seqSt, h.seqPc, h.dly, h.segKind, h.rowA, h.rowB, h.pixIdx, h.done, h.armed, h.pixt, h.toneEn, h.toneFreq,
    h.ncoPhase, h.status_eq_zero⟩

end Sys2Proof.Machine
end
